-- ==== Sys2Proof/Word.lean ====
section
/-!
DEFINITION. The block's plain value types (00_scope.md R11, 10_state.md R26): bit strings, bytes, words, symbols and
trees. There are no signed values (R11).
-/

namespace Sys2Proof

/-- A byte of the raw input, of BYTE_OUT or of the ARG field. -/
abbrev Byte := BitVec 8

/-- A 16-bit command word (R90) or register word address (R8). -/
abbrev Word16 := BitVec 16

/-- A 32-bit register (R8). -/
abbrev Word32 := BitVec 32

/-- A bit string in transmission order, index 0 first (R11); `true` is the bit 1. -/
abbrev Bits := List Bool

/-- A Symbol: an integer in [0, 256] (R14). -/
abbrev Symbol := Fin 257

/-- The inductive type of R26: a leaf holds one symbol, an internal node its left and right child. -/
inductive Tree where
  | leaf (s : Symbol)
  | node (left right : Tree)
deriving DecidableEq, Repr

end Sys2Proof
end

