-- ==== Sys2Proof/Config.lean ====
section
/-!
DEFINITION. The constants of 00_scope.md R8, the defaults of its two parameters, and the one free value of the spec
(20_memory.md R72). The parameters themselves are held in State as the constant registers MAGIC and PARAM (log entry 1).
-/

namespace Sys2Proof.Config

/-- `NSYM`: bytes 0..255 and the pseudo-EOF symbol (R8). -/
abbrev nsym : Nat := 257

/-- `EOF_SYM` (R8). -/
abbrev eofSym : Symbol := 256

/-- `SYM_WIDTH`: bits of a leaf payload (R8). -/
abbrev symWidth : Nat := 9

/-- `NODE_CAP` = 2 * 257 - 1 (R8). -/
abbrev nodeCap : Nat := 513

/-- `MAX_CODE_LEN` = 257 - 1 (R8). -/
abbrev maxCodeLen : Nat := 256

/-- Default of the parameter `MAGIC` (R8, R41). -/
abbrev defaultMagic : Word32 := 1846

/-- Default of the parameter `COUNT_WIDTH` (R8). -/
abbrev defaultCountWidth : Nat := 32

/-- The range of the parameter `COUNT_WIDTH` (R8): 8 to 32. -/
abbrev countWidthOk (w : Nat) : Prop := 8 ≤ w ∧ w ≤ 32

/-- FREE VALUE (R72, U8): what a read of a register other than STATUS returns in its fields while BUSY = 1, for the
n-th such read at an address. It has no body, so nothing can rely on it (log entry 4). -/
opaque busyRead : Nat → Word16 → Word32

end Sys2Proof.Config
end

