-- ==== Sys2Proof/Syntax.lean ====
section
/-!
DEFINITION. The commands of 30_encoding.md R92, one constructor per row of spec/opcode_table.json, the fields of a
command word (R90) and a source line of the assembler syntax (R95).
-/

namespace Sys2Proof

/-- One command. The operand of FACC and ENC is the byte ARG (R91); no other command has an operand. -/
inductive Instr where
  | nop
  | clear
  | facc (b : Byte)
  | ffin
  | build
  | deser
  | ser
  | cgen
  | enc (b : Byte)
  | eeof
  | dec
deriving DecidableEq, Repr

/-- The fields of a command word (R90). -/
structure Fields where
  op  : BitVec 4
  rsv : BitVec 4
  arg : Byte
deriving DecidableEq, Repr

/-- The eleven mnemonics (R92). -/
inductive Mnemonic where
  | nop | clear | facc | ffin | build | deser | ser | cgen | enc | eeof | dec
deriving DecidableEq, Repr

/-- A source line (R95): a mnemonic and the operand as written, a number of any size. -/
structure Source where
  mnemonic : Mnemonic
  operand  : Option Nat
deriving DecidableEq, Repr

/-- The three sub-causes of ILLEGAL_COMMAND (R93). -/
inductive Illegal where
  | reservedOp | rsvNonzero | argNonzero
deriving DecidableEq, Repr

/-- What a command word decodes to (R97): one operation or one illegal sub-cause. -/
inductive Decoded where
  | legal (i : Instr)
  | illegal (c : Illegal)
deriving DecidableEq, Repr

end Sys2Proof
end

