-- ==== Sys2Proof/Machine/State.lean ====
section
/-!
DEFINITION. The architectural state (10_state.md R20), the transient state of a command that is waiting on a stream
(R43, 20_memory.md R64), the ports (R60), and the state after reset (R44, 70_reset_and_hazards.md R240).
-/

namespace Sys2Proof.Machine

/-- The frequency table (R23 to R25). -/
structure FreqFile where
  /-- `FREQ[s]`; 0 means the symbol is absent. -/
  count : Vector Word32 257
  /-- `FREQ_FINAL` -/
  final : Bool
  /-- `FREQ_SAT` -/
  sat : Bool
deriving DecidableEq, Repr

/-- The tree (R26, R27). -/
structure TreeReg where
  /-- `TREE` -/
  value : Option Tree
  /-- `TREE_SRC`: true when the tree came from DESER. -/
  src : Bool
deriving DecidableEq, Repr

/-- The code table and the encoder's flag (R29 to R31). -/
structure CodeFile where
  /-- `CODE[s]` -/
  code : Vector (Option Bits) 257
  /-- `CODES_VALID` -/
  valid : Bool
  /-- `ENC_DONE` -/
  encDone : Bool
deriving DecidableEq, Repr

/-- The outcome of the last DEC (R33): KIND 0, 1 with the byte, 2, 3. -/
inductive DecResult where
  | none
  | byte (b : Byte)
  | eof
  | exhausted
deriving DecidableEq, Repr

/-- The decoder between commands (R32, R33). -/
structure DecReg where
  /-- `DEC_DONE` -/
  done : Bool
  /-- `DEC_RESULT` -/
  result : DecResult
deriving DecidableEq, Repr

/-- The error state (R35 to R38). -/
structure ErrReg where
  /-- `ERR` -/
  err : Bool
  /-- `ERR_CODE` -/
  code : BitVec 4
  /-- `ERR_SUB` -/
  sub : BitVec 4
  /-- `ERR_CMD` -/
  cmd : Word16
  /-- `ERR_INFO` -/
  info : BitVec 9
  /-- `CMD_DROPPED` -/
  dropped : Bool
deriving DecidableEq, Repr

/-- The event counters (R39). -/
structure Counters where
  inBits : Word32
  outBits : Word32
  outBytes : Word32
deriving DecidableEq, Repr

/-- The two parameters, read back from the constant registers MAGIC and PARAM (R8, R41, R42). -/
structure Params where
  magic : Word32
  countWidth : Nat
deriving DecidableEq, Repr

/-- A pending internal node of the tree deserializer's explicit stack (R131, R43). -/
inductive Frame where
  /-- its left subtree is being read -/
  | awaitLeft
  /-- its left subtree is read, its right subtree is being read -/
  | awaitRight (left : Tree)
deriving DecidableEq, Repr

/-- The transient state of DESER between two of its ReadBits (R131, R43): the traversal stack (innermost node first),
`count`, the symbols `seen` so far, and the payload bits read so far when inside a leaf. -/
structure Des where
  stack : List Frame
  count : Nat
  seen : List Symbol
  payload : Option Bits
deriving DecidableEq, Repr

/-- The transient state of DEC at a ReadBit (R171): the children of the current node, and whether that is the root in
SYMBOL_START. -/
structure Walk where
  start : Bool
  left : Tree
  right : Tree
deriving DecidableEq, Repr

/-- What a held command waits for (R64) and what it needs to go on. -/
inductive Wait where
  /-- DESER at a ReadBit -/
  | des (d : Des)
  /-- DEC at a ReadBit -/
  | walk (w : Walk)
  /-- SER, ENC or EEOF at a WriteBit, with the bits still to write; `finish` is true for EEOF -/
  | bits (rest : Bits) (finish : Bool)
  /-- DEC at its WriteByte -/
  | byte (b : Byte)
deriving DecidableEq, Repr

/-- A command that is executing and held: `STATUS.BUSY` = 1 (R64, R72). -/
structure InFlight where
  /-- the command word, for ERR_CMD -/
  word : Word16
  wait : Wait
deriving DecidableEq, Repr

/-- The ports of R60 as the host has left them. -/
structure Ports where
  /-- CMD: words offered and not yet accepted, in order (R250) -/
  cmd : List Word16
  /-- BIT_IN: bits supplied and not yet read (R61) -/
  bitIn : Bits
  /-- BIT_IN: END follows those bits (R61); while false the host may still supply bits (R64) -/
  bitInEnd : Bool
  /-- BIT_OUT: every bit appended, in order (R62) -/
  bitOut : Bits
  /-- how many more bits the host accepts; none is no limit (R64) -/
  bitRoom : Option Nat
  /-- BYTE_OUT: every byte appended, in order (R63) -/
  byteOut : List Byte
  /-- how many more bytes the host accepts; none is no limit (R64) -/
  byteRoom : Option Nat
deriving DecidableEq, Repr

/-- The machine: the block's state, a held command, and the ports. -/
structure State where
  freq : FreqFile
  tree : TreeReg
  codes : CodeFile
  dec : DecReg
  error : ErrReg
  counters : Counters
  params : Params
  /-- the held command; some exactly while `STATUS.BUSY` = 1 between steps -/
  inflight : Option InFlight
  ports : Ports
  /-- the MODEL's own field: which free draw the next register read while BUSY = 1 takes (R72, log entry 4) -/
  draws : Nat
deriving DecidableEq, Repr

/-- Why a step stops. -/
inductive Fault where
  /-- Raised by BUILD when FREQ_FINAL = 1 and every count is 0: "the one entry of Q" (R122) does not exist. No state
  that meets R24 is such a state. Safe: the model stops and picks no tree (log entry 6). -/
  | emptyQueue
deriving DecidableEq, Repr

/-- Why an instruction has no meaning. -/
inductive Refusal where
  /-- Raised by an arm of `exec` for an instruction not modelled yet. Safe. No arm raises it. -/
  | notModelled (mnemonic : String)
deriving DecidableEq, Repr

/-- The outcome of a meaning or a step. -/
abbrev Res := Host.Outcome State Fault Refusal

/-- The machine right after reset (R44, R240) with the default parameters (R8). The ports are the host's; what they
hold here is log entry 3. -/
def State.reset : State where
  freq := ⟨Vector.replicate 257 0, false, false⟩
  tree := ⟨none, false⟩
  codes := ⟨Vector.replicate 257 none, false, false⟩
  dec := ⟨false, .none⟩
  error := ⟨false, 0, 0, 0, 0, false⟩
  counters := ⟨0, 0, 0⟩
  params := ⟨Config.defaultMagic, Config.defaultCountWidth⟩
  inflight := none
  ports := ⟨[], [], true, [], none, [], none⟩
  draws := 0

end Sys2Proof.Machine
end

