-- ==== Sys2Proof/Machine/Flags.lean ====
section
/-!
DEFINITION. The error codes (60_exceptions.md R200, R216) and the register views computed from the state
(10_state.md R33 to R42).
-/

namespace Sys2Proof.Machine

/-- The errors of R200, one constructor per cause. -/
inductive Error where
  | truncDisc | truncLeaf | badSymbol (v : BitVec 9) | dupSymbol (v : BitVec 9) | capacity | degenerate (s : BitVec 9)
  | truncatedStream
  | missingCode (s : BitVec 9)
  | illegalCommand (c : Illegal)
  | freqFinalized | freqNotFinal | noTree | noCodes | encFinished | decFinished
deriving DecidableEq, Repr

/-- `ERR_CODE` (R200): 1 MALFORMED_TREE, 2 TRUNCATED_STREAM, 3 MISSING_CODE, 4 ILLEGAL_COMMAND, 5 SEQUENCE. -/
def Error.code : Error → BitVec 4
  | .truncDisc | .truncLeaf | .badSymbol _ | .dupSymbol _ | .capacity | .degenerate _ => 1
  | .truncatedStream => 2
  | .missingCode _ => 3
  | .illegalCommand _ => 4
  | .freqFinalized | .freqNotFinal | .noTree | .noCodes | .encFinished | .decFinished => 5

/-- The sub-causes of ILLEGAL_COMMAND (R93). -/
def illegalSub : Illegal → BitVec 4
  | .reservedOp => 1
  | .rsvNonzero => 2
  | .argNonzero => 3

/-- `ERR_SUB` (R200, R132, R216). -/
def Error.sub : Error → BitVec 4
  | .truncDisc => 1
  | .truncLeaf => 2
  | .badSymbol _ => 3
  | .dupSymbol _ => 4
  | .capacity => 5
  | .degenerate _ => 6
  | .truncatedStream | .missingCode _ => 0
  | .illegalCommand c => illegalSub c
  | .freqFinalized => 1
  | .freqNotFinal => 2
  | .noTree => 3
  | .noCodes => 4
  | .encFinished => 5
  | .decFinished => 6

/-- `ERR_INFO` (R37, R200): the symbol or leaf value the error concerns, else 0. -/
def Error.info : Error → BitVec 9
  | .badSymbol v | .dupSymbol v | .degenerate v | .missingCode v => v
  | .truncDisc | .truncLeaf | .capacity | .truncatedStream | .illegalCommand _ | .freqFinalized | .freqNotFinal
  | .noTree | .noCodes | .encFinished | .decFinished => 0

/-- A flag at bit `k` of a register. -/
def flagAt (b : Bool) (k : Nat) : Word32 := (BitVec.ofBool b).setWidth 32 <<< k

/-- `STATUS.BUSY` (R72). -/
def State.busy (s : State) : Bool := s.inflight.isSome

/-- `STATUS` (R34). -/
def State.status (s : State) : Word32 :=
  flagAt s.busy 0 ||| flagAt s.error.err 1 ||| flagAt s.freq.final 2 ||| flagAt s.freq.sat 3 |||
  flagAt s.tree.value.isSome 4 ||| flagAt s.tree.src 5 ||| flagAt s.codes.valid 6 ||| flagAt s.codes.encDone 7 |||
  flagAt s.dec.done 8 ||| flagAt s.error.dropped 9

/-- `ERROR` (R35): ERR_CODE in [3:0], ERR_SUB in [7:4]. -/
def State.errorWord (s : State) : Word32 := (s.error.sub ++ s.error.code).setWidth 32

/-- `ERR_CMD` as read (R36). -/
def State.errCmdWord (s : State) : Word32 := s.error.cmd.setWidth 32

/-- `ERR_INFO` as read (R37). -/
def State.errInfoWord (s : State) : Word32 := s.error.info.setWidth 32

/-- `DEC_RESULT` (R33): KIND in [9:8], BYTE in [7:0]. -/
def DecResult.word : DecResult → Word32
  | .none => 0
  | .byte b => 0x100 ||| b.setWidth 32
  | .eof => 0x200
  | .exhausted => 0x300

/-- `PARAM` (R42): COUNT_WIDTH in [7:0], NODE_CAP in [17:8], MAX_CODE_LEN in [26:18]. -/
def State.paramWord (s : State) : Word32 :=
  (BitVec.ofNat 8 s.params.countWidth).setWidth 32 ||| BitVec.ofNat 32 Config.nodeCap <<< 8 |||
  BitVec.ofNat 32 Config.maxCodeLen <<< 18

/-- The number of leaves `L` of a tree (R28). -/
def treeLeaves : Tree → Nat
  | .leaf _ => 1
  | .node l r => treeLeaves l + treeLeaves r

/-- The number of nodes of a tree, leaves and internal nodes (R28). -/
def treeNodes : Tree → Nat
  | .leaf _ => 1
  | .node l r => treeNodes l + treeNodes r + 1

/-- `TREE_INFO` (R40): LEAVES in [8:0], NODES in [25:16]; 0 without a tree. -/
def State.treeInfo (s : State) : Word32 :=
  match s.tree.value with
  | none => 0
  | some t => (BitVec.ofNat 9 (treeLeaves t)).setWidth 32 ||| (BitVec.ofNat 10 (treeNodes t)).setWidth 32 <<< 16

/-- `2^COUNT_WIDTH - 1`, the greatest count (R23, R25). -/
def maxCount (countWidth : Nat) : Word32 := BitVec.ofNat 32 (2 ^ countWidth - 1)

end Sys2Proof.Machine
end

