-- ==== Sys2Proof/WellFormed.lean ====
section
/-!
DEFINITION. Well-formedness: the three field checks of a command word (30_encoding.md R93), the operand check of a
source line (R95), and of an instruction (its operand is the 8-bit ARG by its type, R91, so what is left to say is that
its source line is well formed).
-/

namespace Sys2Proof

/-- Check 1 of R93: OP is one of 0x0..0xA. -/
def Fields.opOk (f : Fields) : Bool := decide (f.op.toNat ≤ 10)

/-- Check 2 of R93: RSV is 0. -/
def Fields.rsvOk (f : Fields) : Bool := f.rsv == 0

/-- The operations with a byte operand, FACC and ENC (R90). -/
def Fields.takesArg (f : Fields) : Bool := f.op == 2 || f.op == 8

/-- Check 3 of R93: ARG is 0 for every operation but FACC and ENC. -/
def Fields.argOk (f : Fields) : Bool := f.takesArg || f.arg == 0

/-- The three checks together. -/
def Fields.wellFormed (f : Fields) : Bool := f.opOk && f.rsvOk && f.argOk

/-- The first check of R93 that fails, if one does. -/
def Fields.illegal? (f : Fields) : Option Illegal :=
  if f.opOk then
    if f.rsvOk then
      if f.argOk then none else some .argNonzero
    else some .rsvNonzero
  else some .reservedOp

/-- FACC and ENC are written with an operand (R95). -/
def Mnemonic.takesOperand : Mnemonic → Bool
  | .facc | .enc => true
  | .nop | .clear | .ffin | .build | .deser | .ser | .cgen | .eeof | .dec => false

/-- R95: one operand in 0..255 for FACC and ENC, none for every other mnemonic. -/
def Source.wellFormed (l : Source) : Bool :=
  match l.operand with
  | none => !l.mnemonic.takesOperand
  | some n => l.mnemonic.takesOperand && decide (n ≤ 255)

/-- The source line of an instruction (R95). -/
def Instr.source : Instr → Source
  | .nop => ⟨.nop, none⟩
  | .clear => ⟨.clear, none⟩
  | .facc b => ⟨.facc, some b.toNat⟩
  | .ffin => ⟨.ffin, none⟩
  | .build => ⟨.build, none⟩
  | .deser => ⟨.deser, none⟩
  | .ser => ⟨.ser, none⟩
  | .cgen => ⟨.cgen, none⟩
  | .enc b => ⟨.enc, some b.toNat⟩
  | .eeof => ⟨.eeof, none⟩
  | .dec => ⟨.dec, none⟩

/-- A well-formed instruction. -/
def Instr.wellFormed (i : Instr) : Bool := i.source.wellFormed

end Sys2Proof
end

