-- ==== Sys2Proof/Decode.lean ====
section
/-!
DEFINITION. The decoder (30_encoding.md R90, R93, R97), total on all 65536 words, and after it the encoder and the
table of R92.
-/

namespace Sys2Proof

/-- The fields of a word (R90): OP [15:12], RSV [11:8], ARG [7:0]. -/
def fieldsOf (w : Word16) : Fields where
  op := w.extractLsb' 12 4
  rsv := w.extractLsb' 8 4
  arg := w.extractLsb' 0 8

/-- The operation of an OP value (R92), with its ARG; none for 0xB..0xF. -/
def operation (op : BitVec 4) (arg : Byte) : Option Instr :=
  match op.toNat with
  | 0 => some .nop
  | 1 => some .clear
  | 2 => some (.facc arg)
  | 3 => some .ffin
  | 4 => some .build
  | 5 => some .deser
  | 6 => some .ser
  | 7 => some .cgen
  | 8 => some (.enc arg)
  | 9 => some .eeof
  | 10 => some .dec
  | _ => none

/-- `decode(w)` of R97: the checks of R93 in their order, then the operation of OP. -/
def decode (w : Word16) : Decoded :=
  match (fieldsOf w).illegal? with
  | some c => .illegal c
  | none =>
    match operation (fieldsOf w).op (fieldsOf w).arg with
    | some i => .legal i
    | none => .illegal .reservedOp

/-- The instruction of a word, for the opcode table's numbering of bits (one 16-bit word is the whole instruction). -/
def decodeTableWord (nbits w : Nat) : Option Instr :=
  match decode (BitVec.ofNat 16 (w % 2 ^ nbits)) with
  | .legal i => some i
  | .illegal _ => none

/-- A word from its fields (R90). -/
def assembleWord (f : Fields) : Word16 := f.op ++ f.rsv ++ f.arg

/-- The fields of each command (R92). -/
def Instr.fields : Instr → Fields
  | .nop => ⟨0x0, 0, 0⟩
  | .clear => ⟨0x1, 0, 0⟩
  | .facc b => ⟨0x2, 0, b⟩
  | .ffin => ⟨0x3, 0, 0⟩
  | .build => ⟨0x4, 0, 0⟩
  | .deser => ⟨0x5, 0, 0⟩
  | .ser => ⟨0x6, 0, 0⟩
  | .cgen => ⟨0x7, 0, 0⟩
  | .enc b => ⟨0x8, 0, b⟩
  | .eeof => ⟨0x9, 0, 0⟩
  | .dec => ⟨0xA, 0, 0⟩

/-- The command word of an instruction (R90, R92). -/
def encode (i : Instr) : Word16 := assembleWord i.fields

/-- The match column of R92's second table. -/
def Mnemonic.matchWord : Mnemonic → Word16
  | .nop => 0x0000
  | .clear => 0x1000
  | .facc => 0x2000
  | .ffin => 0x3000
  | .build => 0x4000
  | .deser => 0x5000
  | .ser => 0x6000
  | .cgen => 0x7000
  | .enc => 0x8000
  | .eeof => 0x9000
  | .dec => 0xA000

/-- The mask column of R92's second table. -/
def Mnemonic.maskWord : Mnemonic → Word16
  | .facc | .enc => 0xFF00
  | .nop | .clear | .ffin | .build | .deser | .ser | .cgen | .eeof | .dec => 0xFFFF

/-- `(w & mask) = match` (R93). -/
abbrev Mnemonic.matchesWord (m : Mnemonic) (w : Word16) : Prop := w &&& m.maskWord = m.matchWord

end Sys2Proof
end

