-- ==== Sys2Proof/Machine/Operands.lean ====
section
/-!
DEFINITION. Operand assembly (30_encoding.md R91) and the bit-string helpers of 00_scope.md R11: `bits9`, and the value
of bits read most significant first (20_memory.md R65).
-/

namespace Sys2Proof.Machine

/-- `s = zext_9(ARG)` (R91): the literal symbol of a byte, 0..255. -/
def literal (b : Byte) : Symbol := ⟨b.toNat, Nat.lt_trans b.isLt (by decide)⟩

/-- A symbol as the 9-bit value of ERR_INFO (R37). -/
def symbolInfo (s : Symbol) : BitVec 9 := BitVec.ofNat 9 s.val

/-- `s[7:0]` (R170). -/
def symbolByte (s : Symbol) : Byte := BitVec.ofNat 8 s.val

/-- `bits9(s) = [s[8], s[7], ..., s[0]]` (R11). -/
def bits9 (s : Symbol) : Bits := [8, 7, 6, 5, 4, 3, 2, 1, 0].map fun k => s.val.testBit k

/-- The value of bits read most significant first: `v <- 2 * v + b` (R65, R131). -/
def bitsValue (bs : Bits) : Nat := bs.foldl (fun v b => 2 * v + b.toNat) 0

end Sys2Proof.Machine
end

