-- ==== Sys2Proof/Machine/Ops.lean ====
section
/-!
DEFINITION. The operations every meaning shares: entering the error state (`raise`, 60_exceptions.md R202) and leaving
it (`cleared`, 47_control.md R181), the drop of a command while ERR = 1 (R203), reading BIT_IN (20_memory.md R61) and
writing BIT_OUT and BYTE_OUT with their holds (R62 to R64).
-/

namespace Sys2Proof.Machine

/-- `raise E(sub, info)` while executing word `w` (R202): latch the error and end the command. -/
def raise (w : Word16) (e : Error) (s : State) : State :=
  { s with
    error := { s.error with err := true, code := e.code, sub := e.sub, cmd := w, info := e.info }
    inflight := none }

/-- The way out of the error state (R206): every piece of the block's state at its reset value (R44); MAGIC and PARAM
are constants, and the streams and CMD belong to the host (R181, R241). -/
def cleared (s : State) : State :=
  { State.reset with params := s.params, ports := s.ports, draws := s.draws }

/-- R201, R203: while ERR = 1 a command is dropped, else it runs. -/
def unlessError (s : State) (run : State → Res) : Res :=
  if s.error.err then .next { s with error := { s.error with dropped := true } } else run s

/-- `require C else raise E` (R216). -/
def require (c : Bool) (w : Word16) (e : Error) (s : State) (run : State → Res) : Res :=
  if c then run s else .next (raise w e s)

/-- An illegal word (R93, R201). -/
def illegalCommand (w : Word16) (c : Illegal) (s : State) : Res :=
  unlessError s fun s => .next (raise w (.illegalCommand c) s)

/-- Successive ReadBits (R61): give the bits to a bit-by-bit machine `f` until it has a result or the bits run out.
The answer is what the machine came to, the bits left, and how many were taken. -/
def feed {α β : Type} (f : α → Bool → α ⊕ β) : α → Bits → (α ⊕ β) × Bits × Nat
  | a, [] => (.inl a, [], 0)
  | a, b :: bs =>
    match f a b with
    | .inr r => (.inr r, bs, 1)
    | .inl a' =>
      let (x, rest, n) := feed f a' bs
      (x, rest, n + 1)

/-- The bits taken from BIT_IN are gone and counted in IN_BITS (R61, R39). -/
def tookBits (rest : Bits) (n : Nat) (s : State) : State :=
  { s with
    ports := { s.ports with bitIn := rest }
    counters := { s.counters with inBits := s.counters.inBits + BitVec.ofNat 32 n } }

/-- The command is held (R64): BUSY stays 1. -/
def hold (w : Word16) (k : Wait) (s : State) : State := { s with inflight := some ⟨w, k⟩ }

/-- The command is done: BUSY falls (R201). -/
def complete (s : State) : State := { s with inflight := none }

/-- How many of `n` elements the host accepts now (R64). -/
def accepted (room : Option Nat) (n : Nat) : Nat :=
  match room with
  | none => n
  | some r => min r n

/-- The room left after `n` elements. -/
def roomLeft (room : Option Nat) (n : Nat) : Option Nat := room.map (· - n)

/-- Append bits to BIT_OUT and count them (R62, R39). -/
def appendBits (bs : Bits) (s : State) : State :=
  { s with
    ports := { s.ports with bitOut := s.ports.bitOut ++ bs, bitRoom := roomLeft s.ports.bitRoom bs.length }
    counters := { s.counters with outBits := s.counters.outBits + BitVec.ofNat 32 bs.length } }

/-- Append a byte to BYTE_OUT and count it (R63, R39). -/
def appendByte (b : Byte) (s : State) : State :=
  { s with
    ports := { s.ports with byteOut := s.ports.byteOut ++ [b], byteRoom := roomLeft s.ports.byteRoom 1 }
    counters := { s.counters with outBytes := s.counters.outBytes + 1 } }

/-- What follows a command's last WriteBit: EEOF sets ENC_DONE (R161), SER and ENC do nothing more. -/
def finishBits (finish : Bool) (s : State) : State :=
  complete { s with codes := { s.codes with encDone := s.codes.encDone || finish } }

/-- `WriteBits(a)` as the rest of command `w` (R62, R64): write what the host accepts, then finish or be held. -/
def writeBits (w : Word16) (bs : Bits) (finish : Bool) (s : State) : State :=
  let n := accepted s.ports.bitRoom bs.length
  let s' := appendBits (bs.take n) s
  if bs.drop n = [] then finishBits finish s' else hold w (.bits (bs.drop n) finish) s'

/-- Read access to the code file (R29). -/
def codeOf (s : State) (sym : Symbol) : Option Bits := s.codes.code[sym.val]

/-- The code table and the decoder of an old tree are dropped (R124, R130). -/
def dropTables (s : State) : State :=
  { s with codes := ⟨Vector.replicate 257 none, false, false⟩, dec := ⟨false, .none⟩ }

/-- Write TREE and TREE_SRC (R124, R130, R133). -/
def setTree (t : Option Tree) (src : Bool) (s : State) : State := { s with tree := ⟨t, src⟩ }

/-- Write the decoder's registers (R170). -/
def setDec (done : Bool) (r : DecResult) (s : State) : State := { s with dec := ⟨done, r⟩ }

end Sys2Proof.Machine
end

