-- ==== Sys2Proof/Machine/CodeTable.lean ====
section
/-!
DEFINITION. The code table generator, CGEN (44_code_table.md R150, R151).
-/

namespace Sys2Proof.Machine

/-- `gen(t, p)` (R151) as what it makes of the code file. -/
def gen : Tree → Bits → Vector (Option Bits) 257 → Vector (Option Bits) 257
  | .leaf s, p, c => c.set s.val (some p)
  | .node l r, p, c => gen r (p ++ [true]) (gen l (p ++ [false]) c)

/-- The code table of a tree: `gen(TREE, [])` on a file of `none` (R150). -/
def codeTable (t : Tree) : Vector (Option Bits) 257 := gen t [] (Vector.replicate 257 none)

/-- CGEN (R150). -/
def execCgen (s : State) : Res :=
  unlessError s fun s =>
  match s.tree.value with
  | none => .next (raise (encode .cgen) .noTree s)
  | some t => .next { s with codes := ⟨codeTable t, true, false⟩ }

end Sys2Proof.Machine
end

