-- ==== Sys2Proof/Machine/Control.lean ====
section
/-!
DEFINITION. The control commands NOP and CLEAR (47_control.md R180, R181). Both are accepted while ERR = 1 (R201).
-/

namespace Sys2Proof.Machine

/-- NOP (R180): nothing. -/
def execNop (s : State) : Res := .next s

/-- CLEAR (R181): the reset values; the streams are not touched. -/
def execClear (s : State) : Res := .next (cleared s)

end Sys2Proof.Machine
end

