-- ==== Sys2Proof/Machine/Decoder.lean ====
section
/-!
DEFINITION. The symbol decoder, DEC (46_decoder.md R170 to R174).
-/

namespace Sys2Proof.Machine

/-- One ReadBit of `decodeOne` that returned a bit (R171): go to a child; at a leaf the symbol is found. -/
def Walk.bit (w : Walk) (b : Bool) : Walk ⊕ Symbol :=
  match if b then w.right else w.left with
  | .leaf s => .inr s
  | .node l r => .inl ⟨false, l, r⟩

/-- The outcome BYTE (R170): WriteByte, then DEC_RESULT; held while the host accepts no byte (R64). -/
def emitByte (w : Word16) (b : Byte) (s : State) : State :=
  if accepted s.ports.byteRoom 1 = 1 then complete (setDec s.dec.done (.byte b) (appendByte b s))
  else hold w (.byte b) s

/-- A leaf is reached (R170, R171): 256 is EOF, any other symbol a byte. -/
def foundSymbol (w : Word16) (sym : Symbol) (s : State) : State :=
  if sym = Config.eofSym then complete (setDec true .eof s) else emitByte w (symbolByte sym) s

/-- DEC from a ReadBit on (R171): END in SYMBOL_START is EXHAUSTED, END mid-descent TRUNCATED_STREAM. -/
def runWalk (w : Word16) (k : Walk) (s : State) : State :=
  match feed Walk.bit k s.ports.bitIn with
  | (.inr sym, rest, n) => foundSymbol w sym (tookBits rest n s)
  | (.inl k', rest, n) =>
    if s.ports.bitInEnd then
      if k'.start then complete (setDec true .exhausted (tookBits rest n s))
      else raise w .truncatedStream (tookBits rest n s)
    else hold w (.walk k') (tookBits rest n s)

/-- `decodeOne(root)` (R171, R173). -/
def decodeOne (w : Word16) (root : Tree) (s : State) : State :=
  match root with
  | .leaf sym => if sym = Config.eofSym then setDec true .eof s else raise w (.degenerate (symbolInfo sym)) s
  | .node l r => runWalk w ⟨true, l, r⟩ s

/-- DEC (R170). -/
def execDec (s : State) : Res :=
  unlessError s fun s =>
  match s.tree.value with
  | none => .next (raise (encode .dec) .noTree s)
  | some t => require (!s.dec.done) (encode .dec) .decFinished s fun s => .next (decodeOne (encode .dec) t s)

end Sys2Proof.Machine
end

