-- ==== Sys2Proof/Machine/Encoder.lean ====
section
/-!
DEFINITION. The symbol encoder, ENC and EEOF (45_encoder.md R160, R161).
-/

namespace Sys2Proof.Machine

/-- The common part of ENC and EEOF: the two `require` lines in their order (R204), the missing code, the write.
DESIGN CHOICE (log entry 13): ENC of the byte of a deserialized root leaf `Leaf(b)`, b < 256, writes the zero bits of
its empty code, by the pseudocode of R160 and R153; the corner case of R160 would have it raise MISSING_CODE. -/
def encodeSymbol (w : Word16) (sym : Symbol) (finish : Bool) (s : State) : Res :=
  require s.codes.valid w .noCodes s fun s =>
  require (!s.codes.encDone) w .encFinished s fun s =>
  match codeOf s sym with
  | none => .next (raise w (.missingCode (symbolInfo sym)) s)
  | some c => .next (writeBits w c finish s)

/-- ENC (R160). -/
def execEnc (b : Byte) (s : State) : Res :=
  unlessError s fun s => encodeSymbol (encode (.enc b)) (literal b) false s

/-- EEOF (R161). -/
def execEeof (s : State) : Res :=
  unlessError s fun s => encodeSymbol (encode .eeof) Config.eofSym true s

end Sys2Proof.Machine
end

