-- ==== Sys2Proof/Machine/Frequency.lean ====
section
/-!
DEFINITION. The frequency table accumulator, FACC and FFIN (40_frequency.md R110, R111).
-/

namespace Sys2Proof.Machine

/-- Count one occurrence of a symbol, saturating (R110). -/
def countSymbol (sym : Symbol) (s : State) : State :=
  if s.freq.count[sym.val] = maxCount s.params.countWidth then
    { s with freq := { s.freq with sat := true } }
  else
    { s with freq := { s.freq with count := s.freq.count.set sym.val (s.freq.count[sym.val] + 1) } }

/-- FACC (R110). -/
def execFacc (b : Byte) (s : State) : Res :=
  unlessError s fun s =>
  require (!s.freq.final) (encode (.facc b)) .freqFinalized s fun s =>
  .next (countSymbol (literal b) s)

/-- The pseudo-EOF entry, with count 1 if it is absent (R111). -/
def insertEof (f : FreqFile) : FreqFile :=
  if f.count[Config.eofSym.val] = 0 then { f with count := f.count.set Config.eofSym.val 1 } else f

/-- The body of FFIN (R111); a second FFIN changes nothing. -/
def finalizeFreq (s : State) : State :=
  if s.freq.final then s else { s with freq := { insertEof s.freq with final := true } }

/-- FFIN (R111). -/
def execFfin (s : State) : Res := unlessError s fun s => .next (finalizeFreq s)

end Sys2Proof.Machine
end

