-- ==== Sys2Proof/Machine/TreeBuild.lean ====
section
/-!
DEFINITION. The Huffman tree builder, BUILD (41_tree_build.md R120 to R125).
-/

namespace Sys2Proof.Machine

/-- A queue entry `(w, q, t)` (R121). The weight is exact (R125), a natural number (log entry 10). -/
structure Entry where
  weight : Nat
  seq : Nat
  tree : Tree
deriving DecidableEq, Repr

/-- The order of `extractMin`: least weight, among equal weights least sequence number (R121). -/
def Entry.before (a b : Entry) : Bool := a.weight < b.weight || (a.weight == b.weight && a.seq < b.seq)

/-- `extractMin(Q)` (R121): the least entry and the others. -/
def extractMin : List Entry → Option (Entry × List Entry)
  | [] => none
  | e :: q =>
    match extractMin q with
    | none => some (e, q)
    | some (m, rest) => if m.before e then some (m, e :: rest) else some (e, q)

/-- The symbols with a non-zero count, in ascending order (R121). -/
def presentSymbols (count : Vector Word32 257) : List Symbol :=
  (List.finRange 257).filter fun s => count[s.val] != 0

/-- The queue at the start: one leaf per such symbol, numbered in that order (R121). -/
def initialQueue (count : Vector Word32 257) : List Entry :=
  (presentSymbols count).mapIdx fun n s => ⟨count[s.val].toNat, n, .leaf s⟩

/-- One turn of the merge loop (R122): the two least entries become one, first extracted to the left, numbered `n`;
none when the queue has fewer than two entries and the loop ends. -/
def mergeOnce (n : Nat) (q : List Entry) : Option (List Entry) :=
  match extractMin q with
  | none => none
  | some (a, q1) =>
    match extractMin q1 with
    | none => none
    | some (b, q2) => some (q2 ++ [⟨a.weight + b.weight, n, .node a.tree b.tree⟩])

/-- The tree of the one entry of a queue (R122). -/
def loneTree : List Entry → Option Tree
  | [e] => some e.tree
  | _ => none

/-- The merge loop (R122): `n` is the next sequence number; every turn shortens the queue by one, so as many turns as
the queue has entries (`fuel`) are enough. -/
def mergeLoop : Nat → Nat → List Entry → Option Tree
  | 0, _, q => loneTree q
  | fuel + 1, n, q =>
    match mergeOnce n q with
    | some q' => mergeLoop fuel (n + 1) q'
    | none => loneTree q

/-- `buildTree(FREQ)` (R120 to R123); none only for an empty queue. -/
def buildTree (count : Vector Word32 257) : Option Tree :=
  mergeLoop (initialQueue count).length (initialQueue count).length (initialQueue count)

/-- Commit (R124). -/
def commitBuilt (t : Tree) (s : State) : State := setTree (some t) false (dropTables s)

/-- BUILD (R120). -/
def execBuild (s : State) : Res :=
  unlessError s fun s =>
  require s.freq.final (encode .build) .freqNotFinal s fun s =>
  match buildTree s.freq.count with
  | some t => .next (commitBuilt t s)
  | none => .fault .emptyQueue

end Sys2Proof.Machine
end

