-- ==== Sys2Proof/Machine/TreeDeserialize.lean ====
section
/-!
DEFINITION. The tree deserializer, DESER (42_tree_deserialize.md R130 to R133), as the explicit-stack traversal R131
allows, one ReadBit at a time, so that it can be held at any ReadBit (20_memory.md R64). That it does what the recursion
`des()` of R131 does is an obligation.
-/

namespace Sys2Proof.Machine

/-- DESER before its first ReadBit (R130). -/
def Des.begin : Des := ⟨[], 0, [], none⟩

/-- A subtree is complete: go up to the innermost node that still waits for its right subtree, building the nodes
that are complete too; left is the whole tree, right the stack that is left. -/
def climb : List Frame → Tree → Tree ⊕ List Frame
  | [], t => .inl t
  | .awaitLeft :: k, t => .inr (.awaitRight t :: k)
  | .awaitRight l :: k, t => climb k (.node l t)

/-- A complete payload of value `v` (R131): BAD_SYMBOL before DUP_SYMBOL (R204), else the leaf. -/
def Des.leaf (d : Des) (v : Nat) : Des ⊕ Except Error Tree :=
  if h : v < 257 then
    if (⟨v, h⟩ : Symbol) ∈ d.seen then .inr (.error (.dupSymbol (BitVec.ofNat 9 v)))
    else
      match climb d.stack (.leaf ⟨v, h⟩) with
      | .inl t => .inr (.ok t)
      | .inr k => .inl { stack := k, count := d.count, seen := ⟨v, h⟩ :: d.seen, payload := none }
  else .inr (.error (.badSymbol (BitVec.ofNat 9 v)))

/-- One ReadBit of `des()` that returned a bit (R131): a discriminator, or the next of a leaf's 9 payload bits. -/
def Des.bit (d : Des) (b : Bool) : Des ⊕ Except Error Tree :=
  match d.payload with
  | none =>
    if d.count + 1 > Config.nodeCap then .inr (.error .capacity)
    else if b then .inl { d with count := d.count + 1, stack := .awaitLeft :: d.stack }
    else .inl { d with count := d.count + 1, payload := some [] }
  | some p =>
    if p.length + 1 < Config.symWidth then .inl { d with payload := some (p ++ [b]) }
    else d.leaf (bitsValue (p ++ [b]))

/-- END at a ReadBit of `des()` (R131, R132). -/
def Des.atEnd (d : Des) : Error := if d.payload.isSome then .truncLeaf else .truncDisc

/-- DESER from a ReadBit on: read until the tree is complete or refused, END is met, or the command is held. -/
def runDes (w : Word16) (d : Des) (s : State) : State :=
  match feed Des.bit d s.ports.bitIn with
  | (.inr (.ok t), rest, n) => complete (setTree (some t) true (tookBits rest n s))
  | (.inr (.error e), rest, n) => raise w e (tookBits rest n s)
  | (.inl d', rest, n) =>
    if s.ports.bitInEnd then raise w d'.atEnd (tookBits rest n s) else hold w (.des d') (tookBits rest n s)

/-- DESER (R130): the old tree and its tables are discarded first. -/
def execDeser (s : State) : Res :=
  unlessError s fun s => .next (runDes (encode .deser) Des.begin (setTree none false (dropTables s)))

end Sys2Proof.Machine
end

