-- ==== Sys2Proof/Machine/TreeSerialize.lean ====
section
/-!
DEFINITION. The tree serializer, SER (43_tree_serialize.md R140, R141).
-/

namespace Sys2Proof.Machine

/-- `ser` (R141). -/
def serTree : Tree → Bits
  | .leaf s => [false] ++ bits9 s
  | .node l r => [true] ++ serTree l ++ serTree r

/-- SER (R140). -/
def execSer (s : State) : Res :=
  unlessError s fun s =>
  match s.tree.value with
  | none => .next (raise (encode .ser) .noTree s)
  | some t => .next (writeBits (encode .ser) (serTree t) false s)

end Sys2Proof.Machine
end

