-- ==== Sys2Proof/Machine/Dispatch.lean ====
section
/-! DEFINITION. One arm per command of 30_encoding.md R92. -/

namespace Sys2Proof.Machine

def exec (i : Instr) (s : State) : Host.Outcome State Fault Refusal :=
  match i with
  | .nop => Sys2Proof.Machine.execNop s
  | .clear => Sys2Proof.Machine.execClear s
  | .facc b => Sys2Proof.Machine.execFacc b s
  | .ffin => Sys2Proof.Machine.execFfin s
  | .build => Sys2Proof.Machine.execBuild s
  | .deser => Sys2Proof.Machine.execDeser s
  | .ser => Sys2Proof.Machine.execSer s
  | .cgen => Sys2Proof.Machine.execCgen s
  | .enc b => Sys2Proof.Machine.execEnc b s
  | .eeof => Sys2Proof.Machine.execEeof s
  | .dec => Sys2Proof.Machine.execDec s

end Sys2Proof.Machine
end

