-- ==== Sys2Proof/Machine/Resume.lean ====
section
/-!
DEFINITION. A held command goes on from where it waits (20_memory.md R64), and the next word of CMD is accepted
(R60, 70_reset_and_hazards.md R250).
-/

namespace Sys2Proof.Machine

/-- The rest of a held command. While the host has not acted it is held again and nothing changes (R64). -/
def resume (f : InFlight) (s : State) : State :=
  match f.wait with
  | .des d => runDes f.word d s
  | .walk k => runWalk f.word k s
  | .bits rest finish => writeBits f.word rest finish s
  | .byte b => emitByte f.word b s

/-- CMD without its first word, which the engine has accepted (R250). -/
def acceptCommand (rest : List Word16) (s : State) : State := { s with ports := { s.ports with cmd := rest } }

/-- A word offered on CMD ahead of the others, to an engine that is idle. -/
def placeCommand (w : Word16) (s : State) : State :=
  { s with ports := { s.ports with cmd := w :: s.ports.cmd }, inflight := none }

end Sys2Proof.Machine
end

