-- ==== Sys2Proof/Machine/Step.lean ====
section
/-!
DEFINITION. One step of the engine (60_exceptions.md R201): a held command goes on; else the next word of CMD is
accepted and processed; with nothing on CMD the block is idle.
-/

namespace Sys2Proof.Machine

/-- One step. -/
def step (s : State) : Host.Outcome State Fault Refusal :=
  match s.inflight with
  | some f => .next (resume f s)
  | none =>
    match s.ports.cmd with
    | [] => .next s
    | w :: rest =>
      match decode w with
      | .legal i => exec i (acceptCommand rest s)
      | .illegal c => illegalCommand w c (acceptCommand rest s)

/-- The instruction whose bits are `w` offered on CMD so that the next step accepts exactly it (log entry 9). -/
def State.withFetchWord (s : State) (nbits w : Nat) : State :=
  placeCommand (BitVec.ofNat 16 (w % 2 ^ nbits)) s

end Sys2Proof.Machine
end

