-- ==== Sys2Proof/Machine/Assembler.lean ====
section
/-!
DEFINITION. The assembler syntax of 30_encoding.md R95: a line is a mnemonic in upper case, for FACC and ENC one operand
(decimal, hex or a character literal), and may end in a comment. What R95 leaves open is in log entry 11.
-/

namespace Sys2Proof.Machine

/-- The mnemonics as written (R92). -/
def mnemonicOf (name : List Char) : Option Mnemonic :=
  if name = ['N', 'O', 'P'] then some .nop
  else if name = ['C', 'L', 'E', 'A', 'R'] then some .clear
  else if name = ['F', 'A', 'C', 'C'] then some .facc
  else if name = ['F', 'F', 'I', 'N'] then some .ffin
  else if name = ['B', 'U', 'I', 'L', 'D'] then some .build
  else if name = ['D', 'E', 'S', 'E', 'R'] then some .deser
  else if name = ['S', 'E', 'R'] then some .ser
  else if name = ['C', 'G', 'E', 'N'] then some .cgen
  else if name = ['E', 'N', 'C'] then some .enc
  else if name = ['E', 'E', 'O', 'F'] then some .eeof
  else if name = ['D', 'E', 'C'] then some .dec
  else none

/-- Space and tab. -/
def isBlank (c : Char) : Bool := c.toNat == 32 || c.toNat == 9

/-- The rest of a line holds nothing but blanks and a comment. -/
def lineEnds (cs : List Char) : Bool :=
  match cs.dropWhile isBlank with
  | [] => true
  | c :: _ => c == ';'

/-- A decimal digit's value. -/
def decDigit (c : Char) : Option Nat := if 48 ≤ c.toNat ∧ c.toNat ≤ 57 then some (c.toNat - 48) else none

/-- A hex digit's value. -/
def hexDigit (c : Char) : Option Nat :=
  if 65 ≤ c.toNat ∧ c.toNat ≤ 70 then some (c.toNat - 55)
  else if 97 ≤ c.toNat ∧ c.toNat ≤ 102 then some (c.toNat - 87)
  else decDigit c

/-- A number in a base, of any size; none if a character is no digit. -/
def digitsValue (base : Nat) (digit : Char → Option Nat) : Nat → List Char → Option Nat
  | v, [] => some v
  | v, c :: cs =>
    match digit c with
    | some d => digitsValue base digit (base * v + d) cs
    | none => none

/-- A word of a line: up to a blank or the comment. -/
def inWord (c : Char) : Bool := !isBlank c && c != ';'

/-- The operand at the start of `cs`, and what follows it: a character literal is its ASCII code, `0x` and digits is a hex number,
digits are a decimal number. -/
def operandOf (cs : List Char) : Option (Nat × List Char) :=
  match cs with
  | q :: c :: q' :: rest =>
    if q.toNat = 39 then
      if q'.toNat = 39 ∧ c.toNat < 128 then some (c.toNat, rest) else none
    else numberOf cs
  | _ => numberOf cs
where
  numberOf (cs : List Char) : Option (Nat × List Char) :=
    let word := cs.takeWhile inWord
    let rest := cs.dropWhile inWord
    match word with
    | [] => none
    | '0' :: 'x' :: d :: ds => (digitsValue 16 hexDigit 0 (d :: ds)).map fun v => (v, rest)
    | ds => (digitsValue 10 decDigit 0 ds).map fun v => (v, rest)

/-- What a line of text is: no command (blank or comment only), a source line, or an error. -/
inductive Line where
  | empty
  | command (l : Source)
  | error
deriving DecidableEq, Repr

/-- Read one line (R95). -/
def parseLine (text : List Char) : Line :=
  let cs := text.dropWhile isBlank
  if lineEnds cs then .empty
  else
    match mnemonicOf (cs.takeWhile inWord) with
    | none => .error
    | some m =>
      let rest := (cs.dropWhile inWord).dropWhile isBlank
      if lineEnds rest then .command ⟨m, none⟩
      else
        match operandOf rest with
        | some (v, tail) => if lineEnds tail then .command ⟨m, some v⟩ else .error
        | none => .error

/-- The instruction of a well-formed source line; an operand out of range, missing or present on an operand-less
mnemonic is an assembly error, never encoded (R95). -/
def Source.instr? (l : Source) : Option Instr :=
  if l.wellFormed then
    match l.mnemonic with
    | .nop => some .nop
    | .clear => some .clear
    | .facc => some (.facc (BitVec.ofNat 8 (l.operand.getD 0)))
    | .ffin => some .ffin
    | .build => some .build
    | .deser => some .deser
    | .ser => some .ser
    | .cgen => some .cgen
    | .enc => some (.enc (BitVec.ofNat 8 (l.operand.getD 0)))
    | .eeof => some .eeof
    | .dec => some .dec
  else none

/-- A program text, one command a line; none on an assembly error. -/
def assemble : List (List Char) → Option (List Instr)
  | [] => some []
  | line :: lines =>
    match parseLine line, assemble lines with
    | .empty, some is => some is
    | .command l, some is => (Source.instr? l).map (· :: is)
    | _, _ => none

end Sys2Proof.Machine
end

