-- ==== Sys2Proof/Machine/HostPort.lean ====
section
/-!
DEFINITION. What the host can do to the block (20_memory.md R60 to R64, 60_exceptions.md R210): read a register
(R70 to R73), offer a command, open, feed and close BIT_IN, accept output, and assert hardware reset
(70_reset_and_hazards.md R240, R241). Each is a move between two steps of the engine.
-/

namespace Sys2Proof.Machine

/-- `CODE_LEN[s]` (R73): VALID in bit 31, the length in [8:0]; 0 for an absent code. -/
def codeLenWord : Option Bits → Word32
  | none => 0
  | some c => 1#32 <<< 31 ||| (BitVec.ofNat 9 c.length).setWidth 32

/-- `CODE_BITS[s][k]` (R73): bit `31 - j` is code bit `32k + j`, 0 past the end and for an absent code. -/
def codeBitsWord (c : Option Bits) (k : Nat) : Word32 :=
  BitVec.ofNat 32 (bitsValue ((List.range 32).map fun j => (c.getD []).getD (32 * k + j) false))

/-- The registers of the register map (R70). -/
inductive Register where
  | magic | param | status | error | errCmd | errInfo | decResult | inBits | outBits | outBytes | treeInfo
  | freq (sym : Symbol) | codeLen (sym : Symbol) | codeBits (sym : Symbol) (k : Nat)
deriving DecidableEq, Repr

/-- The register at a word address, as R70 lists them; none at an address not listed (R71). -/
def registerAt (a : Nat) : Option Register :=
  if a = 0x0000 then some .magic
  else if a = 0x0001 then some .param
  else if a = 0x0002 then some .status
  else if a = 0x0003 then some .error
  else if a = 0x0004 then some .errCmd
  else if a = 0x0005 then some .errInfo
  else if a = 0x0006 then some .decResult
  else if a = 0x0007 then some .inBits
  else if a = 0x0008 then some .outBits
  else if a = 0x0009 then some .outBytes
  else if a = 0x000A then some .treeInfo
  else if h : 0x0100 ≤ a ∧ a ≤ 0x0200 then some (.freq ⟨a - 0x0100, by omega⟩)
  else if h : 0x0400 ≤ a ∧ a ≤ 0x0500 then some (.codeLen ⟨a - 0x0400, by omega⟩)
  else if h : 0x1000 ≤ a ∧ a ≤ 0x1807 then some (.codeBits ⟨(a - 0x1000) / 8, by omega⟩ ((a - 0x1000) % 8))
  else none

/-- What a register holds (R70). -/
def registerValue (s : State) : Register → Word32
  | .magic => s.params.magic
  | .param => s.paramWord
  | .status => s.status
  | .error => s.errorWord
  | .errCmd => s.errCmdWord
  | .errInfo => s.errInfoWord
  | .decResult => s.dec.result.word
  | .inBits => s.counters.inBits
  | .outBits => s.counters.outBits
  | .outBytes => s.counters.outBytes
  | .treeInfo => s.treeInfo
  | .freq sym => s.freq.count[sym.val]
  | .codeLen sym => codeLenWord (codeOf s sym)
  | .codeBits sym k => codeBitsWord (codeOf s sym) k

/-- The bits of a register that its fields fill (R23, R33 to R42, R73); the others are reserved and read 0 (R71). -/
def registerFields (s : State) : Register → Word32
  | .magic | .inBits | .outBits | .outBytes | .codeBits _ _ => 0xFFFFFFFF
  | .param => 0x07FFFFFF
  | .status => 0x000003FF
  | .error => 0x000000FF
  | .errCmd => 0x0000FFFF
  | .errInfo => 0x000001FF
  | .decResult => 0x000003FF
  | .treeInfo => 0x03FF01FF
  | .freq _ => maxCount s.params.countWidth
  | .codeLen _ => 0x800001FF

/-- `MemRead(addr, 32)` (R70 to R72): an address not listed reads 0; while BUSY = 0 a register reads what it holds;
while BUSY = 1 STATUS still does, and every other register reads a free value in its fields, its reserved bits 0
(DEDUCED from R71, R72 and U9 together: log entry 4). -/
def memRead (s : State) (addr : Word16) : Word32 :=
  match registerAt addr.toNat with
  | none => 0
  | some r =>
    if s.busy && r != .status then Config.busyRead s.draws addr &&& registerFields s r else registerValue s r

/-- A host read: the data, and the state in which the next free draw is another one. The block's state and the ports
do not change (R72). -/
def hostRead (addr : Word16) (s : State) : Word32 × State :=
  (memRead s addr, if s.busy then { s with draws := s.draws + 1 } else s)

/-- Offer a command word on CMD; it waits behind those already offered (R250). DESIGN CHOICE (log entry 8): the host may
do so while BUSY = 1 too, by R250 (a command sent early waits); U11 and D37 would have no such move. -/
def hostIssue (w : Word16) (s : State) : State :=
  { s with ports := { s.ports with cmd := s.ports.cmd ++ [w] } }

/-- Open a new input stream, which the host may do only while the block is idle (R61); there is no such move while
BUSY = 1 (D37, U11, log entry 8). -/
def hostOpen (s : State) : Option State :=
  if s.busy then none else some { s with ports := { s.ports with bitIn := [], bitInEnd := false } }

/-- Supply bits to an input stream that is not closed (R61, R64), while BUSY = 1 too, for that lifts a hold (log
entry 8). -/
def hostSupply (bs : Bits) (s : State) : Option State :=
  if s.ports.bitInEnd then none else some { s with ports := { s.ports with bitIn := s.ports.bitIn ++ bs } }

/-- Close the input stream with END (R61, R64, R255). -/
def hostClose (s : State) : State := { s with ports := { s.ports with bitInEnd := true } }

/-- Say how many more bits of BIT_OUT the host accepts (R64). -/
def hostBitRoom (room : Option Nat) (s : State) : State := { s with ports := { s.ports with bitRoom := room } }

/-- Say how many more bytes of BYTE_OUT the host accepts (R64). -/
def hostByteRoom (room : Option Nat) (s : State) : State := { s with ports := { s.ports with byteRoom := room } }

/-- Hardware reset (R240, R241): the reset values; a command that was executing is abandoned, and what it took from or
gave to a stream stays taken or given. -/
def hardReset (s : State) : State := cleared s

end Sys2Proof.Machine
end

