-- ==== Sys2Proof/Machine/HostFlow.lean ====
section
/-!
DEFINITION. What the spec says the host does around the block: the macros of 30_encoding.md R96, the encode and decode
flows of 70_reset_and_hazards.md R243 and R244, the packing of the bit stream into bytes and the container of
20_memory.md R66 and R67, and the host's magic check of 60_exceptions.md R210.
-/

namespace Sys2Proof.Machine

/-- The macro FACCS (R96). -/
def faccs (bs : List Byte) : List Instr := bs.map Instr.facc

/-- The macro ENCS (R96). -/
def encs (bs : List Byte) : List Instr := bs.map Instr.enc

/-- The macro ENCODE (R96), the encode flow's commands (R243). -/
def encodeMacro (bs : List Byte) : List Instr :=
  [.clear] ++ faccs bs ++ [.ffin, .build, .cgen, .ser] ++ encs bs ++ [.eeof]

/-- The fixed part of the macro DECODE (R96, R244). -/
def decodeMacro : List Instr := [.clear, .deser]

/-- The condition of the host's DEC loop (R96, R244): `STATUS.DEC_DONE = 0` and `STATUS.ERR = 0`. -/
def decodeGoesOn (s : State) : Bool := !s.dec.done && !s.error.err

/-- Commands issued in order, each when the one before has completed (R250); a command that is held, or a stop, ends
the run there. -/
def execAll : List Instr → State → Res
  | [], s => .next s
  | i :: is, s =>
    match exec i s with
    | .next s' => if s'.busy then .next s' else execAll is s'
    | .fault f => .fault f
    | .refused r => .refused r

/-- The host's DEC loop (R244), for at most `fuel` DEC commands. -/
def decodeLoop : Nat → State → Res
  | 0, s => .next s
  | fuel + 1, s =>
    if decodeGoesOn s then
      match exec .dec s with
      | .next s' => if s'.busy then .next s' else decodeLoop fuel s'
      | .fault f => .fault f
      | .refused r => .refused r
    else .next s

/-- The 8 bits of a byte, most significant first (R66). -/
def byteBits (b : Byte) : Bits := [7, 6, 5, 4, 3, 2, 1, 0].map fun k => b.getLsbD k

/-- The byte of at most 8 stream bits, unused low bits 0 (R66). -/
def byteOfBits (bs : Bits) : Byte := BitVec.ofNat 8 (bitsValue (bs ++ List.replicate (8 - bs.length) false))

/-- Packing (R66): stream bit `8k + j` is bit `7 - j` of byte `k`. -/
def packBytes : Bits → List Byte
  | b0 :: b1 :: b2 :: b3 :: b4 :: b5 :: b6 :: b7 :: rest => byteOfBits [b0, b1, b2, b3, b4, b5, b6, b7] :: packBytes rest
  | [] => []
  | bs => [byteOfBits bs]

/-- The stream bits of bytes (R66). -/
def unpackBytes (bs : List Byte) : Bits := bs.flatMap byteBits

/-- The magic, most significant bit first (R67). -/
def magicBits (m : Word32) : Bits := (List.range 32).map fun j => m.getLsbD (31 - j)

/-- The container (R67): the magic, what the block wrote to BIT_OUT, padding. -/
def container (m : Word32) (out : Bits) : List Byte := packBytes (magicBits m ++ out)

/-- The host's check of the header (R210): the bits for BIT_IN, or none for FormatError (R209). -/
def hostOpensContainer (m : Word32) (file : List Byte) : Option Bits :=
  if (unpackBytes file).take 32 = magicBits m then some ((unpackBytes file).drop 32) else none

end Sys2Proof.Machine
end

