-- ==== Sys2Proof/Safety.lean ====
section
/-!
DEFINITION. What claims are stated in: facts of trees (10_state.md R28), the recursion `des()` of
42_tree_deserialize.md R131 as the spec writes it, and the invariant of the machine.
-/

namespace Sys2Proof.Machine

/-- The leaf symbols of a tree in preorder. -/
def treeSymbols : Tree → List Symbol
  | .leaf s => [s]
  | .node l r => treeSymbols l ++ treeSymbols r

/-- The depth of a tree (R28). -/
def treeDepth : Tree → Nat
  | .leaf _ => 0
  | .node l r => max (treeDepth l) (treeDepth r) + 1

/-- R28 (b): no symbol at two leaves. (a) and (c) hold by the types; (d) and (e) follow. -/
abbrev TreeOk (t : Tree) : Prop := (treeSymbols t).Nodup

/-- The queue of BUILD after `k` turns of the merge loop, or when the loop has ended before (R122). -/
def queueAfter : Nat → Nat → List Entry → List Entry
  | 0, _, q => q
  | k + 1, n, q =>
    match mergeOnce n q with
    | some q' => queueAfter k (n + 1) q'
    | none => q

/-- The subtree at the end of a path, left on 0 and right on 1 (R151, R171). -/
def subtreeAt : Tree → Bits → Option Tree
  | t, [] => some t
  | .leaf _, _ :: _ => none
  | .node l r, b :: p => subtreeAt (if b then r else l) p

/-- The outcome of the recursion `des()`: the subtree, or the error raised, with the bits left, `count` and `seen`. -/
inductive DesOutcome where
  | tree (t : Tree) (rest : Bits) (count : Nat) (seen : List Symbol)
  | raised (e : Error) (rest : Bits)
deriving DecidableEq, Repr

/-- A leaf's 9 ReadBits and checks in `des()` (R131), on a stream of bits followed by END. -/
def desLeaf (bs : Bits) (count : Nat) (seen : List Symbol) : DesOutcome :=
  if bs.length < 9 then .raised .truncLeaf []
  else
    let v := bitsValue (bs.take 9)
    if h : v < 257 then
      if (⟨v, h⟩ : Symbol) ∈ seen then .raised (.dupSymbol (BitVec.ofNat 9 v)) (bs.drop 9)
      else .tree (.leaf ⟨v, h⟩) (bs.drop 9) count (⟨v, h⟩ :: seen)
    else .raised (.badSymbol (BitVec.ofNat 9 v)) (bs.drop 9)

/-- The recursion `des()` of R131 as it is written, on a stream of bits followed by END. `fuel` bounds the nesting;
NODE_CAP bounds the nodes, so with more than NODE_CAP it never runs out (none). -/
def desRec : Nat → Bits → Nat → List Symbol → Option DesOutcome
  | 0, _, _, _ => none
  | fuel + 1, bs, count, seen =>
    match bs with
    | [] => some (.raised .truncDisc [])
    | d :: bs =>
      if count + 1 > Config.nodeCap then some (.raised .capacity bs)
      else if d then
        match desRec fuel bs (count + 1) seen with
        | some (.tree l bs count seen) =>
          match desRec fuel bs count seen with
          | some (.tree r bs count seen) => some (.tree (.node l r) bs count seen)
          | other => other
        | other => other
      else some (desLeaf bs (count + 1) seen)

/-- The symbols of the left subtrees a traversal stack holds. -/
def stackSymbols : List Frame → List Symbol
  | [] => []
  | .awaitLeft :: k => stackSymbols k
  | .awaitRight l :: k => treeSymbols l ++ stackSymbols k

/-- The nodes a traversal stack accounts for: each pending node and the nodes of its left subtree. -/
def stackNodes : List Frame → Nat
  | [] => 0
  | .awaitLeft :: k => stackNodes k + 1
  | .awaitRight l :: k => treeNodes l + 1 + stackNodes k

/-- The transient state of DESER is one its own ReadBits lead to (R131, R43). -/
structure Des.Ok (d : Des) : Prop where
  seen_nodup : d.seen.Nodup
  seen_stack : d.seen.Perm (stackSymbols d.stack)
  count_stack : d.count = stackNodes d.stack + (if d.payload.isSome then 1 else 0)
  count_le : d.count ≤ Config.nodeCap
  payload_lt : ∀ p, d.payload = some p → p.length < 9

/-- The error registers as a raise of code `code`, sub-cause `sub` and info `info` leaves them while executing the word
`w` (R202); everything else as it was. -/
def State.withError (s : State) (w : Word16) (code sub : BitVec 4) (info : BitVec 9) : State :=
  { s with error := ⟨true, code, sub, w, info, s.error.dropped⟩ }

/-- The bits `taken` are gone from the front of BIT_IN, `rest` is left, and IN_BITS counted them (R61, R39). -/
def State.afterReading (s : State) (taken rest : Bits) : State :=
  { s with
    ports := { s.ports with bitIn := rest }
    counters := { s.counters with inBits := s.counters.inBits + BitVec.ofNat 32 taken.length } }

/-- The bits `out` are appended to BIT_OUT and counted in OUT_BITS (R62, R39). -/
def State.afterWriting (s : State) (out : Bits) : State :=
  { s with
    ports := { s.ports with
      bitOut := s.ports.bitOut ++ out, bitRoom := s.ports.bitRoom.map fun r => r - out.length }
    counters := { s.counters with outBits := s.counters.outBits + BitVec.ofNat 32 out.length } }

/-- The host accepts `n` elements on a port with this room (R64). -/
def roomFor (room : Option Nat) (n : Nat) : Prop := ∀ r, room = some r → n ≤ r

/-- The parameters are in their range (R8). -/
abbrev ParamsOk (s : State) : Prop := Config.countWidthOk s.params.countWidth

/-- R23 to R25: counts fit COUNT_WIDTH, the pseudo-EOF entry is there exactly when the table is final, and saturation
leaves its count at the maximum. -/
structure FreqOk (s : State) : Prop where
  le_max : ∀ sym : Symbol, s.freq.count[sym.val] ≤ maxCount s.params.countWidth
  eof_entry : s.freq.count[256] = if s.freq.final then 1 else 0
  saturated : s.freq.sat = true → ∃ sym : Symbol, s.freq.count[sym.val] = maxCount s.params.countWidth

/-- R26 to R28: a tree has distinct leaf symbols, TREE_SRC is 0 without a tree, a built tree has a leaf for 256. -/
structure TreeRegOk (s : State) : Prop where
  distinct : ∀ t, s.tree.value = some t → TreeOk t
  src_none : s.tree.value = none → s.tree.src = false
  built_eof : ∀ t, s.tree.value = some t → s.tree.src = false → Config.eofSym ∈ treeSymbols t

/-- R29 to R31: the code file is the table of the current tree while CODES_VALID = 1, else empty, and ENC_DONE is set only
after the pseudo-EOF code was appended. -/
structure CodesOk (s : State) : Prop where
  of_tree : s.codes.valid = true → ∃ t, s.tree.value = some t ∧ s.codes.code = codeTable t
  empty : s.codes.valid = false → s.codes.code = Vector.replicate 257 none
  finished : s.codes.encDone = true → s.codes.valid = true ∧ codeOf s Config.eofSym ≠ none

/-- R32, R33: DEC_DONE goes with KIND 2 or 3, and without a tree the decoder is at its reset values. -/
structure DecOk (s : State) : Prop where
  done_kind : s.dec.done = true ↔ s.dec.result = .eof ∨ s.dec.result = .exhausted
  no_tree : s.tree.value = none → s.dec = ⟨false, .none⟩

/-- R35 to R38: ERR = 1 iff ERR_CODE is not 0; without an error the error registers are 0; nothing was dropped. -/
structure ErrOk (s : State) : Prop where
  err_code : s.error.err = true ↔ s.error.code ≠ 0
  clean : s.error.err = false → s.error = ⟨false, 0, 0, 0, 0, false⟩

/-- What a held command's transient state has to do with the machine it waits in (R43, R64). -/
def Wait.Ok (s : State) : Wait → Prop
  | .des d => s.tree = ⟨none, false⟩ ∧ s.dec = ⟨false, .none⟩ ∧ s.codes.valid = false ∧ d.Ok
  | .walk k => s.dec.done = false ∧ ∃ t p, s.tree.value = some t ∧ subtreeAt t p = some (.node k.left k.right)
  | .bits _ finish =>
    finish = true → s.codes.valid = true ∧ s.codes.encDone = false ∧ codeOf s Config.eofSym ≠ none
  | .byte _ => s.dec.done = false ∧ s.tree.value ≠ none

/-- A command is held only while no error is latched (R201, R207). -/
def HeldOk (s : State) : Prop := ∀ f, s.inflight = some f → s.error.err = false ∧ f.wait.Ok s

/-- The invariant of the machine. -/
structure State.Inv (s : State) : Prop where
  params : ParamsOk s
  freq : FreqOk s
  tree : TreeRegOk s
  codes : CodesOk s
  dec : DecOk s
  error : ErrOk s
  held : HeldOk s

end Sys2Proof.Machine
end

