-- ==== Sys2Proof/Certificates/Slice0/Obligations.lean ====
section
/-!
DEFINITION. The statements for the provers. Each says which rule of spec/ it formalises. A held command (20_memory.md
R64) is one that waits on a stream; `inflight = none` says that the block is idle.
-/

open Sys2Proof Sys2Proof.Machine

/-! ### Encoding -/

/-- Words written out from the table of R92, one for each command, and one word for each sub-cause of R93. A sanity
statement. -/
def Obligations.DecodesSampleWords : Prop :=
  decode 0b0000000000000000 = .legal .nop ∧ decode 0b0001000000000000 = .legal .clear ∧
  decode 0b0010000001000001 = .legal (.facc 65) ∧ decode 0b0011000000000000 = .legal .ffin ∧
  decode 0b0100000000000000 = .legal .build ∧ decode 0b0101000000000000 = .legal .deser ∧
  decode 0b0110000000000000 = .legal .ser ∧ decode 0b0111000000000000 = .legal .cgen ∧
  decode 0b1000000011111110 = .legal (.enc 254) ∧ decode 0b1001000000000000 = .legal .eeof ∧
  decode 0b1010000000000000 = .legal .dec ∧ decode 0b1011000000000000 = .illegal .reservedOp ∧
  decode 0b0010000100000000 = .illegal .rsvNonzero ∧ decode 0b0011000000000001 = .illegal .argNonzero

/-- R90, R92, R97: decoding the word of an instruction gives the instruction, with every operand, and a word that
decodes to an instruction is the instruction's word. -/
def Obligations.DecodeInvertsEncode : Prop :=
  (∀ i : Instr, i.wellFormed = true → decode (encode i) = .legal i ∧ decodeTableWord 16 (encode i).toNat = some i) ∧
  ∀ (w : Word16) (i : Instr), decode w = .legal i → w = encode i

/-- R93: a word is legal iff it matches exactly one row of R92; every other word, when the block is not in error,
raises ILLEGAL_COMMAND with the sub-cause R93 gives and changes no state but the error registers. -/
def Obligations.LegalAndIllegalWords : Prop :=
  ∀ w : Word16,
    ((∃ i, decode w = .legal i) ↔
      ∃ m : Mnemonic, w &&& m.maskWord = m.matchWord ∧ ∀ m' : Mnemonic, w &&& m'.maskWord = m'.matchWord → m' = m) ∧
    ∀ (s : State) (rest : List Word16),
      s.inflight = none → s.error.err = false → s.ports.cmd = w :: rest →
      ((w.extractLsb' 12 4).toNat ≥ 0xB → step s = .next ((acceptCommand rest s).withError w 4 1 0)) ∧
      ((w.extractLsb' 12 4).toNat ≤ 0xA → w.extractLsb' 8 4 ≠ 0 →
        step s = .next ((acceptCommand rest s).withError w 4 2 0)) ∧
      ((w.extractLsb' 12 4).toNat ∈ [0x0, 0x1, 0x3, 0x4, 0x5, 0x6, 0x7, 0x9, 0xA] → w.extractLsb' 8 4 = 0 →
        w.extractLsb' 0 8 ≠ 0 → step s = .next ((acceptCommand rest s).withError w 4 3 0))

/-- R95: a source line is encoded iff it is well formed, and then it is the source line of its instruction: no operand
is lost and none out of range is cut down. -/
def Obligations.AssemblyKeepsOperand : Prop :=
  ∀ (l : Source) (i : Instr), Source.instr? l = some i ↔ l.wellFormed = true ∧ i.source = l

/-! ### The step -/

/-- R201, R250: an idle block whose next word decodes to a command runs that command on the state without the word; a
block with a held command goes on with it and accepts nothing; an idle block with nothing on CMD stays. -/
def Obligations.StepRunsDecodedCommand : Prop :=
  (∀ (s : State) (w : Word16) (rest : List Word16) (i : Instr),
    s.inflight = none → s.ports.cmd = w :: rest → decode w = .legal i →
    step s = exec i { s with ports := { s.ports with cmd := rest } }) ∧
  (∀ (s : State) (f : InFlight), s.inflight = some f → step s = .next (resume f s)) ∧
  ∀ s : State, s.inflight = none → s.ports.cmd = [] → step s = .next s

/-- The invariant of the machine holds right after reset. -/
def Obligations.InvariantAtReset : Prop := State.reset.Inv

/-- Every step keeps the invariant of the machine (R24, R27, R28, R30 to R33, R35, R207). -/
def Obligations.StepKeepsInvariant : Prop :=
  ∀ s t : State, s.Inv → step s = .next t → t.Inv

/-- Every host move keeps the invariant. That offering a command is a move while BUSY = 1 too (R250, against U11 and
D37), and what opening a stream does to unread bits, are the MODEL'S CHOICES (log entry 8). -/
def Obligations.HostMovesKeepInvariant : Prop :=
  ∀ s : State, s.Inv →
    (∀ w, (hostIssue w s).Inv) ∧ (∀ t, hostOpen s = some t → t.Inv) ∧ (∀ bs t, hostSupply bs s = some t → t.Inv) ∧
    (hostClose s).Inv ∧ (∀ r, (hostBitRoom r s).Inv) ∧ (∀ r, (hostByteRoom r s).Inv) ∧
    (∀ a, (hostRead a s).2.Inv) ∧ (hardReset s).Inv

/-- R10: an error is not a separate outcome. From a state that meets the invariant no step stops. BUILD (the model's
own stop, log entry 6) stops only when the table is final and every count is 0, which R24 rules out. -/
def Obligations.StepNeverStops : Prop :=
  (∀ s : State, s.Inv → ∃ t, step s = .next t) ∧
  ∀ s : State, (∃ f, exec .build s = .fault f) ↔
    s.error.err = false ∧ s.freq.final = true ∧ ∀ sym : Symbol, s.freq.count[sym.val] = 0

/-! ### Errors -/

/-- R202: what `raise` does, in one step, and nothing else: the error registers, and the command ends. The codes,
sub-causes and infos are those of R200. -/
def Obligations.RaiseLatchesError : Prop :=
  (∀ (w : Word16) (e : Error) (s : State),
    raise w e s = { s with
      error := { err := true, code := e.code, sub := e.sub, cmd := w, info := e.info, dropped := s.error.dropped }
      inflight := none }) ∧
  ∀ v : BitVec 9,
    (Error.truncDisc.code, Error.truncDisc.sub, Error.truncDisc.info) = (1, 1, 0) ∧
    (Error.truncLeaf.code, Error.truncLeaf.sub, Error.truncLeaf.info) = (1, 2, 0) ∧
    ((Error.badSymbol v).code, (Error.badSymbol v).sub, (Error.badSymbol v).info) = (1, 3, v) ∧
    ((Error.dupSymbol v).code, (Error.dupSymbol v).sub, (Error.dupSymbol v).info) = (1, 4, v) ∧
    (Error.capacity.code, Error.capacity.sub, Error.capacity.info) = (1, 5, 0) ∧
    ((Error.degenerate v).code, (Error.degenerate v).sub, (Error.degenerate v).info) = (1, 6, v) ∧
    (Error.truncatedStream.code, Error.truncatedStream.sub, Error.truncatedStream.info) = (2, 0, 0) ∧
    ((Error.missingCode v).code, (Error.missingCode v).sub, (Error.missingCode v).info) = (3, 0, v) ∧
    ((Error.illegalCommand .reservedOp).code, (Error.illegalCommand .reservedOp).sub) = (4, 1) ∧
    ((Error.illegalCommand .rsvNonzero).code, (Error.illegalCommand .rsvNonzero).sub) = (4, 2) ∧
    ((Error.illegalCommand .argNonzero).code, (Error.illegalCommand .argNonzero).sub) = (4, 3) ∧
    (∀ c, (Error.illegalCommand c).info = 0) ∧
    (Error.freqFinalized.code, Error.freqFinalized.sub, Error.freqFinalized.info) = (5, 1, 0) ∧
    (Error.freqNotFinal.code, Error.freqNotFinal.sub, Error.freqNotFinal.info) = (5, 2, 0) ∧
    (Error.noTree.code, Error.noTree.sub, Error.noTree.info) = (5, 3, 0) ∧
    (Error.noCodes.code, Error.noCodes.sub, Error.noCodes.info) = (5, 4, 0) ∧
    (Error.encFinished.code, Error.encFinished.sub, Error.encFinished.info) = (5, 5, 0) ∧
    (Error.decFinished.code, Error.decFinished.sub, Error.decFinished.info) = (5, 6, 0)

/-- R203: while ERR = 1 every word other than exactly 0x0000 and 0x1000, legal or not, is dropped: nothing changes but
CMD_DROPPED (and the word is gone from CMD). -/
def Obligations.ErrorStateDropsCommands : Prop :=
  ∀ (s : State) (w : Word16) (rest : List Word16),
    s.inflight = none → s.error.err = true → s.ports.cmd = w :: rest → w ≠ 0x0000 → w ≠ 0x1000 →
    step s = .next { s with
      error := { s.error with dropped := true }
      ports := { s.ports with cmd := rest } }

/-- R206, R207: from ERR = 1 a step leaves the latched error as it is, but for CMD_DROPPED, unless it accepts the word
0x1000 (CLEAR), which leaves no error. -/
def Obligations.OnlyClearLeavesErrorState : Prop :=
  ∀ s t : State, s.Inv → s.error.err = true → step s = .next t →
    (s.ports.cmd.head? = some 0x1000 → t.error = ⟨false, 0, 0, 0, 0, false⟩) ∧
    (s.ports.cmd.head? ≠ some 0x1000 → t.error = { s.error with dropped := t.error.dropped })

/-- R216: the `require` checks, in their order, with sub-causes 1 to 6; nothing else changes. NOP, CLEAR, FFIN and
DESER never raise SEQUENCE (code 5). -/
def Obligations.SequenceChecks : Prop :=
  (∀ s : State, s.error.err = false → s.inflight = none →
    (∀ b, s.freq.final = true → exec (.facc b) s = .next (s.withError (0x2000 ||| b.setWidth 16) 5 1 0)) ∧
    (s.freq.final = false → exec .build s = .next (s.withError 0x4000 5 2 0)) ∧
    (s.tree.value = none → exec .ser s = .next (s.withError 0x6000 5 3 0)) ∧
    (s.tree.value = none → exec .cgen s = .next (s.withError 0x7000 5 3 0)) ∧
    (s.tree.value = none → exec .dec s = .next (s.withError 0xA000 5 3 0)) ∧
    (∀ b, s.codes.valid = false → exec (.enc b) s = .next (s.withError (0x8000 ||| b.setWidth 16) 5 4 0)) ∧
    (s.codes.valid = false → exec .eeof s = .next (s.withError 0x9000 5 4 0)) ∧
    (∀ b, s.codes.valid = true → s.codes.encDone = true →
      exec (.enc b) s = .next (s.withError (0x8000 ||| b.setWidth 16) 5 5 0)) ∧
    (s.codes.valid = true → s.codes.encDone = true → exec .eeof s = .next (s.withError 0x9000 5 5 0)) ∧
    (s.tree.value ≠ none → s.dec.done = true → exec .dec s = .next (s.withError 0xA000 5 6 0))) ∧
  ∀ (i : Instr) (s t : State), i = .nop ∨ i = .clear ∨ i = .ffin ∨ i = .deser → s.error.code ≠ 5 →
    exec i s = .next t → t.error.code ≠ 5

/-- R205: the effects of a faulting command that stay after its raise, for every word the block accepts while not in
error. Only DESER (0x5000) and a TRUNCATED_STREAM of DEC (0xA000) leave any. -/
def Obligations.EffectsOfFaultingCommand : Prop :=
  ∀ (s t : State) (w : Word16) (rest : List Word16),
    s.inflight = none → s.error.err = false → s.ports.cmd = w :: rest → step s = .next t → t.error.err = true →
    t.error.cmd = w ∧ t.error.dropped = s.error.dropped ∧
    ((w ≠ 0x5000 ∧ t.error.code ≠ 2 ∧ t = { s with error := t.error, ports := { s.ports with cmd := rest } }) ∨
     (w = 0x5000 ∧ t.error.code = 1 ∧ ∃ taken left, s.ports.bitIn = taken ++ left ∧
       t = { (acceptCommand rest s).afterReading taken left with
         error := t.error, tree := ⟨none, false⟩
         codes := ⟨Vector.replicate 257 none, false, false⟩, dec := ⟨false, .none⟩ }) ∨
     (w = 0xA000 ∧ t.error.code = 2 ∧ ∃ taken left, s.ports.bitIn = taken ++ left ∧ taken ≠ [] ∧
       t = { (acceptCommand rest s).afterReading taken left with error := t.error }))

/-- What any command but CLEAR does to the error registers (R202, R203): nothing; or, from ERR = 1, CMD_DROPPED only;
or, from ERR = 0, a raise that names its word. -/
def Obligations.ErrorRegistersFrame : Prop :=
  ∀ (i : Instr) (s t : State), i ≠ .clear → exec i s = .next t →
    t.error = s.error ∨
    (s.error.err = true ∧ t.error = { s.error with dropped := true }) ∨
    (s.error.err = false ∧ t.error.err = true ∧ t.error.code ≠ 0 ∧ t.error.cmd = encode i ∧
      t.error.dropped = s.error.dropped)

/-! ### Reset, NOP, CLEAR -/

/-- R44, R241: hardware reset, whatever the block was doing, leaves every piece of state at its reset value, leaves
MAGIC and COUNT_WIDTH, BIT_IN, BIT_OUT and BYTE_OUT as they are, and the block idle; CLEAR has exactly that effect on the block's state. -/
def Obligations.ResetValues : Prop :=
  (State.reset.params = ⟨1846, 32⟩ ∧ State.reset.inflight = none) ∧
  ∀ s : State,
    (∀ sym : Symbol, (hardReset s).freq.count[sym.val] = 0 ∧ (hardReset s).codes.code[sym.val] = none) ∧
    (hardReset s).freq.final = false ∧ (hardReset s).freq.sat = false ∧
    (hardReset s).tree.value = none ∧ (hardReset s).tree.src = false ∧
    (hardReset s).codes.valid = false ∧ (hardReset s).codes.encDone = false ∧
    (hardReset s).dec.done = false ∧ (hardReset s).dec.result.word = 0 ∧
    (hardReset s).error = ⟨false, 0, 0, 0, 0, false⟩ ∧
    (hardReset s).counters = ⟨0, 0, 0⟩ ∧
    (hardReset s).status = 0 ∧ (hardReset s).busy = false ∧
    (hardReset s).params = s.params ∧
    (hardReset s).ports.bitIn = s.ports.bitIn ∧ (hardReset s).ports.bitInEnd = s.ports.bitInEnd ∧
    (hardReset s).ports.bitOut = s.ports.bitOut ∧ (hardReset s).ports.byteOut = s.ports.byteOut ∧
    ∃ t, exec .clear s = .next t ∧ { t with ports := s.ports } = { hardReset s with ports := s.ports }

/-- R180: NOP is exactly the word 0x0000 (any other word of OP 0 is illegal), and changes nothing, in the error state
too. -/
def Obligations.NopChangesNothing : Prop :=
  encode .nop = 0x0000 ∧ (∀ w : Word16, decode w = .legal .nop ↔ w = 0x0000) ∧
  (∀ w : Word16, w.extractLsb' 12 4 = 0 → w ≠ 0x0000 → ∃ c, decode w = .illegal c) ∧
  ∀ s : State, exec .nop s = .next s

/-- R181, R241: CLEAR, accepted in the error state too, has the effect of hardware reset; BIT_IN, BIT_OUT and BYTE_OUT
are not touched. The MODEL'S CHOICE (log entry 12, DEDUCED, no rule of the spec): the words that wait on CMD and the
room of the output ports stay too, so that all the ports are as they were. -/
def Obligations.ClearIsReset : Prop :=
  ∀ s : State, exec .clear s = .next (hardReset s) ∧ (hardReset s).ports = s.ports ∧
    (hardReset s).errorWord = 0 ∧ (hardReset s).status = 0

/-! ### FACC and FFIN -/

/-- R110: FACC counts one byte, saturating at 2^COUNT_WIDTH - 1, and changes nothing else; after FFIN it raises
SEQUENCE 1; a byte once seen never becomes absent. -/
def Obligations.FaccCounts : Prop :=
  (∀ b : Byte, encode (.facc b) = 0x2000 ||| b.setWidth 16) ∧
  ∀ (s : State) (b : Byte), ParamsOk s → s.error.err = false →
    (s.freq.final = true → s.inflight = none →
      exec (.facc b) s = .next (s.withError (0x2000 ||| b.setWidth 16) 5 1 0)) ∧
    (s.freq.final = false →
      ((s.freq.count[(literal b).val]).toNat = 2 ^ s.params.countWidth - 1 →
        exec (.facc b) s = .next { s with freq := { s.freq with sat := true } }) ∧
      ((s.freq.count[(literal b).val]).toNat ≠ 2 ^ s.params.countWidth - 1 →
        exec (.facc b) s = .next { s with
          freq := { s.freq with
            count := s.freq.count.set (literal b).val (s.freq.count[(literal b).val] + 1) } })) ∧
    (FreqOk s → ∀ t, exec (.facc b) s = .next t → ∀ sym : Symbol, s.freq.count[sym.val] ≠ 0 →
      t.freq.count[sym.val] ≠ 0)

/-- R111: the first FFIN inserts the pseudo-EOF symbol with count 1 and finalizes the table; a second FFIN changes
nothing; it never raises. -/
def Obligations.FfinInsertsPseudoEof : Prop :=
  encode .ffin = 0x3000 ∧
  ∀ s : State, s.error.err = false →
    (s.freq.final = true → exec .ffin s = .next s) ∧
    (s.freq.final = false → s.freq.count[256] = 0 →
      exec .ffin s = .next { s with
        freq := { s.freq with count := s.freq.count.set 256 1, final := true } }) ∧
    (s.freq.final = false → s.freq.count[256] ≠ 0 →
      exec .ffin s = .next { s with freq := { s.freq with final := true } }) ∧
    (s.Inv → s.freq.final = false → s.freq.count[256] = 0)

/-- R112: the table after reset or CLEAR, one FACC for each byte of any input, and FFIN. -/
def Obligations.AccumulationResult : Prop :=
  ∀ (s : State) (bs : List Byte), ParamsOk s →
    ∃ t, execAll (faccs bs ++ [.ffin]) (hardReset s) = .next t ∧
      (∀ b : Byte, (t.freq.count[(literal b).val]).toNat = min (bs.count b) (2 ^ s.params.countWidth - 1)) ∧
      t.freq.count[256] = 1 ∧ t.freq.final = true ∧
      (t.freq.sat = true ↔ ∃ b : Byte, bs.count b > 2 ^ s.params.countWidth - 1) ∧
      t = { hardReset s with freq := t.freq }

/-- What FACC and FFIN leave unchanged, on every path: everything but the frequency table, the error registers and the
held command a raise ends; no stream is touched. -/
def Obligations.CountingFrame : Prop :=
  ∀ (i : Instr) (s t : State), ((∃ b, i = .facc b) ∨ i = .ffin) → exec i s = .next t →
    (t.tree = s.tree ∧ t.codes = s.codes ∧ t.dec = s.dec ∧ t.counters = s.counters ∧ t.params = s.params ∧
      t.ports = s.ports ∧ t.draws = s.draws ∧ (s.inflight = none → t.inflight = none)) ∧
    (∀ sym : Symbol, (∀ b, i = .facc b → sym ≠ literal b) → (i = .ffin → sym ≠ 256) →
      t.freq.count[sym.val] = s.freq.count[sym.val]) ∧
    (i = .ffin → t.freq.sat = s.freq.sat) ∧ ((∃ b, i = .facc b) → t.freq.final = s.freq.final)

/-! ### BUILD -/

/-- R121: `extractMin` removes one entry, the least in weight and among equal weights the least in sequence number. -/
def Obligations.ExtractMinIsLeast : Prop :=
  (∀ q : List Entry, extractMin q = none ↔ q = []) ∧
  ∀ (q rest : List Entry) (m : Entry), extractMin q = some (m, rest) →
    q.Perm (m :: rest) ∧ ∀ e ∈ rest, m.weight < e.weight ∨ (m.weight = e.weight ∧ m.seq ≤ e.seq)

/-- R121, R122, R126: WHICH tree BUILD makes. The queue starts with one entry for each symbol with a non-zero count,
its weight the count and its sequence number the number of such symbols below it. One turn of the loop takes the two
least entries and puts in their place the node of both, the first extracted to the left, with the sum of the weights and
the next counter value `n`; it happens iff there are two entries. With k entries the loop makes exactly k - 1 turns and
ends with one entry, whose tree it returns; for BUILD the counter is then at the number of leaves, and no two entries
ever share a sequence number. The order of ties is the default the spec fixes (log entry 7). -/
def Obligations.MergeLoopEndsWithOneTree : Prop :=
  (∀ (count : Vector Word32 257) (e : Entry), e ∈ initialQueue count ↔
    ∃ sym : Symbol, count[sym.val] ≠ 0 ∧ e.weight = (count[sym.val]).toNat ∧ e.tree = .leaf sym ∧
      e.seq = ((List.finRange 257).filter fun x => x < sym ∧ count[x.val] ≠ 0).length) ∧
  (∀ (n : Nat) (q : List Entry),
    (∀ (a b : Entry) (q1 q2 : List Entry), extractMin q = some (a, q1) → extractMin q1 = some (b, q2) →
      ∃ q', mergeOnce n q = some q' ∧
        q'.Perm ({ weight := a.weight + b.weight, seq := n, tree := .node a.tree b.tree } :: q2)) ∧
    (mergeOnce n q = none ↔ q.length ≤ 1)) ∧
  (∀ (n : Nat) (q : List Entry), q ≠ [] →
    (∀ k, (queueAfter k n q).length = max (q.length - k) 1) ∧
    ∃ e, queueAfter (q.length - 1) n q = [e] ∧ mergeLoop q.length n q = some e.tree) ∧
  ∀ count : Vector Word32 257,
    (∀ k, ((queueAfter k (initialQueue count).length (initialQueue count)).map Entry.seq).Nodup) ∧
    (initialQueue count ≠ [] →
      ∃ e, queueAfter ((initialQueue count).length - 1) (initialQueue count).length (initialQueue count) = [e] ∧
        buildTree count = some e.tree)

/-- R125: no weight of the queue, at the start or after any number of merges, reaches 2^(COUNT_WIDTH + 9), and the
root's weight is the sum of all counts. -/
def Obligations.WeightsNeverOverflow : Prop :=
  ∀ s : State, ParamsOk s → FreqOk s → ∀ (k n : Nat),
    (∀ e ∈ queueAfter k n (initialQueue s.freq.count), e.weight < 2 ^ (s.params.countWidth + 9)) ∧
    ((queueAfter k n (initialQueue s.freq.count)).map Entry.weight).sum =
      ((presentSymbols s.freq.count).map fun sym => (s.freq.count[sym.val]).toNat).sum

/-- R126: the built tree has one leaf for each symbol with a non-zero count, 2L - 1 nodes and depth at most L - 1. -/
def Obligations.BuiltTreeLeaves : Prop :=
  ∀ (count : Vector Word32 257) (t : Tree), buildTree count = some t →
    (treeSymbols t).Perm (presentSymbols count) ∧ TreeOk t ∧
    treeLeaves t = (presentSymbols count).length ∧ treeNodes t = 2 * (presentSymbols count).length - 1 ∧
    treeDepth t ≤ (presentSymbols count).length - 1 ∧ (count[256] ≠ 0 → (256 : Symbol) ∈ treeSymbols t)

/-- R123: when exactly one symbol has a non-zero count the tree is its leaf; for the empty input, `Leaf(256)`. -/
def Obligations.DegenerateBuild : Prop :=
  (∀ (count : Vector Word32 257) (sym : Symbol),
    (∀ x : Symbol, count[x.val] ≠ 0 ↔ x = sym) → buildTree count = some (.leaf sym)) ∧
  ∀ s : State, s.error.err = false → s.freq.final = true → (∀ x : Symbol, s.freq.count[x.val] ≠ 0 ↔ x = 256) →
    exec .build s = .next { s with
      tree := ⟨some (.leaf 256), false⟩
      codes := ⟨Vector.replicate 257 none, false, false⟩, dec := ⟨false, .none⟩ }

/-- R120, R124: BUILD on a final table builds the tree and commits it: TREE_SRC is 0, the code table and the decoder of
the old tree are cleared, and nothing else changes. -/
def Obligations.BuildCommitsTree : Prop :=
  ∀ s : State, s.error.err = false → s.freq.final = true → (∃ sym : Symbol, s.freq.count[sym.val] ≠ 0) →
    ∃ t, buildTree s.freq.count = some t ∧
      exec .build s = .next { s with
        tree := ⟨some t, false⟩
        codes := ⟨Vector.replicate 257 none, false, false⟩
        dec := ⟨false, .none⟩ }

/-- What BUILD and CGEN leave unchanged, on every path: the frequency table, the counters, the parameters and every
stream; CGEN also the tree and the decoder. -/
def Obligations.TableMakingFrame : Prop :=
  ∀ (i : Instr) (s t : State), i = .build ∨ i = .cgen → exec i s = .next t →
    t.freq = s.freq ∧ t.counters = s.counters ∧ t.params = s.params ∧ t.ports = s.ports ∧ t.draws = s.draws ∧
    (s.inflight = none → t.inflight = none) ∧ (i = .cgen → t.tree = s.tree ∧ t.dec = s.dec)

/-! ### DESER and SER -/

/-- R143: DESER on the serialization of any tree of R28, followed by anything, gives back the tree, with no error,
having consumed exactly its bits; the old tree's tables are cleared and nothing else changes. -/
def Obligations.DeserInvertsSer : Prop :=
  ∀ (s : State) (t : Tree) (rest : Bits), s.error.err = false → TreeOk t → s.ports.bitIn = serTree t ++ rest →
    exec .deser s = .next { s.afterReading (serTree t) rest with
      tree := ⟨some t, true⟩
      codes := ⟨Vector.replicate 257 none, false, false⟩
      dec := ⟨false, .none⟩
      inflight := none }

/-- R133, R134: when DESER, idle before, ends with a tree, the tree meets R28 and the bits consumed are exactly its
serialization. -/
def Obligations.DeserConsumesOneTree : Prop :=
  ∀ (s s' : State) (t : Tree), s.error.err = false → exec .deser s = .next s' → s'.tree.value = some t →
    TreeOk t ∧ s'.tree.src = true ∧ s'.error = s.error ∧ s'.busy = false ∧
    s.ports.bitIn = serTree t ++ s'.ports.bitIn ∧
    s'.counters.inBits = s.counters.inBits + BitVec.ofNat 32 (serTree t).length

/-- R130 to R132: on a stream closed with END, DESER does what the recursion `des()` of R131 does: it returns the same
tree or raises the same error, with the same bits consumed. -/
def Obligations.DeserRefinesRecursion : Prop :=
  ∀ s : State, s.error.err = false → s.ports.bitInEnd = true →
    (∃ o, desRec 514 s.ports.bitIn 0 [] = some o) ∧
    (∀ t rest count seen, desRec 514 s.ports.bitIn 0 [] = some (.tree t rest count seen) →
      ∃ taken, s.ports.bitIn = taken ++ rest ∧
        exec .deser s = .next { s.afterReading taken rest with
          tree := ⟨some t, true⟩
          codes := ⟨Vector.replicate 257 none, false, false⟩, dec := ⟨false, .none⟩, inflight := none }) ∧
    (∀ e rest, desRec 514 s.ports.bitIn 0 [] = some (.raised e rest) →
      ∃ taken, s.ports.bitIn = taken ++ rest ∧
        exec .deser s = .next { (s.afterReading taken rest).withError 0x5000 e.code e.sub e.info with
          tree := ⟨none, false⟩
          codes := ⟨Vector.replicate 257 none, false, false⟩, dec := ⟨false, .none⟩, inflight := none })

/-- What DESER leaves unchanged, on every path: the frequency table, the parameters, OUT_BITS and OUT_BYTES, and of the
ports everything but BIT_IN, of which it takes bits from the front. -/
def Obligations.DeserFrame : Prop :=
  ∀ s t : State, exec .deser s = .next t →
    t.freq = s.freq ∧ t.params = s.params ∧ t.draws = s.draws ∧ t.counters.outBits = s.counters.outBits ∧
    t.counters.outBytes = s.counters.outBytes ∧ t.ports = { s.ports with bitIn := t.ports.bitIn } ∧
    ∃ taken, s.ports.bitIn = taken ++ t.ports.bitIn

/-- R140, R141: SER writes the serialization of the current tree and changes nothing but OUT_BITS. -/
def Obligations.SerWritesTree : Prop :=
  ∀ (s : State) (t : Tree), s.error.err = false → s.tree.value = some t →
    roomFor s.ports.bitRoom (serTree t).length →
    exec .ser s = .next { s.afterWriting (serTree t) with inflight := none }

/-- R142: the serialization of a tree with L leaves has 2L - 1 discriminators, one per node, and 9L payload bits,
11L - 1 bits in all. -/
def Obligations.SerializationLength : Prop :=
  ∀ t : Tree, treeNodes t = 2 * treeLeaves t - 1 ∧
    (serTree t).length = (2 * treeLeaves t - 1) + 9 * treeLeaves t ∧ (serTree t).length = 11 * treeLeaves t - 1

/-! ### CGEN -/

/-- R150: CGEN makes the code table of the current tree valid, lets a new encode start, and changes nothing else. -/
def Obligations.CgenMakesTable : Prop :=
  ∀ (s : State) (t : Tree), s.error.err = false → s.tree.value = some t →
    exec .cgen s = .next { s with codes := ⟨codeTable t, true, false⟩ }

/-- R151: the code of a symbol is the path to its leaf, left 0 and right 1. -/
def Obligations.CodesArePaths : Prop :=
  ∀ t : Tree, TreeOk t → ∀ (sym : Symbol) (c : Bits),
    (codeTable t)[sym.val] = some c ↔ subtreeAt t c = some (.leaf sym)

/-- R28, R152: a code is no longer than the tree is deep, the tree no deeper than L - 1, and L at most 257. -/
def Obligations.CodeLengthBound : Prop :=
  ∀ t : Tree, TreeOk t →
    treeDepth t ≤ treeLeaves t - 1 ∧ treeLeaves t ≤ 257 ∧ treeNodes t ≤ 513 ∧
    ∀ (sym : Symbol) (c : Bits), (codeTable t)[sym.val] = some c → c.length ≤ treeDepth t ∧ c.length ≤ 256

/-- R153: exactly one entry for each leaf symbol; no code is a prefix of another; a tree of two or more leaves has no
empty code; the degenerate tree has one entry, the empty code. -/
def Obligations.PrefixCode : Prop :=
  (∀ t : Tree, TreeOk t →
    (∀ sym : Symbol, (codeTable t)[sym.val] ≠ none ↔ sym ∈ treeSymbols t) ∧
    (∀ (a b : Symbol) (ca cb : Bits), (codeTable t)[a.val] = some ca → (codeTable t)[b.val] = some cb → a ≠ b →
      ¬ ca <+: cb) ∧
    (2 ≤ treeLeaves t → ∀ (sym : Symbol) (c : Bits), (codeTable t)[sym.val] = some c → 1 ≤ c.length)) ∧
  ∀ sym x : Symbol, (codeTable (.leaf sym))[x.val] = if x = sym then some [] else none

/-! ### ENC and EEOF -/

/-- R160: ENC appends the code of its byte; a byte without a code raises MISSING_CODE and writes nothing. That the
empty code of a deserialized root leaf `Leaf(b)` is a code, and ENC b writes its zero bits, is the MODEL'S CHOICE (log
entry 13): the pseudocode of R160 with R153, against the corner case of R160. -/
def Obligations.EncAppendsCode : Prop :=
  ∀ (s : State) (b : Byte), s.error.err = false → s.codes.valid = true → s.codes.encDone = false →
    (∀ c, codeOf s (literal b) = some c → roomFor s.ports.bitRoom c.length →
      exec (.enc b) s = .next { s.afterWriting c with inflight := none }) ∧
    (codeOf s (literal b) = none → s.inflight = none →
      exec (.enc b) s = .next (s.withError (0x8000 ||| b.setWidth 16) 3 0 (b.setWidth 9)))

/-- R161: EEOF appends the pseudo-EOF code and finishes the encoder; without one it raises MISSING_CODE with info 256
and writes nothing. -/
def Obligations.EeofAppendsAndFinishes : Prop :=
  ∀ s : State, s.error.err = false → s.codes.valid = true → s.codes.encDone = false →
    (∀ c, codeOf s 256 = some c → roomFor s.ports.bitRoom c.length →
      exec .eeof s = .next { s.afterWriting c with codes := { s.codes with encDone := true }, inflight := none }) ∧
    (codeOf s 256 = none → s.inflight = none → exec .eeof s = .next (s.withError 0x9000 3 0 256))

/-- R162: the bits of `ENC b1; ...; ENC bn; EEOF` with no error are exactly the codes in order and the pseudo-EOF
code; and there is no error when every byte has a code (an empty code, of a deserialized root leaf, counts as one: the
MODEL'S CHOICE, log entry 13). -/
def Obligations.PayloadIsConcatenation : Prop :=
  ∀ (s : State) (bs : List Byte), s.inflight = none → s.error.err = false → s.codes.valid = true →
    s.codes.encDone = false → s.ports.bitRoom = none →
    (∀ t, execAll (encs bs ++ [.eeof]) s = .next t → t.error.err = false →
      t.ports.bitOut = s.ports.bitOut ++ bs.flatMap (fun b => (codeOf s (literal b)).getD []) ++
        (codeOf s 256).getD [] ∧ t.codes.encDone = true) ∧
    ((∀ b ∈ bs, codeOf s (literal b) ≠ none) → codeOf s 256 ≠ none →
      ∃ t, execAll (encs bs ++ [.eeof]) s = .next t ∧ t.error = s.error)

/-- What SER, ENC and EEOF leave unchanged, on every path: the frequency table, the tree, the decoder, the parameters,
the codes (EEOF may set ENC_DONE), IN_BITS and OUT_BYTES, and of the ports everything but BIT_OUT, to which they
append. -/
def Obligations.WritingFrame : Prop :=
  ∀ (i : Instr) (s t : State), (i = .ser ∨ (∃ b, i = .enc b) ∨ i = .eeof) → exec i s = .next t →
    t.freq = s.freq ∧ t.tree = s.tree ∧ t.dec = s.dec ∧ t.params = s.params ∧ t.draws = s.draws ∧
    t.codes = { s.codes with encDone := t.codes.encDone } ∧ (i ≠ .eeof → t.codes = s.codes) ∧
    t.counters.inBits = s.counters.inBits ∧ t.counters.outBytes = s.counters.outBytes ∧
    t.ports = { s.ports with bitOut := t.ports.bitOut, bitRoom := t.ports.bitRoom } ∧
    ∃ out, t.ports.bitOut = s.ports.bitOut ++ out

/-! ### DEC -/

/-- R170, R171, R173, R174: DEC when the bits on BIT_IN begin with a path to a leaf. The path is consumed and no bit
after it. At the leaf of 256 decoding ends (EOF); any other symbol is written to BYTE_OUT. A root leaf reads no bit:
256 is EOF, any other symbol raises MALFORMED_TREE 6. -/
def Obligations.DecDecodesOneCode : Prop :=
  ∀ (s : State) (t : Tree) (p rest : Bits) (sym : Symbol),
    s.error.err = false → s.inflight = none → s.tree.value = some t → s.dec.done = false →
    subtreeAt t p = some (.leaf sym) → s.ports.bitIn = p ++ rest →
    (sym = 256 → exec .dec s = .next { s.afterReading p rest with dec := ⟨true, .eof⟩ }) ∧
    (sym ≠ 256 → p = [] → exec .dec s = .next (s.withError 0xA000 1 6 (BitVec.ofNat 9 sym.val))) ∧
    (sym ≠ 256 → p ≠ [] → roomFor s.ports.byteRoom 1 →
      exec .dec s = .next { s.afterReading p rest with
        dec := ⟨false, .byte (BitVec.ofNat 8 sym.val)⟩
        ports := { s.ports with
          bitIn := rest, byteOut := s.ports.byteOut ++ [BitVec.ofNat 8 sym.val]
          byteRoom := s.ports.byteRoom.map fun r => r - 1 }
        counters := { s.counters with
          inBits := s.counters.inBits + BitVec.ofNat 32 p.length, outBytes := s.counters.outBytes + 1 } })

/-- R171, R172, R64: DEC when all the bits on BIT_IN lead to an internal node. At END with no bit read it is
EXHAUSTED, no error; at END mid-descent TRUNCATED_STREAM, with the bits consumed, no byte written and DEC_RESULT as it
was; with neither a bit nor END it waits at that node. -/
def Obligations.DecAtEndOfBits : Prop :=
  ∀ (s : State) (t l r : Tree) (p : Bits),
    s.error.err = false → s.inflight = none → s.tree.value = some t → s.dec.done = false →
    subtreeAt t p = some (.node l r) → s.ports.bitIn = p →
    (s.ports.bitInEnd = true → p = [] → exec .dec s = .next { s with dec := ⟨true, .exhausted⟩ }) ∧
    (s.ports.bitInEnd = true → p ≠ [] → exec .dec s = .next ((s.afterReading p []).withError 0xA000 2 0 0)) ∧
    (s.ports.bitInEnd = false → exec .dec s = .next { s.afterReading p [] with
      inflight := some ⟨0xA000, .walk ⟨decide (p = []), l, r⟩⟩ })

/-- R171: the two statements before this one leave no input out: any bits begin with the path of a leaf or are the
path of an internal node. And a DEC reads at most depth(TREE) bits. -/
def Obligations.DecReadsAtMostDepth : Prop :=
  (∀ (t : Tree) (bits : Bits),
    (∃ p rest sym, bits = p ++ rest ∧ subtreeAt t p = some (.leaf sym)) ∨
    ∃ l r, subtreeAt t bits = some (.node l r)) ∧
  ∀ (s s' : State) (t : Tree), s.tree.value = some t → exec .dec s = .next s' →
    ∃ taken, s.ports.bitIn = taken ++ s'.ports.bitIn ∧ taken.length ≤ treeDepth t

/-- R175: with BIT_IN holding the codes of any bytes, the pseudo-EOF code and any padding, the host's DEC loop writes
exactly the bytes and ends at EOF after n + 1 DEC commands and not before; the padding stays unread. -/
def Obligations.DecodesPayload : Prop :=
  ∀ (s : State) (t : Tree) (bs : List Byte) (pad : Bits),
    s.inflight = none → s.error.err = false → s.dec.done = false → s.ports.byteRoom = none →
    s.tree.value = some t → TreeOk t → (∀ b ∈ bs, literal b ∈ treeSymbols t) → (256 : Symbol) ∈ treeSymbols t →
    s.ports.bitIn = bs.flatMap (fun b => ((codeTable t)[(literal b).val]).getD []) ++
      ((codeTable t)[256]).getD [] ++ pad →
    (∃ u, decodeLoop bs.length s = .next u ∧ u.dec.done = false) ∧
    ∃ u, decodeLoop (bs.length + 1) s = .next u ∧ u.ports.byteOut = s.ports.byteOut ++ bs ∧
      u.dec = ⟨true, .eof⟩ ∧ u.error = s.error ∧ u.ports.bitIn = pad

/-- What DEC leaves unchanged, on every path: the frequency table, the tree, the codes, the parameters, OUT_BITS, and
of the ports everything but BIT_IN, of which it takes bits from the front, and BYTE_OUT, to which it appends. -/
def Obligations.DecFrame : Prop :=
  ∀ s t : State, exec .dec s = .next t →
    t.freq = s.freq ∧ t.tree = s.tree ∧ t.codes = s.codes ∧ t.params = s.params ∧ t.draws = s.draws ∧
    t.counters.outBits = s.counters.outBits ∧
    t.ports = { s.ports with
      bitIn := t.ports.bitIn, byteOut := t.ports.byteOut, byteRoom := t.ports.byteRoom } ∧
    (∃ taken, s.ports.bitIn = taken ++ t.ports.bitIn) ∧ ∃ out, t.ports.byteOut = s.ports.byteOut ++ out

/-! ### Holds and streams -/

/-- R39, R61 to R63: over any step, held commands among them, BIT_IN loses bits only from its front, BIT_OUT and
BYTE_OUT only grow at their end, and the counters count exactly those elements modulo 2^32 (CLEAR, which touches no
stream, sets them to 0). R250: a step accepts at most one word of CMD, the first, and only while BUSY = 0. -/
def Obligations.CountersCountTransfers : Prop :=
  ∀ s t : State, step s = .next t →
    ∃ taken out bytes, s.ports.bitIn = taken ++ t.ports.bitIn ∧ t.ports.bitOut = s.ports.bitOut ++ out ∧
      t.ports.byteOut = s.ports.byteOut ++ bytes ∧ t.ports.bitInEnd = s.ports.bitInEnd ∧
      t.ports.cmd = (if s.busy then s.ports.cmd else s.ports.cmd.tail) ∧
      ((t.counters.inBits = s.counters.inBits + BitVec.ofNat 32 taken.length ∧
        t.counters.outBits = s.counters.outBits + BitVec.ofNat 32 out.length ∧
        t.counters.outBytes = s.counters.outBytes + BitVec.ofNat 32 bytes.length) ∨
       (s.busy = false ∧ s.ports.cmd.head? = some 0x1000 ∧ taken = [] ∧ out = [] ∧ bytes = [] ∧
        t.counters = ⟨0, 0, 0⟩))

/-- R64: a command that waits keeps BUSY = 1 and no state changes until the host acts: any step that leaves the block
busy is followed by steps that change nothing. -/
def Obligations.HeldCommandWaits : Prop :=
  ∀ s t : State, step s = .next t → t.busy = true → step t = .next t ∧ (t.status).getLsbD 0 = true

/-- R64: a wait for input bits is transparent. A DESER or DEC held for want of bits and given more bits (and END or
not) ends as if the bits had been there from the start. -/
def Obligations.InputHoldIsTransparent : Prop :=
  ∀ (i : Instr) (s t : State) (more : Bits) (last : Bool), i = .deser ∨ i = .dec →
    s.inflight = none → s.ports.bitInEnd = false → exec i s = .next t → t.busy = true →
    step { t with ports := { t.ports with bitIn := t.ports.bitIn ++ more, bitInEnd := last } } =
      exec i { s with ports := { s.ports with bitIn := s.ports.bitIn ++ more, bitInEnd := last } }

/-- R62, R64: WriteBits of which the host accepts only the first n bits. SER, ENC and EEOF write those, are held with
the rest, and EEOF has not set ENC_DONE yet. A DEC whose byte the host does not accept has read its code and is held. -/
def Obligations.RefusedOutputHolds : Prop :=
  (∀ (s : State) (n : Nat), s.error.err = false → s.ports.bitRoom = some n →
    (∀ t, s.tree.value = some t → n < (serTree t).length →
      exec .ser s = .next { s.afterWriting ((serTree t).take n) with
        inflight := some ⟨0x6000, .bits ((serTree t).drop n) false⟩ }) ∧
    (s.codes.valid = true → s.codes.encDone = false →
      (∀ b c, codeOf s (literal b) = some c → n < c.length →
        exec (.enc b) s = .next { s.afterWriting (c.take n) with
          inflight := some ⟨0x8000 ||| b.setWidth 16, .bits (c.drop n) false⟩ }) ∧
      ∀ c, codeOf s 256 = some c → n < c.length →
        exec .eeof s = .next { s.afterWriting (c.take n) with
          inflight := some ⟨0x9000, .bits (c.drop n) true⟩ })) ∧
  ∀ (s : State) (t : Tree) (p rest : Bits) (sym : Symbol), s.error.err = false → s.tree.value = some t →
    s.dec.done = false → s.ports.byteRoom = some 0 → p ≠ [] → sym ≠ 256 → subtreeAt t p = some (.leaf sym) →
    s.ports.bitIn = p ++ rest →
    exec .dec s = .next { s.afterReading p rest with
      inflight := some ⟨0xA000, .byte (BitVec.ofNat 8 sym.val)⟩ }

/-- R64: a wait for output is transparent. A SER, ENC or EEOF held after the n bits the host accepted, and then allowed
`room` more, ends as if the host had accepted both from the start; a DEC held at its byte likewise. -/
def Obligations.OutputHoldIsTransparent : Prop :=
  (∀ (i : Instr) (s t : State) (n : Nat) (room : Option Nat), (i = .ser ∨ (∃ b, i = .enc b) ∨ i = .eeof) →
    s.inflight = none → s.ports.bitRoom = some n → exec i s = .next t → t.busy = true →
    step { t with ports := { t.ports with bitRoom := room } } =
      exec i { s with ports := { s.ports with bitRoom := room.map (· + n) } }) ∧
  ∀ (s t : State) (room : Option Nat), s.inflight = none → s.ports.byteRoom = some 0 →
    exec .dec s = .next t → t.busy = true →
    step { t with ports := { t.ports with byteRoom := room } } =
      exec .dec { s with ports := { s.ports with byteRoom := room } }

/-! ### The register map -/

/-- R34: the fields of STATUS. -/
def Obligations.StatusFields : Prop :=
  State.reset.status = 0 ∧
  ∀ s : State,
    (s.status).getLsbD 0 = s.busy ∧ (s.status).getLsbD 1 = s.error.err ∧ (s.status).getLsbD 2 = s.freq.final ∧
    (s.status).getLsbD 3 = s.freq.sat ∧ ((s.status).getLsbD 4 = true ↔ s.tree.value ≠ none) ∧
    (s.status).getLsbD 5 = s.tree.src ∧ (s.status).getLsbD 6 = s.codes.valid ∧
    (s.status).getLsbD 7 = s.codes.encDone ∧ (s.status).getLsbD 8 = s.dec.done ∧
    (s.status).getLsbD 9 = s.error.dropped ∧ (s.status).extractLsb' 10 22 = 0

/-- R70, R71: what each address of the register map reads while BUSY = 0; every address not listed reads 0. -/
def Obligations.RegisterMap : Prop :=
  ∀ s : State, s.busy = false →
    memRead s 0x0000 = s.params.magic ∧ memRead s 0x0001 = s.paramWord ∧ memRead s 0x0002 = s.status ∧
    (memRead s 0x0003).extractLsb' 0 4 = s.error.code ∧ (memRead s 0x0003).extractLsb' 4 4 = s.error.sub ∧
    (memRead s 0x0003).extractLsb' 8 24 = 0 ∧
    memRead s 0x0004 = s.error.cmd.setWidth 32 ∧ memRead s 0x0005 = s.error.info.setWidth 32 ∧
    memRead s 0x0006 = s.dec.result.word ∧ memRead s 0x0007 = s.counters.inBits ∧
    memRead s 0x0008 = s.counters.outBits ∧ memRead s 0x0009 = s.counters.outBytes ∧
    memRead s 0x000A = s.treeInfo ∧
    (∀ sym : Symbol, memRead s (BitVec.ofNat 16 (0x0100 + sym.val)) = s.freq.count[sym.val] ∧
      memRead s (BitVec.ofNat 16 (0x0400 + sym.val)) = codeLenWord (codeOf s sym) ∧
      ∀ k < 8, memRead s (BitVec.ofNat 16 (0x1000 + 8 * sym.val + k)) = codeBitsWord (codeOf s sym) k) ∧
    ∀ a : Word16,
      (0x000B ≤ a.toNat ∧ a.toNat ≤ 0x00FF) ∨ (0x0201 ≤ a.toNat ∧ a.toNat ≤ 0x03FF) ∨
      (0x0501 ≤ a.toNat ∧ a.toNat ≤ 0x0FFF) ∨ 0x1808 ≤ a.toNat → memRead s a = 0

/-- R73: CODE_LEN and CODE_BITS of a code of at most 256 bits, and of an absent code. -/
def Obligations.CodeReadback : Prop :=
  (codeLenWord none = 0 ∧ ∀ k, codeBitsWord none k = 0) ∧
  (∀ bits : Bits, bits.length ≤ 256 →
    codeLenWord (some bits) = 0x80000000 ||| BitVec.ofNat 32 bits.length ∧
    ∀ k < 8, ∀ j < 32, (codeBitsWord (some bits) k).getLsbD (31 - j) =
      if h : 32 * k + j < bits.length then bits[32 * k + j] else false) ∧
  codeLenWord (some []) = 0x80000000 ∧
  codeLenWord (some [true]) = 0x80000001 ∧ codeBitsWord (some [true]) 0 = 0x80000000

/-- R71, R72: a read while BUSY = 1 gives STATUS exactly, with BUSY = 1, and a free draw in the fields of every other
register, whose reserved bits read 0 (that R71 holds for them while BUSY = 1 too is DEDUCED, log entry 4); an address
not listed reads 0 then as well; a read never changes the block or the ports. -/
def Obligations.ReadsWhileBusy : Prop :=
  ∀ s : State,
    (s.busy = true →
      (memRead s 0x0002 = s.status ∧ (s.status).getLsbD 0 = true) ∧
      memRead s 0x0000 = Config.busyRead s.draws 0x0000 ∧
      memRead s 0x0001 = Config.busyRead s.draws 0x0001 &&& 0x07FFFFFF ∧
      memRead s 0x0003 = Config.busyRead s.draws 0x0003 &&& 0x000000FF ∧
      memRead s 0x0004 = Config.busyRead s.draws 0x0004 &&& 0x0000FFFF ∧
      memRead s 0x0005 = Config.busyRead s.draws 0x0005 &&& 0x000001FF ∧
      memRead s 0x0006 = Config.busyRead s.draws 0x0006 &&& 0x000003FF ∧
      memRead s 0x0007 = Config.busyRead s.draws 0x0007 ∧ memRead s 0x0008 = Config.busyRead s.draws 0x0008 ∧
      memRead s 0x0009 = Config.busyRead s.draws 0x0009 ∧
      memRead s 0x000A = Config.busyRead s.draws 0x000A &&& 0x03FF01FF ∧
      (∀ a : Word16, 0x0100 ≤ a.toNat → a.toNat ≤ 0x0200 →
        memRead s a = Config.busyRead s.draws a &&& maxCount s.params.countWidth) ∧
      (∀ a : Word16, 0x0400 ≤ a.toNat → a.toNat ≤ 0x0500 → memRead s a = Config.busyRead s.draws a &&& 0x800001FF) ∧
      (∀ a : Word16, 0x1000 ≤ a.toNat → a.toNat ≤ 0x1807 → memRead s a = Config.busyRead s.draws a) ∧
      ∀ a : Word16,
        (0x000B ≤ a.toNat ∧ a.toNat ≤ 0x00FF) ∨ (0x0201 ≤ a.toNat ∧ a.toNat ≤ 0x03FF) ∨
        (0x0501 ≤ a.toNat ∧ a.toNat ≤ 0x0FFF) ∨ 0x1808 ≤ a.toNat → memRead s a = 0) ∧
    ∀ a, (hostRead a s).1 = memRead s a ∧ { (hostRead a s).2 with draws := s.draws } = s

/-- R33, R40 to R42: the DEC_RESULT, TREE_INFO, MAGIC and PARAM views. -/
def Obligations.RegisterViews : Prop :=
  (DecResult.none.word = 0 ∧ DecResult.eof.word = 0x200 ∧ DecResult.exhausted.word = 0x300 ∧
    ∀ b : Byte, (DecResult.byte b).word.extractLsb' 0 8 = b ∧ (DecResult.byte b).word.extractLsb' 8 24 = 1) ∧
  (∀ s : State, s.tree.value = none → s.treeInfo = 0) ∧
  (∀ (s : State) (t : Tree), s.tree.value = some t → TreeOk t →
    ((s.treeInfo).extractLsb' 0 9).toNat = treeLeaves t ∧ (s.treeInfo).extractLsb' 9 7 = 0 ∧
    ((s.treeInfo).extractLsb' 16 10).toNat = 2 * treeLeaves t - 1 ∧ (s.treeInfo).extractLsb' 26 6 = 0) ∧
  (∀ s : State, ParamsOk s → ((s.paramWord).extractLsb' 0 8).toNat = s.params.countWidth ∧
    (s.paramWord).extractLsb' 8 10 = 513 ∧ (s.paramWord).extractLsb' 18 9 = 256 ∧
    (s.paramWord).extractLsb' 27 5 = 0) ∧
  State.reset.paramWord = 0x04020120 ∧ State.reset.params.magic = 0x00000736

/-! ### The container and the two flows -/

/-- R66, R67: stream bit 8k + j is bit 7 - j of byte k of the packed stream, which has as many bytes as the bits need;
the magic is the first four bytes of a container, most significant first, 00 00 07 36 for 1846; unpacking the bytes of a
stream gives the stream and fewer than 8 padding bits, all 0; and a host that opens a container it made finds the bits
after the magic. -/
def Obligations.ContainerPacking : Prop :=
  (∀ bs : Bits, (packBytes bs).length = (bs.length + 7) / 8 ∧
    ∀ (k j : Nat) (h : 8 * k + j < bs.length), j < 8 →
      ∃ b, (packBytes bs)[k]? = some b ∧ b.getLsbD (7 - j) = bs[8 * k + j]) ∧
  (∀ (m : Word32) (out : Bits), (container m out).take 4 =
    [m.extractLsb' 24 8, m.extractLsb' 16 8, m.extractLsb' 8 8, m.extractLsb' 0 8]) ∧
  (∀ out : Bits, (container 1846 out).take 4 = [0x00, 0x00, 0x07, 0x36]) ∧
  (∀ bs : Bits, ∃ k < 8, unpackBytes (packBytes bs) = bs ++ List.replicate k false ∧ (bs.length + k) % 8 = 0) ∧
  ∀ (m : Word32) (out : Bits), ∃ k < 8,
    hostOpensContainer m (container m out) = some (out ++ List.replicate k false)

/-- The encode flow of R243 on any input, from any idle state, ends without an error, and the decode flow of R244 on
what it wrote to BIT_OUT, followed by any bits, in any idle block, gives back the input and ends at the pseudo-EOF
code, with those bits unread (R175). -/
def Obligations.FlowsRoundTrip : Prop :=
  ∀ (s u : State) (bs : List Byte), ParamsOk s → s.inflight = none → s.ports.bitRoom = none →
    u.inflight = none → u.ports.byteRoom = none →
    ∃ t out, execAll (encodeMacro bs) s = .next t ∧ t.error.err = false ∧
      t.ports.bitOut = s.ports.bitOut ++ out ∧
      ∀ pad, u.ports.bitIn = out ++ pad →
        ∃ v x, execAll decodeMacro u = .next v ∧ decodeLoop (bs.length + 1) v = .next x ∧
          x.error.err = false ∧ x.dec = ⟨true, .eof⟩ ∧ x.ports.byteOut = u.ports.byteOut ++ bs ∧
          x.ports.bitIn = pad
end

