-- ==== Sys2Proof/Laws/Encoding.lean ====
section
/-!
SUPPORT. The bits of an assembled word and the fields of a word (30_encoding.md R90).
-/

namespace Sys2Proof

/-- The bits of a word assembled from fields: ARG below bit 8, RSV below bit 12, OP above (R90). -/
theorem assembleWord_getLsbD (f : Fields) (k : Nat) :
    (assembleWord f).getLsbD k =
      if k < 8 then f.arg.getLsbD k else if k - 8 < 4 then f.rsv.getLsbD (k - 8) else f.op.getLsbD (k - 8 - 4) := by
  have h1 := BitVec.getLsbD_append (x := f.op ++ f.rsv) (y := f.arg) (i := k)
  have h2 := BitVec.getLsbD_append (x := f.op) (y := f.rsv) (i := k - 8)
  unfold assembleWord
  refine h1.trans ?_
  by_cases h : k < 8
  · simp [h]
  · simp [h, h2]

/-- A word is the assembly of its fields. -/
theorem assembleWord_fieldsOf (w : Word16) : assembleWord (fieldsOf w) = w := by
  apply BitVec.eq_of_getLsbD_eq
  intro k hk
  rw [assembleWord_getLsbD]
  simp only [fieldsOf, BitVec.getLsbD_extractLsb']
  by_cases h : k < 8
  · simp [h]
  · by_cases h2 : k - 8 < 4
    · simp [h, h2, Nat.add_sub_cancel' (Nat.le_of_not_lt h)]
    · have h3 : k - 8 - 4 < 4 := by omega
      have h4 : 12 + (k - 8 - 4) = k := by omega
      simp [h, h2, h3, h4]

/-- The fields of an assembled word are the fields it was assembled from. -/
theorem fieldsOf_assembleWord (f : Fields) : fieldsOf (assembleWord f) = f := by
  cases f with
  | mk op rsv arg =>
    simp only [fieldsOf, Fields.mk.injEq]
    refine ⟨?_, ?_, ?_⟩ <;> apply BitVec.eq_of_getLsbD_eq <;> intro k hk <;>
      rw [BitVec.getLsbD_extractLsb', assembleWord_getLsbD]
    · have h1 : ¬ 12 + k < 8 := by omega
      have h2 : ¬ 12 + k - 8 < 4 := by omega
      have h3 : 12 + k - 8 - 4 = k := by omega
      simp [h1, h2, h3, hk]
    · have h1 : ¬ 8 + k < 8 := by omega
      have h2 : 8 + k - 8 = k := by omega
      simp [h2, hk]
    · simp [hk]

end Sys2Proof
end

