-- ==== Sys2Proof/Laws/State.lean ====
section
/-!
SUPPORT. What each named update of the state does to each field of State, so that no proof unfolds a record update.
-/

namespace Sys2Proof.Machine

@[simp] theorem raise_freq (w : Word16) (e : Error) (s : State) : (raise w e s).freq = s.freq := rfl
@[simp] theorem raise_tree (w : Word16) (e : Error) (s : State) : (raise w e s).tree = s.tree := rfl
@[simp] theorem raise_codes (w : Word16) (e : Error) (s : State) : (raise w e s).codes = s.codes := rfl
@[simp] theorem raise_dec (w : Word16) (e : Error) (s : State) : (raise w e s).dec = s.dec := rfl
@[simp] theorem raise_error (w : Word16) (e : Error) (s : State) : (raise w e s).error = ⟨true, e.code, e.sub, w, e.info, s.error.dropped⟩ := rfl
@[simp] theorem raise_counters (w : Word16) (e : Error) (s : State) : (raise w e s).counters = s.counters := rfl
@[simp] theorem raise_params (w : Word16) (e : Error) (s : State) : (raise w e s).params = s.params := rfl
@[simp] theorem raise_inflight (w : Word16) (e : Error) (s : State) : (raise w e s).inflight = none := rfl
@[simp] theorem raise_ports (w : Word16) (e : Error) (s : State) : (raise w e s).ports = s.ports := rfl
@[simp] theorem raise_draws (w : Word16) (e : Error) (s : State) : (raise w e s).draws = s.draws := rfl

@[simp] theorem cleared_freq (s : State) : (cleared s).freq = State.reset.freq := rfl
@[simp] theorem cleared_tree (s : State) : (cleared s).tree = State.reset.tree := rfl
@[simp] theorem cleared_codes (s : State) : (cleared s).codes = State.reset.codes := rfl
@[simp] theorem cleared_dec (s : State) : (cleared s).dec = State.reset.dec := rfl
@[simp] theorem cleared_error (s : State) : (cleared s).error = State.reset.error := rfl
@[simp] theorem cleared_counters (s : State) : (cleared s).counters = State.reset.counters := rfl
@[simp] theorem cleared_params (s : State) : (cleared s).params = s.params := rfl
@[simp] theorem cleared_inflight (s : State) : (cleared s).inflight = State.reset.inflight := rfl
@[simp] theorem cleared_ports (s : State) : (cleared s).ports = s.ports := rfl
@[simp] theorem cleared_draws (s : State) : (cleared s).draws = s.draws := rfl

@[simp] theorem tookBits_freq (r : Bits) (n : Nat) (s : State) : (tookBits r n s).freq = s.freq := rfl
@[simp] theorem tookBits_tree (r : Bits) (n : Nat) (s : State) : (tookBits r n s).tree = s.tree := rfl
@[simp] theorem tookBits_codes (r : Bits) (n : Nat) (s : State) : (tookBits r n s).codes = s.codes := rfl
@[simp] theorem tookBits_dec (r : Bits) (n : Nat) (s : State) : (tookBits r n s).dec = s.dec := rfl
@[simp] theorem tookBits_error (r : Bits) (n : Nat) (s : State) : (tookBits r n s).error = s.error := rfl
@[simp] theorem tookBits_counters (r : Bits) (n : Nat) (s : State) : (tookBits r n s).counters = { s.counters with inBits := s.counters.inBits + BitVec.ofNat 32 n } := rfl
@[simp] theorem tookBits_params (r : Bits) (n : Nat) (s : State) : (tookBits r n s).params = s.params := rfl
@[simp] theorem tookBits_inflight (r : Bits) (n : Nat) (s : State) : (tookBits r n s).inflight = s.inflight := rfl
@[simp] theorem tookBits_ports (r : Bits) (n : Nat) (s : State) : (tookBits r n s).ports = { s.ports with bitIn := r } := rfl
@[simp] theorem tookBits_draws (r : Bits) (n : Nat) (s : State) : (tookBits r n s).draws = s.draws := rfl

@[simp] theorem hold_freq (w : Word16) (k : Wait) (s : State) : (hold w k s).freq = s.freq := rfl
@[simp] theorem hold_tree (w : Word16) (k : Wait) (s : State) : (hold w k s).tree = s.tree := rfl
@[simp] theorem hold_codes (w : Word16) (k : Wait) (s : State) : (hold w k s).codes = s.codes := rfl
@[simp] theorem hold_dec (w : Word16) (k : Wait) (s : State) : (hold w k s).dec = s.dec := rfl
@[simp] theorem hold_error (w : Word16) (k : Wait) (s : State) : (hold w k s).error = s.error := rfl
@[simp] theorem hold_counters (w : Word16) (k : Wait) (s : State) : (hold w k s).counters = s.counters := rfl
@[simp] theorem hold_params (w : Word16) (k : Wait) (s : State) : (hold w k s).params = s.params := rfl
@[simp] theorem hold_inflight (w : Word16) (k : Wait) (s : State) : (hold w k s).inflight = some ⟨w, k⟩ := rfl
@[simp] theorem hold_ports (w : Word16) (k : Wait) (s : State) : (hold w k s).ports = s.ports := rfl
@[simp] theorem hold_draws (w : Word16) (k : Wait) (s : State) : (hold w k s).draws = s.draws := rfl

@[simp] theorem complete_freq (s : State) : (complete s).freq = s.freq := rfl
@[simp] theorem complete_tree (s : State) : (complete s).tree = s.tree := rfl
@[simp] theorem complete_codes (s : State) : (complete s).codes = s.codes := rfl
@[simp] theorem complete_dec (s : State) : (complete s).dec = s.dec := rfl
@[simp] theorem complete_error (s : State) : (complete s).error = s.error := rfl
@[simp] theorem complete_counters (s : State) : (complete s).counters = s.counters := rfl
@[simp] theorem complete_params (s : State) : (complete s).params = s.params := rfl
@[simp] theorem complete_inflight (s : State) : (complete s).inflight = none := rfl
@[simp] theorem complete_ports (s : State) : (complete s).ports = s.ports := rfl
@[simp] theorem complete_draws (s : State) : (complete s).draws = s.draws := rfl

@[simp] theorem appendBits_freq (bs : Bits) (s : State) : (appendBits bs s).freq = s.freq := rfl
@[simp] theorem appendBits_tree (bs : Bits) (s : State) : (appendBits bs s).tree = s.tree := rfl
@[simp] theorem appendBits_codes (bs : Bits) (s : State) : (appendBits bs s).codes = s.codes := rfl
@[simp] theorem appendBits_dec (bs : Bits) (s : State) : (appendBits bs s).dec = s.dec := rfl
@[simp] theorem appendBits_error (bs : Bits) (s : State) : (appendBits bs s).error = s.error := rfl
@[simp] theorem appendBits_counters (bs : Bits) (s : State) : (appendBits bs s).counters = { s.counters with outBits := s.counters.outBits + BitVec.ofNat 32 bs.length } := rfl
@[simp] theorem appendBits_params (bs : Bits) (s : State) : (appendBits bs s).params = s.params := rfl
@[simp] theorem appendBits_inflight (bs : Bits) (s : State) : (appendBits bs s).inflight = s.inflight := rfl
@[simp] theorem appendBits_ports (bs : Bits) (s : State) : (appendBits bs s).ports = { s.ports with bitOut := s.ports.bitOut ++ bs, bitRoom := roomLeft s.ports.bitRoom bs.length } := rfl
@[simp] theorem appendBits_draws (bs : Bits) (s : State) : (appendBits bs s).draws = s.draws := rfl

@[simp] theorem appendByte_freq (b : Byte) (s : State) : (appendByte b s).freq = s.freq := rfl
@[simp] theorem appendByte_tree (b : Byte) (s : State) : (appendByte b s).tree = s.tree := rfl
@[simp] theorem appendByte_codes (b : Byte) (s : State) : (appendByte b s).codes = s.codes := rfl
@[simp] theorem appendByte_dec (b : Byte) (s : State) : (appendByte b s).dec = s.dec := rfl
@[simp] theorem appendByte_error (b : Byte) (s : State) : (appendByte b s).error = s.error := rfl
@[simp] theorem appendByte_counters (b : Byte) (s : State) : (appendByte b s).counters = { s.counters with outBytes := s.counters.outBytes + 1 } := rfl
@[simp] theorem appendByte_params (b : Byte) (s : State) : (appendByte b s).params = s.params := rfl
@[simp] theorem appendByte_inflight (b : Byte) (s : State) : (appendByte b s).inflight = s.inflight := rfl
@[simp] theorem appendByte_ports (b : Byte) (s : State) : (appendByte b s).ports = { s.ports with byteOut := s.ports.byteOut ++ [b], byteRoom := roomLeft s.ports.byteRoom 1 } := rfl
@[simp] theorem appendByte_draws (b : Byte) (s : State) : (appendByte b s).draws = s.draws := rfl

@[simp] theorem finishBits_freq (f : Bool) (s : State) : (finishBits f s).freq = s.freq := rfl
@[simp] theorem finishBits_tree (f : Bool) (s : State) : (finishBits f s).tree = s.tree := rfl
@[simp] theorem finishBits_codes (f : Bool) (s : State) : (finishBits f s).codes = { s.codes with encDone := s.codes.encDone || f } := rfl
@[simp] theorem finishBits_dec (f : Bool) (s : State) : (finishBits f s).dec = s.dec := rfl
@[simp] theorem finishBits_error (f : Bool) (s : State) : (finishBits f s).error = s.error := rfl
@[simp] theorem finishBits_counters (f : Bool) (s : State) : (finishBits f s).counters = s.counters := rfl
@[simp] theorem finishBits_params (f : Bool) (s : State) : (finishBits f s).params = s.params := rfl
@[simp] theorem finishBits_inflight (f : Bool) (s : State) : (finishBits f s).inflight = none := rfl
@[simp] theorem finishBits_ports (f : Bool) (s : State) : (finishBits f s).ports = s.ports := rfl
@[simp] theorem finishBits_draws (f : Bool) (s : State) : (finishBits f s).draws = s.draws := rfl

@[simp] theorem dropTables_freq (s : State) : (dropTables s).freq = s.freq := rfl
@[simp] theorem dropTables_tree (s : State) : (dropTables s).tree = s.tree := rfl
@[simp] theorem dropTables_codes (s : State) : (dropTables s).codes = ⟨Vector.replicate 257 none, false, false⟩ := rfl
@[simp] theorem dropTables_dec (s : State) : (dropTables s).dec = ⟨false, .none⟩ := rfl
@[simp] theorem dropTables_error (s : State) : (dropTables s).error = s.error := rfl
@[simp] theorem dropTables_counters (s : State) : (dropTables s).counters = s.counters := rfl
@[simp] theorem dropTables_params (s : State) : (dropTables s).params = s.params := rfl
@[simp] theorem dropTables_inflight (s : State) : (dropTables s).inflight = s.inflight := rfl
@[simp] theorem dropTables_ports (s : State) : (dropTables s).ports = s.ports := rfl
@[simp] theorem dropTables_draws (s : State) : (dropTables s).draws = s.draws := rfl

@[simp] theorem setTree_freq (t : Option Tree) (b : Bool) (s : State) : (setTree t b s).freq = s.freq := rfl
@[simp] theorem setTree_tree (t : Option Tree) (b : Bool) (s : State) : (setTree t b s).tree = ⟨t, b⟩ := rfl
@[simp] theorem setTree_codes (t : Option Tree) (b : Bool) (s : State) : (setTree t b s).codes = s.codes := rfl
@[simp] theorem setTree_dec (t : Option Tree) (b : Bool) (s : State) : (setTree t b s).dec = s.dec := rfl
@[simp] theorem setTree_error (t : Option Tree) (b : Bool) (s : State) : (setTree t b s).error = s.error := rfl
@[simp] theorem setTree_counters (t : Option Tree) (b : Bool) (s : State) : (setTree t b s).counters = s.counters := rfl
@[simp] theorem setTree_params (t : Option Tree) (b : Bool) (s : State) : (setTree t b s).params = s.params := rfl
@[simp] theorem setTree_inflight (t : Option Tree) (b : Bool) (s : State) : (setTree t b s).inflight = s.inflight := rfl
@[simp] theorem setTree_ports (t : Option Tree) (b : Bool) (s : State) : (setTree t b s).ports = s.ports := rfl
@[simp] theorem setTree_draws (t : Option Tree) (b : Bool) (s : State) : (setTree t b s).draws = s.draws := rfl

@[simp] theorem setDec_freq (d : Bool) (r : DecResult) (s : State) : (setDec d r s).freq = s.freq := rfl
@[simp] theorem setDec_tree (d : Bool) (r : DecResult) (s : State) : (setDec d r s).tree = s.tree := rfl
@[simp] theorem setDec_codes (d : Bool) (r : DecResult) (s : State) : (setDec d r s).codes = s.codes := rfl
@[simp] theorem setDec_dec (d : Bool) (r : DecResult) (s : State) : (setDec d r s).dec = ⟨d, r⟩ := rfl
@[simp] theorem setDec_error (d : Bool) (r : DecResult) (s : State) : (setDec d r s).error = s.error := rfl
@[simp] theorem setDec_counters (d : Bool) (r : DecResult) (s : State) : (setDec d r s).counters = s.counters := rfl
@[simp] theorem setDec_params (d : Bool) (r : DecResult) (s : State) : (setDec d r s).params = s.params := rfl
@[simp] theorem setDec_inflight (d : Bool) (r : DecResult) (s : State) : (setDec d r s).inflight = s.inflight := rfl
@[simp] theorem setDec_ports (d : Bool) (r : DecResult) (s : State) : (setDec d r s).ports = s.ports := rfl
@[simp] theorem setDec_draws (d : Bool) (r : DecResult) (s : State) : (setDec d r s).draws = s.draws := rfl

@[simp] theorem acceptCommand_freq (ws : List Word16) (s : State) : (acceptCommand ws s).freq = s.freq := rfl
@[simp] theorem acceptCommand_tree (ws : List Word16) (s : State) : (acceptCommand ws s).tree = s.tree := rfl
@[simp] theorem acceptCommand_codes (ws : List Word16) (s : State) : (acceptCommand ws s).codes = s.codes := rfl
@[simp] theorem acceptCommand_dec (ws : List Word16) (s : State) : (acceptCommand ws s).dec = s.dec := rfl
@[simp] theorem acceptCommand_error (ws : List Word16) (s : State) : (acceptCommand ws s).error = s.error := rfl
@[simp] theorem acceptCommand_counters (ws : List Word16) (s : State) : (acceptCommand ws s).counters = s.counters := rfl
@[simp] theorem acceptCommand_params (ws : List Word16) (s : State) : (acceptCommand ws s).params = s.params := rfl
@[simp] theorem acceptCommand_inflight (ws : List Word16) (s : State) : (acceptCommand ws s).inflight = s.inflight := rfl
@[simp] theorem acceptCommand_ports (ws : List Word16) (s : State) : (acceptCommand ws s).ports = { s.ports with cmd := ws } := rfl
@[simp] theorem acceptCommand_draws (ws : List Word16) (s : State) : (acceptCommand ws s).draws = s.draws := rfl

@[simp] theorem placeCommand_freq (w : Word16) (s : State) : (placeCommand w s).freq = s.freq := rfl
@[simp] theorem placeCommand_tree (w : Word16) (s : State) : (placeCommand w s).tree = s.tree := rfl
@[simp] theorem placeCommand_codes (w : Word16) (s : State) : (placeCommand w s).codes = s.codes := rfl
@[simp] theorem placeCommand_dec (w : Word16) (s : State) : (placeCommand w s).dec = s.dec := rfl
@[simp] theorem placeCommand_error (w : Word16) (s : State) : (placeCommand w s).error = s.error := rfl
@[simp] theorem placeCommand_counters (w : Word16) (s : State) : (placeCommand w s).counters = s.counters := rfl
@[simp] theorem placeCommand_params (w : Word16) (s : State) : (placeCommand w s).params = s.params := rfl
@[simp] theorem placeCommand_inflight (w : Word16) (s : State) : (placeCommand w s).inflight = none := rfl
@[simp] theorem placeCommand_ports (w : Word16) (s : State) : (placeCommand w s).ports = { s.ports with cmd := w :: s.ports.cmd } := rfl
@[simp] theorem placeCommand_draws (w : Word16) (s : State) : (placeCommand w s).draws = s.draws := rfl

end Sys2Proof.Machine
end

