-- ==== Sys2Proof/Laws/Ops.lean ====
section
/-!
SUPPORT. One lemma per shared operation saying what it can do, and the small lemmas of the definitions they are made of.
Provers cite these and do not unfold the operation.
-/

namespace Sys2Proof.Machine

/-! ### Entering and leaving the error state -/

/-- A command while ERR = 1 is dropped (R203). -/
theorem unlessError_of_err {s : State} (run : State → Res) (h : s.error.err = true) :
    unlessError s run = .next { s with error := { s.error with dropped := true } } := by
  simp [unlessError, h]

/-- A command while ERR = 0 runs (R201). -/
theorem unlessError_of_ok {s : State} (run : State → Res) (h : s.error.err = false) :
    unlessError s run = run s := by
  simp [unlessError, h]

/-- `require` with its condition true. -/
theorem require_of_true {c : Bool} {w : Word16} {e : Error} {s : State} (run : State → Res) (h : c = true) :
    require c w e s run = run s := by
  simp [require, h]

/-- `require` with its condition false raises (R216). -/
theorem require_of_false {c : Bool} {w : Word16} {e : Error} {s : State} (run : State → Res) (h : c = false) :
    require c w e s run = .next (raise w e s) := by
  simp [require, h]

/-- ERR_CODE of an error is never 0 (R200). -/
theorem Error.code_ne_zero (e : Error) : e.code ≠ 0 := by
  cases e <;> simp [Error.code]

/-! ### Rooms of the output ports -/

@[simp] theorem accepted_none (n : Nat) : accepted none n = n := rfl

@[simp] theorem accepted_some (r n : Nat) : accepted (some r) n = min r n := rfl

@[simp] theorem roomLeft_none (n : Nat) : roomLeft none n = none := rfl

@[simp] theorem roomLeft_some (r n : Nat) : roomLeft (some r) n = some (r - n) := rfl

theorem accepted_le (room : Option Nat) (n : Nat) : accepted room n ≤ n := by
  cases room with
  | none => exact Nat.le_refl n
  | some r => exact Nat.min_le_right r n

/-- After as many elements as the host accepts, it accepts no more of what is left. -/
theorem accepted_roomLeft {room : Option Nat} {n : Nat} (h : accepted room n < n) :
    roomLeft room (accepted room n) = some 0 := by
  cases room with
  | none => simp at h
  | some r => simp at h ⊢; omega

/-! ### Reading BIT_IN -/

@[simp] theorem feed_nil {α β : Type} (f : α → Bool → α ⊕ β) (a : α) : feed f a [] = (.inl a, [], 0) := rfl

theorem feed_cons_inr {α β : Type} {f : α → Bool → α ⊕ β} {a : α} {b : Bool} {r : β} (bs : Bits)
    (h : f a b = .inr r) : feed f a (b :: bs) = (.inr r, bs, 1) := by
  simp [feed, h]

theorem feed_cons_inl {α β : Type} {f : α → Bool → α ⊕ β} {a a' : α} {b : Bool} (bs : Bits)
    (h : f a b = .inl a') :
    feed f a (b :: bs) = ((feed f a' bs).1, (feed f a' bs).2.1, (feed f a' bs).2.2 + 1) := by
  simp [feed, h]

/-- The bits taken and the bits left are the bits there were; the count is of the bits taken. -/
theorem feed_split {α β : Type} (f : α → Bool → α ⊕ β) (a : α) (bs : Bits) :
    ∃ taken, bs = taken ++ (feed f a bs).2.1 ∧ (feed f a bs).2.2 = taken.length := by
  induction bs generalizing a with
  | nil => exact ⟨[], rfl, rfl⟩
  | cons b bs ih =>
    cases h : f a b with
    | inr r => exact ⟨[b], by simp [feed_cons_inr bs h], by simp [feed_cons_inr bs h]⟩
    | inl a' =>
      obtain ⟨taken, h1, h2⟩ := ih a'
      exact ⟨b :: taken, by simpa [feed_cons_inl bs h] using h1, by simp [feed_cons_inl bs h, h2]⟩

/-- A machine that has no result has taken every bit. -/
theorem feed_inl_rest {α β : Type} {f : α → Bool → α ⊕ β} {a a' : α} {bs : Bits} :
    (feed f a bs).1 = .inl a' → (feed f a bs).2.1 = [] := by
  induction bs generalizing a with
  | nil => intro _; rfl
  | cons b bs ih =>
    cases h : f a b with
    | inr r => simp [feed_cons_inr bs h]
    | inl a2 => simpa [feed_cons_inl bs h] using ih

/-- A result does not depend on the bits after it. -/
theorem feed_append_inr {α β : Type} {f : α → Bool → α ⊕ β} {a : α} {r : β} {bs rest : Bits} {n : Nat} (more : Bits) :
    feed f a bs = (.inr r, rest, n) → feed f a (bs ++ more) = (.inr r, rest ++ more, n) := by
  induction bs generalizing a n with
  | nil => simp
  | cons b bs ih =>
    cases h : f a b with
    | inr r2 =>
      rw [feed_cons_inr bs h, List.cons_append, feed_cons_inr _ h]
      simp only [Prod.mk.injEq]
      rintro ⟨h1, h2, h3⟩
      exact ⟨h1, by rw [h2], h3⟩
    | inl a2 =>
      rw [feed_cons_inl bs h, List.cons_append, feed_cons_inl _ h]
      simp only [Prod.mk.injEq]
      rintro ⟨h1, h2, h3⟩
      have := ih (a := a2) (n := (feed f a2 bs).2.2) (by rw [← h1, ← h2])
      rw [this]
      exact ⟨rfl, rfl, h3⟩

/-- Bits that come later are given to the machine the earlier bits led to. -/
theorem feed_append_inl {α β : Type} {f : α → Bool → α ⊕ β} {a a' : α} {bs : Bits} (more : Bits) :
    (feed f a bs).1 = .inl a' →
    feed f a (bs ++ more) =
      ((feed f a' more).1, (feed f a' more).2.1, (feed f a bs).2.2 + (feed f a' more).2.2) := by
  induction bs generalizing a with
  | nil =>
    intro h
    simp at h
    subst h
    simp
  | cons b bs ih =>
    cases h : f a b with
    | inr r => simp [feed_cons_inr bs h]
    | inl a2 =>
      intro h1
      rw [feed_cons_inl bs h] at h1
      rw [List.cons_append, feed_cons_inl _ h, feed_cons_inl bs h, ih h1]
      simp only [Prod.mk.injEq, true_and]
      omega

/-- A result is the machine's answer to one of the bits. -/
theorem feed_inr_source {α β : Type} {f : α → Bool → α ⊕ β} {a : α} {r : β} {bs rest : Bits} {n : Nat} :
    feed f a bs = (.inr r, rest, n) → ∃ a' b, f a' b = .inr r := by
  induction bs generalizing a n with
  | nil => simp
  | cons b bs ih =>
    cases h : f a b with
    | inr r2 =>
      rw [feed_cons_inr bs h]
      intro h1
      exact ⟨a, b, h.trans (by simpa using congrArg Prod.fst h1)⟩
    | inl a2 =>
      rw [feed_cons_inl bs h]
      simp only [Prod.mk.injEq]
      rintro ⟨h1, h2, h3⟩
      exact ih (a := a2) (n := (feed f a2 bs).2.2) (by rw [← h1, ← h2])

/-! ### Writing BIT_OUT -/

/-- WriteBits when the host accepts everything: the bits are appended and the command finishes (R62). -/
theorem writeBits_accepted {w : Word16} {bs : Bits} {finish : Bool} {s : State}
    (h : accepted s.ports.bitRoom bs.length = bs.length) :
    writeBits w bs finish s = finishBits finish (appendBits bs s) := by
  simp [writeBits, h]

/-- WriteBits when the host does not accept everything: a prefix is appended, no room is left, and the command is
held with the rest (R64). -/
theorem writeBits_held {w : Word16} {bs : Bits} {finish : Bool} {s : State}
    (h : accepted s.ports.bitRoom bs.length < bs.length) :
    writeBits w bs finish s =
      hold w (.bits (bs.drop (accepted s.ports.bitRoom bs.length)) finish)
        (appendBits (bs.take (accepted s.ports.bitRoom bs.length)) s) := by
  have : bs.drop (accepted s.ports.bitRoom bs.length) ≠ [] := by
    simpa [List.drop_eq_nil_iff] using h
  simp [writeBits, this]

/-! ### The step -/

/-- Everything a step can do: a held command goes on, an idle block stays, or the next word of CMD is processed. -/
theorem step_cases {s : State} {o : Res} (h : step s = o) :
    (∃ f, s.inflight = some f ∧ o = .next (resume f s)) ∨
    (s.inflight = none ∧ s.ports.cmd = [] ∧ o = .next s) ∨
    (∃ w ws i, s.inflight = none ∧ s.ports.cmd = w :: ws ∧ decode w = .legal i ∧ o = exec i (acceptCommand ws s)) ∨
    (∃ w ws c, s.inflight = none ∧ s.ports.cmd = w :: ws ∧ decode w = .illegal c ∧
      o = illegalCommand w c (acceptCommand ws s)) := by
  unfold step at h
  split at h
  · rename_i f hf
    exact .inl ⟨f, hf, h.symm⟩
  · rename_i hf
    split at h
    · rename_i hc
      exact .inr (.inl ⟨hf, hc, h.symm⟩)
    · rename_i w ws hc
      split at h
      · rename_i i hd
        exact .inr (.inr (.inl ⟨w, ws, i, hf, hc, hd, h.symm⟩))
      · rename_i c hd
        exact .inr (.inr (.inr ⟨w, ws, c, hf, hc, hd, h.symm⟩))

end Sys2Proof.Machine
end

