-- ==== Sys2Proof/Laws/PerInstr.lean ====
section
/-!
SUPPORT. Statements made per instruction: the encoder agrees with the row of R92's table that bears the instruction's
mnemonic.
-/

namespace Sys2Proof.Laws.TableRow

/-- The word the encoder gives has the row's match bits under the row's mask, and the instruction is well formed. -/
abbrev Statement (i : Instr) : Prop :=
  i.source.mnemonic.matchesWord (encode i) ∧ i.wellFormed = true

/-- The mask of FACC and ENC keeps the bits from 8 up. -/
theorem mask_bit : ∀ k : Fin 16, (0xFF00 : Word16).getLsbD k.val = decide (8 ≤ k.val) := by decide

/-- ARG lies outside that mask. -/
theorem operand_row (op : BitVec 4) (b : Byte) :
    assembleWord ⟨op, 0, b⟩ &&& 0xFF00 = assembleWord ⟨op, 0, 0⟩ := by
  apply BitVec.eq_of_getLsbD_eq
  intro k hk
  rw [BitVec.getLsbD_and, mask_bit ⟨k, hk⟩]
  rw [assembleWord_getLsbD, assembleWord_getLsbD]
  by_cases h : k < 8
  · simp [h, Nat.not_le.mpr h]
  · simp [h, Nat.le_of_not_lt h]

/-- The operand of a byte is in range (R95). -/
theorem operand_le (b : Byte) : b.toNat ≤ 255 := Nat.le_of_lt_succ b.isLt

theorem nop : Statement .nop := by decide
theorem clear : Statement .clear := by decide
theorem facc (b : Byte) : Statement (.facc b) :=
  ⟨operand_row 2 b, by simp [Instr.wellFormed, Instr.source, Source.wellFormed, Mnemonic.takesOperand, operand_le b]⟩
theorem ffin : Statement .ffin := by decide
theorem build : Statement .build := by decide
theorem deser : Statement .deser := by decide
theorem ser : Statement .ser := by decide
theorem cgen : Statement .cgen := by decide
theorem enc (b : Byte) : Statement (.enc b) :=
  ⟨operand_row 8 b, by simp [Instr.wellFormed, Instr.source, Source.wellFormed, Mnemonic.takesOperand, operand_le b]⟩
theorem eeof : Statement .eeof := by decide
theorem dec : Statement .dec := by decide

end Sys2Proof.Laws.TableRow
end

