-- ==== Sys2Proof/Laws/Ports.lean ====
section
/-!
SUPPORT. What `registerAt` answers at each address of the register map, and what `memRead` and `hostRead` can do
(20_memory.md R70 to R72).
-/

namespace Sys2Proof.Machine

/-! ### The addresses of R70 -/

theorem registerAt_freq (sym : Symbol) : registerAt (0x0100 + sym.val) = some (.freq sym) := by
  have := sym.isLt
  simp (disch := omega) only [registerAt, if_neg, dif_pos, Nat.add_sub_cancel_left]

theorem registerAt_codeLen (sym : Symbol) : registerAt (0x0400 + sym.val) = some (.codeLen sym) := by
  have := sym.isLt
  simp (disch := omega) only [registerAt, if_neg, dif_neg, dif_pos, Nat.add_sub_cancel_left]

theorem registerAt_codeBits (sym : Symbol) {k : Nat} (hk : k < 8) :
    registerAt (0x1000 + 8 * sym.val + k) = some (.codeBits sym k) := by
  have := sym.isLt
  have h1 : (0x1000 + 8 * sym.val + k - 0x1000) / 8 = sym.val := by omega
  have h2 : (0x1000 + 8 * sym.val + k - 0x1000) % 8 = k := by omega
  simp (disch := omega) only [registerAt, if_neg, dif_neg, dif_pos, h1, h2]

/-- The addresses R70 does not list (R71). -/
theorem registerAt_eq_none_iff (a : Nat) : registerAt a = none ↔
    (0x000B ≤ a ∧ a ≤ 0x00FF) ∨ (0x0201 ≤ a ∧ a ≤ 0x03FF) ∨ (0x0501 ≤ a ∧ a ≤ 0x0FFF) ∨ 0x1808 ≤ a := by
  by_cases h0 : a ≤ 0x000A
  · interval_cases a <;> decide
  simp (disch := omega) only [registerAt, if_neg]
  by_cases h1 : 0x0100 ≤ a ∧ a ≤ 0x0200
  · simp only [dif_pos h1, reduceCtorEq, false_iff]; omega
  by_cases h2 : 0x0400 ≤ a ∧ a ≤ 0x0500
  · simp only [dif_neg h1, dif_pos h2, reduceCtorEq, false_iff]; omega
  by_cases h3 : 0x1000 ≤ a ∧ a ≤ 0x1807
  · simp only [dif_neg h1, dif_neg h2, dif_pos h3, reduceCtorEq, false_iff]; omega
  · simp only [dif_neg h1, dif_neg h2, dif_neg h3, true_iff]; omega

/-! ### Reads -/

theorem memRead_unlisted {s : State} {a : Word16} (h : registerAt a.toNat = none) : memRead s a = 0 := by
  simp [memRead, h]

theorem memRead_idle {s : State} {a : Word16} {r : Register} (h : registerAt a.toNat = some r)
    (hb : s.busy = false) : memRead s a = registerValue s r := by
  simp [memRead, h, hb]

theorem memRead_busy {s : State} {a : Word16} {r : Register} (h : registerAt a.toNat = some r)
    (hb : s.busy = true) (hr : r ≠ .status) : memRead s a = Config.busyRead s.draws a &&& registerFields s r := by
  simp [memRead, h, hb, hr]

/-- STATUS is exact at any time (R72). -/
theorem memRead_status (s : State) : memRead s 0x0002 = s.status := by
  simp [memRead, registerAt, registerValue]

/-- A read changes nothing but the model's own count of free draws (R72). -/
theorem hostRead_frame (a : Word16) (s : State) : { (hostRead a s).2 with draws := s.draws } = s := by
  unfold hostRead; split <;> rfl

/-! ### The fields of a register -/

/-- A word of at most `n` bits is kept by the mask of `n` bits. -/
theorem and_eq_self_of_le {x : Word32} {n : Nat} (hn : n ≤ 32) (h : x.toNat ≤ 2 ^ n - 1) :
    x &&& BitVec.ofNat 32 (2 ^ n - 1) = x := by
  apply BitVec.eq_of_toNat_eq
  have hp : 2 ^ n ≤ 2 ^ 32 := Nat.pow_le_pow_right (by omega) hn
  have h0 : 0 < 2 ^ n := Nat.two_pow_pos n
  rw [BitVec.toNat_and, BitVec.toNat_ofNat, Nat.mod_eq_of_lt (by omega), Nat.and_two_pow_sub_one_eq_mod,
    Nat.mod_eq_of_lt (by omega)]

/-- What a register holds lies in its fields: its reserved bits are 0 (R71). -/
theorem registerValue_and_fields {s : State} (r : Register) (hp : Config.countWidthOk s.params.countWidth)
    (hc : ∀ sym : Symbol, s.freq.count[sym.val] ≤ maxCount s.params.countWidth) :
    registerValue s r &&& registerFields s r = registerValue s r := by
  have full (x : Word32) : x &&& 0xFFFFFFFF = x := BitVec.and_allOnes
  cases r with
  | magic | inBits | outBits | outBytes | codeBits => exact full _
  | param =>
    simp only [registerValue, registerFields, State.paramWord]
    generalize BitVec.ofNat 8 s.params.countWidth = x
    revert x; decide +kernel
  | status =>
    simp only [registerValue, registerFields, State.status, flagAt]
    generalize s.busy = b0, s.error.err = b1, s.freq.final = b2, s.freq.sat = b3, s.tree.value.isSome = b4,
      s.tree.src = b5, s.codes.valid = b6, s.codes.encDone = b7, s.dec.done = b8, s.error.dropped = b9
    revert b0 b1 b2 b3 b4 b5 b6 b7 b8 b9
    decide +kernel
  | error =>
    simp only [registerValue, registerFields, State.errorWord]
    generalize s.error.sub ++ s.error.code = x
    revert x; decide +kernel
  | errCmd =>
    exact and_eq_self_of_le (n := 16) (by omega) (by
      have := s.error.cmd.isLt; simp [registerValue, State.errCmdWord]; omega)
  | errInfo =>
    simp only [registerValue, registerFields, State.errInfoWord]
    generalize s.error.info = x
    revert x; decide +kernel
  | decResult =>
    cases h : s.dec.result with
    | byte b =>
      simp only [registerValue, registerFields, h, DecResult.word]
      clear h; revert b; decide +kernel
    | none | eof | exhausted => simp only [registerValue, registerFields, h, DecResult.word]; rfl
  | treeInfo =>
    simp only [registerValue, registerFields, State.treeInfo]
    split
    · rfl
    · rename_i t _
      generalize BitVec.ofNat 9 (treeLeaves t) = x, BitVec.ofNat 10 (treeNodes t) = y
      have hx : ∀ x : BitVec 9, x.setWidth 32 &&& (0x03FF01FF : Word32) = x.setWidth 32 := by decide +kernel
      have hy : ∀ y : BitVec 10, y.setWidth 32 <<< 16 &&& (0x03FF01FF : Word32) = y.setWidth 32 <<< 16 := by decide +kernel
      rw [BitVec.and_or_distrib_right, hx, hy]
  | freq sym =>
    refine and_eq_self_of_le hp.2 ?_
    have h := BitVec.le_def.mp (hc sym)
    have : 2 ^ s.params.countWidth ≤ 2 ^ 32 := Nat.pow_le_pow_right (by omega) hp.2
    have h0 : 0 < 2 ^ s.params.countWidth := Nat.two_pow_pos _
    rwa [maxCount, BitVec.toNat_ofNat, Nat.mod_eq_of_lt (by omega)] at h
  | codeLen sym =>
    simp only [registerValue, registerFields]
    cases codeOf s sym with
    | none => rfl
    | some c =>
      simp only [codeLenWord]
      generalize BitVec.ofNat 9 c.length = x
      revert x; decide +kernel

end Sys2Proof.Machine
end

