-- ==== Sys2Proof/Laws/Streams.lean ====
section
/-!
SUPPORT. What the operations that use a stream can do, once: DESER and DEC from a ReadBit on, WriteBits, and DEC's
WriteByte.
-/

namespace Sys2Proof.Machine

/-- DESER's own errors are MALFORMED_TREE (R132). -/
theorem Des.bit_error {d : Des} {b : Bool} {e : Error} (h : d.bit b = .inr (.error e)) : e.code = 1 := by
  unfold Des.bit at h
  split at h
  · split at h
    · cases h; rfl
    · split at h <;> cases h
  · split at h
    · cases h
    · unfold Des.leaf at h
      split at h
      · split at h
        · cases h; rfl
        · split at h <;> cases h
      · cases h; rfl

/-- END is MALFORMED_TREE too (R132). -/
theorem Des.atEnd_code (d : Des) : d.atEnd.code = 1 := by
  unfold Des.atEnd
  split <;> rfl

/-- DESER from a ReadBit on: bits are taken from the front of BIT_IN, and the tree is complete, or an error
MALFORMED_TREE is raised, or all bits are taken and it is held. -/
theorem runDes_cases (w : Word16) (d : Des) (s : State) :
    ∃ taken rest, s.ports.bitIn = taken ++ rest ∧
      ((∃ t, feed Des.bit d s.ports.bitIn = (.inr (.ok t), rest, taken.length) ∧
          runDes w d s = complete (setTree (some t) true (tookBits rest taken.length s))) ∨
       (∃ e, e.code = 1 ∧ runDes w d s = raise w e (tookBits rest taken.length s)) ∨
       (∃ d', rest = [] ∧ s.ports.bitInEnd = false ∧
          feed Des.bit d s.ports.bitIn = (.inl d', [], taken.length) ∧
          runDes w d s = hold w (.des d') (tookBits [] taken.length s))) := by
  obtain ⟨taken, h1, h2⟩ := feed_split Des.bit d s.ports.bitIn
  refine ⟨taken, _, h1, ?_⟩
  rcases hf : feed Des.bit d s.ports.bitIn with ⟨x, rest, n⟩
  rw [hf] at h2
  simp only at h2
  subst h2
  rcases x with d' | (e | t)
  · have hr := feed_inl_rest (f := Des.bit) (a := d) (a' := d') (bs := s.ports.bitIn) (by rw [hf])
    rw [hf] at hr
    change rest = [] at hr
    subst hr
    cases he : s.ports.bitInEnd
    · exact .inr (.inr ⟨d', rfl, rfl, rfl, by simp [runDes, hf, he]⟩)
    · exact .inr (.inl ⟨d'.atEnd, d'.atEnd_code, by simp [runDes, hf, he]⟩)
  · obtain ⟨d', b, hb⟩ := feed_inr_source hf
    exact .inr (.inl ⟨e, Des.bit_error hb, by simp [runDes, hf]⟩)
  · exact .inl ⟨t, rfl, by simp [runDes, hf]⟩

/-- A walk that has taken a bit is no longer in SYMBOL_START. -/
theorem Walk.bit_start {k k' : Walk} {b : Bool} (h : k.bit b = .inl k') : k'.start = false := by
  unfold Walk.bit at h
  split at h
  · cases h
  · cases h; rfl

/-- A walk over some bits is in SYMBOL_START only if it was and there were none. -/
theorem feed_walk_start {k k' : Walk} {bs : Bits} (h : (feed Walk.bit k bs).1 = .inl k') :
    k'.start = (k.start && bs.isEmpty) := by
  induction bs generalizing k with
  | nil => simp at h; simp [h]
  | cons b bs ih =>
    cases hb : k.bit b with
    | inr r => simp [feed_cons_inr bs hb] at h
    | inl k2 =>
      rw [feed_cons_inl bs hb] at h
      rw [ih h, Walk.bit_start hb]
      simp

/-- DEC from a ReadBit on: bits are taken from the front of BIT_IN, and a symbol is found, or all bits are taken and
END is met in SYMBOL_START or mid-descent, or it is held. -/
theorem runWalk_cases (w : Word16) (k : Walk) (s : State) :
    ∃ taken rest, s.ports.bitIn = taken ++ rest ∧
      ((∃ sym, feed Walk.bit k s.ports.bitIn = (.inr sym, rest, taken.length) ∧
          runWalk w k s = foundSymbol w sym (tookBits rest taken.length s)) ∨
       (∃ k', rest = [] ∧ feed Walk.bit k s.ports.bitIn = (.inl k', [], taken.length) ∧
          s.ports.bitInEnd = true ∧ k'.start = true ∧ k.start = true ∧ taken = [] ∧
          runWalk w k s = complete (setDec true .exhausted (tookBits [] taken.length s))) ∨
       (∃ k', rest = [] ∧ feed Walk.bit k s.ports.bitIn = (.inl k', [], taken.length) ∧
          s.ports.bitInEnd = true ∧ k'.start = false ∧ (k.start = true → taken ≠ []) ∧
          runWalk w k s = raise w .truncatedStream (tookBits [] taken.length s)) ∨
       (∃ k', rest = [] ∧ feed Walk.bit k s.ports.bitIn = (.inl k', [], taken.length) ∧
          s.ports.bitInEnd = false ∧
          runWalk w k s = hold w (.walk k') (tookBits [] taken.length s))) := by
  obtain ⟨taken, h1, h2⟩ := feed_split Walk.bit k s.ports.bitIn
  refine ⟨taken, _, h1, ?_⟩
  rcases hf : feed Walk.bit k s.ports.bitIn with ⟨x, rest, n⟩
  rw [hf] at h2 h1
  simp only at h2 h1
  subst h2
  rcases x with k' | sym
  · have hr := feed_inl_rest (f := Walk.bit) (a := k) (a' := k') (bs := s.ports.bitIn) (by rw [hf])
    rw [hf] at hr
    change rest = [] at hr
    subst hr
    have hst := feed_walk_start (k := k) (k' := k') (bs := s.ports.bitIn) (by rw [hf])
    have ht : s.ports.bitIn = taken := by simpa using h1
    rw [ht] at hst
    cases he : s.ports.bitInEnd
    · exact .inr (.inr (.inr ⟨k', rfl, rfl, rfl, by simp [runWalk, hf, he]⟩))
    · cases hk : k'.start
      · refine .inr (.inr (.inl ⟨k', rfl, rfl, rfl, hk, ?_, by simp [runWalk, hf, he, hk]⟩))
        rintro hks rfl
        rw [hk, hks] at hst
        simp at hst
      · rw [hk] at hst
        have hks : k.start = true := by
          cases hk0 : k.start
          · rw [hk0] at hst; simp at hst
          · rfl
        have ht0 : taken = [] := by
          rw [hks] at hst
          simpa using hst.symm
        exact .inr (.inl ⟨k', rfl, rfl, rfl, hk, hks, ht0, by simp [runWalk, hf, he, hk]⟩)
  · exact .inl ⟨sym, rfl, by simp [runWalk, hf]⟩

/-- WriteBits either appends all and finishes, or appends a prefix and is held with no room left. -/
theorem writeBits_cases (w : Word16) (bs : Bits) (finish : Bool) (s : State) :
    (accepted s.ports.bitRoom bs.length = bs.length ∧
      writeBits w bs finish s = finishBits finish (appendBits bs s)) ∨
    (∃ n, s.ports.bitRoom = some n ∧ n < bs.length ∧
      writeBits w bs finish s = hold w (.bits (bs.drop n) finish) (appendBits (bs.take n) s)) := by
  rcases Nat.lt_or_ge (accepted s.ports.bitRoom bs.length) bs.length with h | h
  · right
    have hw := writeBits_held (w := w) (finish := finish) h
    cases hr : s.ports.bitRoom with
    | none => simp [hr] at h
    | some n =>
      rw [hr] at h hw
      simp only [accepted_some] at h hw
      have hn : n < bs.length := by omega
      have hm : min n bs.length = n := by omega
      rw [hm] at hw
      exact ⟨n, rfl, hn, hw⟩
  · left
    have := Nat.le_antisymm (accepted_le _ _) h
    exact ⟨this, writeBits_accepted this⟩

/-- DEC's WriteByte either appends the byte and finishes, or is held because there is no room. -/
theorem emitByte_cases (w : Word16) (b : Byte) (s : State) :
    (s.ports.byteRoom ≠ some 0 ∧ emitByte w b s = complete (setDec s.dec.done (.byte b) (appendByte b s))) ∨
    (s.ports.byteRoom = some 0 ∧ emitByte w b s = hold w (.byte b) s) := by
  unfold emitByte
  cases hr : s.ports.byteRoom with
  | none => simp
  | some n =>
    cases n with
    | zero => simp
    | succ n => simp

/-- A leaf found: EOF, a byte written, or the byte held. -/
theorem foundSymbol_cases (w : Word16) (sym : Symbol) (s : State) :
    (sym = 256 ∧ foundSymbol w sym s = complete (setDec true .eof s)) ∨
    (sym ≠ 256 ∧ s.ports.byteRoom ≠ some 0 ∧
      foundSymbol w sym s = complete (setDec s.dec.done (.byte (symbolByte sym)) (appendByte (symbolByte sym) s))) ∨
    (sym ≠ 256 ∧ s.ports.byteRoom = some 0 ∧ foundSymbol w sym s = hold w (.byte (symbolByte sym)) s) := by
  unfold foundSymbol
  by_cases h : sym = Config.eofSym
  · exact .inl ⟨h, by simp [h]⟩
  · rcases emitByte_cases w (symbolByte sym) s with ⟨h1, h2⟩ | ⟨h1, h2⟩
    · exact .inr (.inl ⟨h, h1, by simp [h, h2]⟩)
    · exact .inr (.inr ⟨h, h1, by simp [h, h2]⟩)

end Sys2Proof.Machine
end

