-- ==== Sys2Proof/Laws/Trees.lean ====
section
/-!
SUPPORT. Small facts of bit strings, trees and paths, and what the traversal stack of DESER does with a subtree.
-/

namespace Sys2Proof.Machine

/-! ### Bit strings -/

/-- One more bit (R65). -/
theorem bitsValue_snoc (bs : Bits) (b : Bool) : bitsValue (bs ++ [b]) = 2 * bitsValue bs + b.toNat := by
  simp [bitsValue]

/-- n bits are a value below 2^n. -/
theorem bitsValue_lt (bs : Bits) : bitsValue bs < 2 ^ bs.length := by
  induction bs using List.reverseRecOn with
  | nil => simp [bitsValue]
  | append_singleton bs b ih =>
    rw [bitsValue_snoc, List.length_append, List.length_singleton, pow_succ]
    cases b <;> simp <;> omega

/-- Reading back the 9 bits of a symbol (R65, R66). -/
theorem bitsValue_bits9 : ∀ s : Symbol, bitsValue (bits9 s) = s.val := by decide +kernel

theorem bits9_length (s : Symbol) : (bits9 s).length = 9 := rfl

/-! ### Counting nodes -/

/-- One node fewer than twice the leaves (R28). -/
theorem treeNodes_succ (t : Tree) : treeNodes t + 1 = 2 * treeLeaves t := by
  induction t with
  | leaf s => rfl
  | node l r hl hr => simp only [treeNodes, treeLeaves]; omega

theorem treeLeaves_pos (t : Tree) : 1 ≤ treeLeaves t := by
  have := treeNodes_succ t
  omega

/-- As many leaf symbols as leaves. -/
theorem treeSymbols_length (t : Tree) : (treeSymbols t).length = treeLeaves t := by
  induction t with
  | leaf s => rfl
  | node l r hl hr => simp [treeSymbols, treeLeaves, hl, hr]

/-- Distinct symbols are at most 257 (R28). -/
theorem treeLeaves_le {t : Tree} (h : TreeOk t) : treeLeaves t ≤ 257 := by
  rw [← treeSymbols_length]
  simpa using h.length_le_card

/-- A tree is no deeper than it has internal nodes (R28). -/
theorem treeDepth_lt (t : Tree) : treeDepth t + 1 ≤ treeLeaves t := by
  induction t with
  | leaf s => exact Nat.le_refl _
  | node l r hl hr => simp only [treeDepth, treeLeaves]; omega

/-! ### Paths -/

/-- A path in two parts. -/
theorem subtreeAt_append (t : Tree) (p q : Bits) :
    subtreeAt t (p ++ q) = (subtreeAt t p).bind (subtreeAt · q) := by
  induction p generalizing t with
  | nil => simp [subtreeAt]
  | cons b p ih =>
    cases t with
    | leaf s => simp [subtreeAt]
    | node l r => simp [subtreeAt, ih]

/-- A symbol on a path is a leaf symbol. -/
theorem subtreeAt_symbol {t : Tree} {p : Bits} {s : Symbol} :
    subtreeAt t p = some (.leaf s) → s ∈ treeSymbols t := by
  induction p generalizing t with
  | nil => intro h; simp [subtreeAt] at h; simp [h, treeSymbols]
  | cons b p ih =>
    cases t with
    | leaf s => simp [subtreeAt]
    | node l r =>
      intro h
      cases b
      · exact List.mem_append_left _ (ih h)
      · exact List.mem_append_right _ (ih h)

/-- Every leaf symbol is on a path. -/
theorem exists_path (t : Tree) (s : Symbol) (h : s ∈ treeSymbols t) : ∃ p, subtreeAt t p = some (.leaf s) := by
  induction t with
  | leaf x => exact ⟨[], by simp [treeSymbols] at h; simp [subtreeAt, h]⟩
  | node l r ihl ihr =>
    rcases List.mem_append.mp h with h | h
    · obtain ⟨p, hp⟩ := ihl h
      exact ⟨false :: p, hp⟩
    · obtain ⟨p, hp⟩ := ihr h
      exact ⟨true :: p, hp⟩

/-- A path and what is below it fit in the depth. -/
theorem subtreeAt_depth {t u : Tree} {p : Bits} : subtreeAt t p = some u → p.length + treeDepth u ≤ treeDepth t := by
  induction p generalizing t with
  | nil => intro h; simp [subtreeAt] at h; simp [h]
  | cons b p ih =>
    cases t with
    | leaf s => simp [subtreeAt]
    | node l r =>
      intro h
      have h2 := ih (t := if b then r else l) h
      simp only [treeDepth, List.length_cons]
      cases b <;> simp at h2 <;> omega

/-! ### The traversal stack of DESER -/

/-- What `climb` makes of a complete subtree: the whole tree, or a stack that accounts for it. -/
theorem climb_cases (k : List Frame) (t : Tree) :
    (∃ whole, climb k t = .inl whole ∧ (treeSymbols whole).Perm (treeSymbols t ++ stackSymbols k)) ∨
    (∃ k', climb k t = .inr k' ∧ (stackSymbols k').Perm (treeSymbols t ++ stackSymbols k) ∧
      stackNodes k' = treeNodes t + stackNodes k) := by
  induction k generalizing t with
  | nil => exact .inl ⟨t, rfl, by simp [stackSymbols]⟩
  | cons f k ih =>
    cases f with
    | awaitLeft => exact .inr ⟨_, rfl, by simp [stackSymbols], by simp [stackNodes]; omega⟩
    | awaitRight l =>
      have hp : (treeSymbols (.node l t) ++ stackSymbols k).Perm
          (treeSymbols t ++ stackSymbols (.awaitRight l :: k)) := by
        simp only [treeSymbols, stackSymbols, ← List.append_assoc]
        exact List.perm_append_comm.append_right _
      rcases ih (.node l t) with ⟨whole, h1, h2⟩ | ⟨k', h1, h2, h3⟩
      · exact .inl ⟨whole, h1, h2.trans hp⟩
      · exact .inr ⟨k', h1, h2.trans hp, by simp [h3, treeNodes, stackNodes]; omega⟩

end Sys2Proof.Machine
end

