-- ==== Sys2Proof/Tests/Slice0.lean ====
section
/-!
SUPPORT. The model's own tests. Expected values come from spec/95_test_vectors.md (the vector is named) or from a rule of
spec/ (the rule is named). The last part holds, for every obligation with hypotheses, a witness that meets them.
-/

namespace Sys2Proof.Tests

open Sys2Proof Sys2Proof.Machine

/- One thread: the kernel evaluations below need no parallel elaboration. -/
set_option Elab.async false

/-! ### Small states -/

/-- The state after one step with `w` offered on CMD. -/
def after (w : Word16) (s : State) : Option State :=
  match step (s.withFetchWord 16 w.toNat) with
  | .next t => some t
  | .fault _ => none
  | .refused _ => none

/-- A frequency table with these counts. -/
def freqOf (l : List (Symbol × Word32)) (final : Bool) : FreqFile :=
  ⟨l.foldl (fun v p => v.set p.1.val p.2) (Vector.replicate 257 0), final, false⟩

def counted (l : List (Symbol × Word32)) (final : Bool) : State := { State.reset with freq := freqOf l final }

/-- COUNT_WIDTH = 8 and `FREQ[65] = n`. -/
def counted8 (n : Word32) (final : Bool) : State := { counted [(65, n)] final with params := ⟨1846, 8⟩ }

def withTree (t : Tree) : State := { State.reset with tree := ⟨some t, true⟩ }

def withCodes (t : Tree) : State := { withTree t with codes := ⟨codeTable t, true, false⟩ }

/-- Bits on BIT_IN, then END or not. -/
def feeding (bits : Bits) (closed : Bool) (s : State) : State :=
  { s with ports := { s.ports with bitIn := bits, bitInEnd := closed } }

/-- At most `n` more bits accepted on BIT_OUT. -/
def bitRoom (n : Nat) (s : State) : State := { s with ports := { s.ports with bitRoom := some n } }

/-- At most `n` more bytes accepted on BYTE_OUT. -/
def byteRoom (n : Nat) (s : State) : State := { s with ports := { s.ports with byteRoom := some n } }

def offering (ws : List Word16) (s : State) : State := { s with ports := { s.ports with cmd := ws } }

/-- The error of vector C2. -/
def inError (s : State) : State := { s with error := ⟨true, 4, 1, 0xB000, 0, false⟩ }

/-- Bits written as a number, most significant first. -/
def bitsOf (n v : Nat) : Bits := ((List.range n).map fun k => v.testBit k).reverse

/-- B3, D2. -/
def treeAAAB : Tree := .node (.node (.leaf 66) (.leaf 256)) (.leaf 65)

/-- D3. -/
def treeNoEof : Tree := .node (.leaf 65) (.leaf 66)

/-- B6. -/
def treeFib : Tree :=
  .node (.node (.node (.leaf 65) (.leaf 66)) (.leaf 68)) (.node (.node (.leaf 256) (.leaf 67)) (.leaf 69))

/-- The 32 bits of S3. -/
def bitsAAAB : Bits := bitsOf 32 0b11000100001001000000000001000001

/-! ### Well-formedness: an ill-formed term for each check, refused -/

theorem test_op_check_refuses : (Fields.mk 0xB 0 0).opOk = false ∧ (Fields.mk 0xA 0 0).opOk = true := by decide

theorem test_rsv_check_refuses : (Fields.mk 0x2 1 0).rsvOk = false ∧ (Fields.mk 0x2 0 0xFF).rsvOk = true := by decide

theorem test_arg_check_refuses : (Fields.mk 0x3 0 1).argOk = false ∧ (Fields.mk 0x8 0 1).argOk = true := by decide

theorem test_fields_refused : (Fields.mk 0xF 0 0).wellFormed = false ∧ (Fields.mk 0x0 8 0).wellFormed = false ∧
    (Fields.mk 0xA 0 0x80).wellFormed = false ∧ (Fields.mk 0x2 0 0x80).wellFormed = true := by decide

theorem test_operand_out_of_range_refused : (Source.mk .facc (some 256)).wellFormed = false ∧
    (Source.mk .facc (some 255)).wellFormed = true := by decide

theorem test_operand_missing_refused : (Source.mk .enc none).wellFormed = false := by decide

theorem test_operand_on_operandless_refused : (Source.mk .nop (some 0)).wellFormed = false := by decide

/-! ### Decoding: words written out from the second table of R92 -/

theorem test_decode_nop : decode 0b0000000000000000 = .legal .nop := by decide
theorem test_decode_clear : decode 0b0001000000000000 = .legal .clear := by decide
theorem test_decode_facc : decode 0b0010000011000011 = .legal (.facc 0xC3) := by decide
theorem test_decode_ffin : decode 0b0011000000000000 = .legal .ffin := by decide
theorem test_decode_build : decode 0b0100000000000000 = .legal .build := by decide
theorem test_decode_deser : decode 0b0101000000000000 = .legal .deser := by decide
theorem test_decode_ser : decode 0b0110000000000000 = .legal .ser := by decide
theorem test_decode_cgen : decode 0b0111000000000000 = .legal .cgen := by decide
theorem test_decode_enc : decode 0b1000000010000001 = .legal (.enc 0x81) := by decide
theorem test_decode_eeof : decode 0b1001000000000000 = .legal .eeof := by decide
theorem test_decode_dec : decode 0b1010000000000000 = .legal .dec := by decide

/-- C6: a NOP with ARG not 0 is no NOP. -/
theorem test_decode_nop_with_arg : decode 0b0000000000000001 = .illegal .argNonzero := by decide

/-- R93, C3: sub-causes in their order. -/
theorem test_decode_illegal : decode 0b1111000011111111 = .illegal .reservedOp ∧
    decode 0b1010000100000001 = .illegal .rsvNonzero ∧ decode 0b1001000010000000 = .illegal .argNonzero := by decide

/-- A row of the opcode table read with its 16 bits. -/
theorem test_decodeTableWord : decodeTableWord 16 0x2041 = some (.facc 65) ∧ decodeTableWord 16 0xB000 = none := by decide

/-! ### One step of each command -/

/-- C1. -/
theorem test_nop : after 0x0000 State.reset = some State.reset := rfl

/-- C9. -/
theorem test_clear_leaves_error : (after 0x1000 (inError (counted [(65, 1)] true))).map
    (fun t => (t.status, t.errorWord, t.freq.count[65])) = some (0, 0, 0) := by decide +kernel

/-- C11: bits on BIT_IN stay. -/
theorem test_clear_keeps_streams : (after 0x1000 (feeding [true, false] false (withTree treeAAAB))).map
    (fun t => (t.ports.bitIn, t.tree.value)) = some ([true, false], none) := by decide +kernel

/-- F6: the count is at the maximum. -/
theorem test_facc_saturates : (after 0x2041 (counted8 255 false)).map (fun t => (t.freq.count[65], t.status)) =
    some (255, 0x8) := by decide +kernel

/-- F5. -/
theorem test_facc_after_ffin : (after 0x2041 (counted [(256, 1)] true)).map
    (fun t => (t.errorWord, t.errCmdWord, t.status)) = some (0x15, 0x2041, 0x6) := by decide +kernel

/-- F2. -/
theorem test_ffin : (after 0x3000 (counted [(65, 3), (66, 1)] false)).map
    (fun t => (t.freq.count[256], t.freq.count[65], t.status)) = some (1, 3, 0x4) := by decide +kernel

/-- F4. -/
theorem test_ffin_twice : (after 0x3000 (counted [(256, 1)] true)).map
    (fun t => (t.freq.count[256], t.freq.final, t.error.err)) = some (1, true, false) := by decide +kernel

/-- B7: two ties between a leaf and an internal node. -/
theorem test_build_hello : (after 0x4000 (counted [(101, 1), (104, 1), (108, 2), (111, 1), (256, 1)] true)).map
    (fun t => (t.tree.value, t.treeInfo)) =
    some (some (.node (.node (.leaf 111) (.leaf 256)) (.node (.leaf 108) (.node (.leaf 101) (.leaf 104)))),
      0x00090005) := by decide +kernel

/-- B8. -/
theorem test_build_before_ffin : (after 0x4000 (counted [(65, 1)] false)).map
    (fun t => (t.errorWord, t.errCmdWord, t.status)) = some (0x25, 0x4000, 0x2) := by decide +kernel

/-- D2, with a bit after the tree. -/
theorem test_deser : (after 0x5000 (feeding (bitsAAAB ++ [true]) true State.reset)).map
    (fun t => (t.tree.value, t.counters.inBits, t.ports.bitIn, t.status)) =
    some (some treeAAAB, 32, [true], 0x30) := by decide +kernel

/-- D9, over an old tree. -/
theorem test_deser_dup : (after 0x5000 (feeding (bitsOf 21 0b100010000010001000001) true (withTree treeAAAB))).map
    (fun t => (t.errorWord, t.errInfoWord, t.counters.inBits, t.status)) = some (0x41, 0x41, 21, 0x2) := by decide +kernel

/-- S6. -/
theorem test_ser_fib : (after 0x6000 (withTree treeFib)).map (fun t => (t.ports.bitOut, t.counters.outBits)) =
    some (bitsOf 65 0b11100010000010001000010000100010011010000000000010000110001000101, 65) := by decide +kernel

/-- S9. -/
theorem test_ser_without_tree : (after 0x6000 State.reset).map (fun t => (t.errorWord, t.errCmdWord, t.ports.bitOut)) =
    some (0x35, 0x6000, []) := by decide +kernel

/-- G3. -/
theorem test_cgen : (after 0x7000 (withTree treeAAAB)).map
    (fun t => (memRead t 0x0441, memRead t 0x1208, memRead t 0x0442, memRead t 0x1210, memRead t 0x0500,
      memRead t 0x1800)) =
    some (0x80000001, 0x80000000, 0x80000002, 0x00000000, 0x80000002, 0x40000000) := by decide +kernel

/-- G8: no leaf for 256. -/
theorem test_cgen_absent : (after 0x7000 (withTree treeNoEof)).map (fun t => (memRead t 0x0500, t.status)) =
    some (0x00000000, 0x70) := by decide +kernel

/-- E1, the fourth command. -/
theorem test_enc : (after 0x8042 (withCodes treeAAAB)).map (fun t => (t.ports.bitOut, t.counters.outBits)) =
    some ([false, false], 2) := by decide +kernel

/-- E13. -/
theorem test_enc_missing_code : (after 0x8043 (withCodes treeAAAB)).map
    (fun t => (t.errorWord, t.errInfoWord, t.ports.bitOut)) = some (0x3, 0x43, []) := by decide +kernel

/-- E1, the last command. -/
theorem test_eeof : (after 0x9000 (withCodes treeAAAB)).map (fun t => (t.ports.bitOut, t.codes.encDone)) =
    some ([false, true], true) := by decide +kernel

/-- E12. -/
theorem test_eeof_missing_code : (after 0x9000 (withCodes treeNoEof)).map
    (fun t => (t.errorWord, t.errInfoWord, t.errCmdWord, t.status)) = some (0x3, 0x100, 0x9000, 0x72) := by decide +kernel

/-- X3, with a bit after the code. -/
theorem test_dec : (after 0xA000 (feeding [true, false] true (withTree treeAAAB))).map
    (fun t => (t.dec.result.word, t.ports.byteOut, t.ports.bitIn)) = some (0x141, [0x41], [false]) := by decide +kernel

/-- X4: one bit read, DEC_RESULT as it was. -/
theorem test_dec_truncated : (after 0xA000 (feeding [false] true { withTree treeAAAB with dec := ⟨false, .byte 65⟩ })).map
    (fun t => (t.errorWord, t.errCmdWord, t.dec.result.word, t.counters.inBits)) =
    some (0x2, 0xA000, 0x141, 1) := by decide +kernel

/-! ### The error state, holds, registers -/

/-- C8: NOP does not set CMD_DROPPED. -/
theorem test_nop_in_error : (after 0x0000 (inError State.reset)).map (fun t => (t.status, t.errorWord)) =
    some (0x2, 0x14) := by decide +kernel

/-- C8. -/
theorem test_dropped : (after 0x2041 (inError State.reset)).map (fun t => (t.freq.count[65], t.status, t.errCmdWord)) =
    some (0, 0x202, 0xB000) := by decide +kernel

/-- C10: a word that is not exactly 0x0000 or 0x1000 is dropped, legal or not. -/
theorem test_dropped_illegal : (after 0x0001 (inError State.reset)).map (fun t => (t.errorWord, t.status)) =
    some (0x14, 0x202) := by decide +kernel

/-- R64: no bit and no END; BUSY is 1 and nothing is lost. -/
theorem test_deser_held : (after 0x5000 (feeding (bitsAAAB.take 7) false State.reset)).map
    (fun t => (t.busy, t.counters.inBits, t.error.err)) = some (true, 7, false) := by decide +kernel

/-- R64: the host accepts one bit of a code of two. -/
theorem test_enc_held : (after 0x8042 (bitRoom 1 (withCodes treeAAAB))).map (fun t => (t.busy, t.ports.bitOut)) =
    some (true, [false]) := by decide +kernel

/-- C12, C13. -/
theorem test_registers : memRead State.reset 0x0000 = 0x736 ∧ memRead State.reset 0x0001 = 0x04020120 ∧
    memRead State.reset 0x000B = 0 ∧ memRead State.reset 0x0201 = 0 ∧ memRead State.reset 0x1808 = 0 := by decide +kernel

/-- F8: the ends of the FREQ block. -/
theorem test_freq_registers : memRead (counted [(0, 7), (256, 9)] true) 0x0100 = 7 ∧
    memRead (counted [(0, 7), (256, 9)] true) 0x0200 = 9 := by decide +kernel

/-- P1: the container of AAAB. -/
theorem test_container : container 1846 (bitsAAAB ++ [true, true, true, false, false, false, true]) =
    [0x00, 0x00, 0x07, 0x36, 0xc4, 0x24, 0x00, 0x41, 0xe2] := by decide +kernel

/-- T4: a wrong magic is FormatError. -/
theorem test_format_error : hostOpensContainer 1846 [0x00, 0x00, 0x07, 0x37, 0xc4] = none := by decide +kernel

/-! ### The assembler (R95) -/

theorem test_assemble_operands : assemble ["FACC 65".toList, "ENC 0xfF ; last".toList, "  ; none".toList, "FACC 'A'".toList] =
    some [.facc 65, .enc 255, .facc 65] := by decide +kernel

theorem test_assemble_errors : assemble ["FACC 256".toList] = none ∧ assemble ["NOP 0".toList] = none ∧
    assemble ["ENC".toList] = none ∧ assemble ["facc 1".toList] = none := by decide +kernel

/-! ### Witnesses: for every obligation with hypotheses, concrete values that meet all of them -/

/-- DecodeInvertsEncode. -/
theorem test_witness_DecodeInvertsEncode : (Instr.facc 255).wellFormed = true ∧ decode 0x20FF = .legal (.facc 255) := by
  decide +kernel

/-- LegalAndIllegalWords: the block idle and not in error, and for each sub-cause a word at each end of its range. -/
theorem test_witness_LegalAndIllegalWords :
    ((offering [0xB000, 0x0000] State.reset).inflight = none ∧ (offering [0xB000, 0x0000] State.reset).error.err = false ∧
      (offering [0xB000, 0x0000] State.reset).ports.cmd = 0xB000 :: [0x0000]) ∧
    (((0xB000 : Word16).extractLsb' 12 4).toNat ≥ 0xB ∧ ((0xFFFF : Word16).extractLsb' 12 4).toNat ≥ 0xB) ∧
    (((0x0100 : Word16).extractLsb' 12 4).toNat ≤ 0xA ∧ (0x0100 : Word16).extractLsb' 8 4 ≠ 0) ∧
    (((0xAFFF : Word16).extractLsb' 12 4).toNat ≤ 0xA ∧ (0xAFFF : Word16).extractLsb' 8 4 ≠ 0) ∧
    (((0x0001 : Word16).extractLsb' 12 4).toNat ∈ [0x0, 0x1, 0x3, 0x4, 0x5, 0x6, 0x7, 0x9, 0xA] ∧
      (0x0001 : Word16).extractLsb' 8 4 = 0 ∧ (0x0001 : Word16).extractLsb' 0 8 ≠ 0) ∧
    (((0xA0FF : Word16).extractLsb' 12 4).toNat ∈ [0x0, 0x1, 0x3, 0x4, 0x5, 0x6, 0x7, 0x9, 0xA] ∧
      (0xA0FF : Word16).extractLsb' 8 4 = 0 ∧ (0xA0FF : Word16).extractLsb' 0 8 ≠ 0) := by decide +kernel

/-- AssemblyKeepsOperand: a line on each side of the equivalence. -/
theorem test_witness_AssemblyKeepsOperand : Source.instr? ⟨.facc, some 255⟩ = some (.facc 255) ∧
    Source.instr? ⟨.facc, some 256⟩ = none := by decide +kernel

/-- StepRunsDecodedCommand: an offered command, a held one, an idle block. -/
theorem test_witness_StepRunsDecodedCommand :
    ((offering [0x2041] State.reset).inflight = none ∧ (offering [0x2041] State.reset).ports.cmd = [0x2041] ∧
      decode 0x2041 = .legal (.facc 65)) ∧
    (hold 0x5000 (.des Des.begin) State.reset).inflight = some ⟨0x5000, .des Des.begin⟩ ∧
    (State.reset.inflight = none ∧ State.reset.ports.cmd = []) := by decide +kernel

/-- The state after reset with other ports, error registers or a held command meets the invariant if those do. -/
theorem inv_of_reset {p : Ports} {e : ErrReg} {f : Option InFlight}
    (he : e.err = true ↔ e.code ≠ 0) (he' : e.err = false → e = ⟨false, 0, 0, 0, 0, false⟩)
    (hf : HeldOk { State.reset with ports := p, error := e, inflight := f }) :
    ({ State.reset with ports := p, error := e, inflight := f } : State).Inv := by
  refine ⟨⟨?_, ?_⟩, ⟨?_, ?_, ?_⟩, ⟨?_, fun _ => rfl, ?_⟩, ⟨?_, fun _ => rfl, ?_⟩, ⟨?_, fun _ => rfl⟩, ⟨he, he'⟩, hf⟩ <;>
    simp [State.reset, BitVec.le_def, Config.defaultCountWidth]

/-- An open input stream with no bit on it, and a command offered. -/
def open1 : State := offering [0x2041] (feeding [] false State.reset)

theorem open1_inv : open1.Inv := inv_of_reset (by decide) (fun _ => rfl) (by intro f h; cases h)

/-- A DESER held at its first bit. -/
def heldDeser : State := hold 0x5000 (.des Des.begin) (feeding [] false State.reset)

theorem heldDeser_inv : heldDeser.Inv := by
  refine inv_of_reset (by decide) (fun _ => rfl) ?_
  rintro f ⟨⟩
  exact ⟨rfl, rfl, rfl, rfl, ⟨by decide, by decide, by decide, by decide, fun p h => by cases h⟩⟩

/-- A block in error with a word offered. -/
def faulty (w : Word16) : State := offering [w] (inError State.reset)

theorem faulty_inv (w : Word16) : (faulty w).Inv :=
  inv_of_reset (e := ⟨true, 4, 1, 0xB000, 0, false⟩) (by decide) (fun h => by cases h) (by intro f h; cases h)

/-- StepKeepsInvariant: an idle block with a command, and a held command. -/
theorem test_witness_StepKeepsInvariant : (∃ t, open1.Inv ∧ step open1 = .next t) ∧
    ∃ t, heldDeser.Inv ∧ step heldDeser = .next t := ⟨⟨_, open1_inv, rfl⟩, _, heldDeser_inv, rfl⟩

/-- HostMovesKeepInvariant: a stream may be opened and bits supplied. -/
theorem test_witness_HostMovesKeepInvariant : open1.Inv ∧ (∃ t, hostOpen open1 = some t) ∧
    (∃ t, hostSupply [true] open1 = some t) ∧ heldDeser.Inv ∧ ∃ t, hostSupply [true] heldDeser = some t :=
  ⟨open1_inv, ⟨_, rfl⟩, ⟨_, rfl⟩, heldDeser_inv, _, rfl⟩

/-- StepNeverStops: a state with the invariant, and one of those in which BUILD stops. -/
theorem test_witness_StepNeverStops : open1.Inv ∧ (counted [] true).error.err = false ∧
    (counted [] true).freq.final = true ∧ ∀ sym : Symbol, (counted [] true).freq.count[sym.val] = 0 :=
  ⟨open1_inv, rfl, rfl, by decide +kernel⟩

/-- ErrorStateDropsCommands: a legal word and an illegal one. -/
theorem test_witness_ErrorStateDropsCommands :
    ((faulty 0xA000).inflight = none ∧ (faulty 0xA000).error.err = true ∧
      (faulty 0xA000).ports.cmd = 0xA000 :: [] ∧ (0xA000 : Word16) ≠ 0x0000 ∧ (0xA000 : Word16) ≠ 0x1000) ∧
    ((faulty 0x0001).inflight = none ∧ (faulty 0x0001).error.err = true ∧
      (faulty 0x0001).ports.cmd = 0x0001 :: [] ∧ (0x0001 : Word16) ≠ 0x0000 ∧ (0x0001 : Word16) ≠ 0x1000) := by
  decide +kernel

/-- OnlyClearLeavesErrorState: CLEAR and another command on CMD. -/
theorem test_witness_OnlyClearLeavesErrorState :
    (∃ t, (faulty 0x1000).Inv ∧ (faulty 0x1000).error.err = true ∧ step (faulty 0x1000) = .next t ∧
      (faulty 0x1000).ports.cmd.head? = some 0x1000) ∧
    ∃ t, (faulty 0xA000).Inv ∧ (faulty 0xA000).error.err = true ∧ step (faulty 0xA000) = .next t ∧
      (faulty 0xA000).ports.cmd.head? ≠ some 0x1000 :=
  ⟨⟨_, faulty_inv _, rfl, rfl, rfl⟩, _, faulty_inv _, rfl, rfl, by decide +kernel⟩

/-- SequenceChecks: a state for each line of R216, and the second part. -/
theorem test_witness_SequenceChecks :
    (State.reset.error.err = false ∧ State.reset.inflight = none ∧ State.reset.freq.final = false ∧
      State.reset.tree.value = none ∧ State.reset.codes.valid = false ∧ State.reset.error.code ≠ 5) ∧
    ((counted [(256, 1)] true).error.err = false ∧ (counted [(256, 1)] true).inflight = none ∧
      (counted [(256, 1)] true).freq.final = true) ∧
    (∃ s : State, s.error.err = false ∧ s.inflight = none ∧ s.codes.valid = true ∧ s.codes.encDone = true ∧
      s.tree.value ≠ none ∧ s.dec.done = true) ∧
    ∃ t, exec .deser State.reset = .next t :=
  ⟨by decide +kernel, by decide +kernel,
    ⟨{ withTree treeAAAB with codes := ⟨codeTable treeAAAB, true, true⟩, dec := ⟨true, .eof⟩ }, rfl, rfl, rfl, rfl,
      by decide +kernel, rfl⟩, _, rfl⟩

/-- The words and states of EffectsOfFaultingCommand's three cases. -/
theorem test_witness_EffectsOfFaultingCommand :
    (∃ t, step (offering [0xA000] State.reset) = .next t ∧ t.error.err = true ∧ t.error.code ≠ 2) ∧
    (∃ t, step (offering [0x5000] State.reset) = .next t ∧ t.error.err = true ∧ t.error.code = 1) ∧
    ∃ t, step (offering [0xA000] (feeding [false] true (withTree treeAAAB))) = .next t ∧ t.error.err = true ∧
      t.error.code = 2 := ⟨⟨_, rfl, rfl, by decide +kernel⟩, ⟨_, rfl, rfl, rfl⟩, _, rfl, rfl, rfl⟩

/-- ErrorRegistersFrame: each of its three cases. -/
theorem test_witness_ErrorRegistersFrame :
    (∃ t, exec .ffin State.reset = .next t ∧ t.error = State.reset.error) ∧
    (∃ t, exec .ffin (inError State.reset) = .next t ∧ t.error.dropped = true) ∧
    ∃ t, exec .ser State.reset = .next t ∧ t.error.err = true := ⟨⟨_, rfl, rfl⟩, ⟨_, rfl, rfl⟩, _, rfl, rfl⟩

theorem counted8_freqOk : FreqOk (counted8 255 false) := ⟨by decide +kernel, by decide +kernel, fun h => by cases h⟩

/-- NopChangesNothing: words of OP 0 at the ends of the range that are not NOP. -/
theorem test_witness_NopChangesNothing : ((0x0001 : Word16).extractLsb' 12 4 = 0 ∧ (0x0001 : Word16) ≠ 0x0000) ∧
    ((0x0FFF : Word16).extractLsb' 12 4 = 0 ∧ (0x0FFF : Word16) ≠ 0x0000) := by decide

/-- FaccCounts: the table final; the count at the maximum; the count one below it; a count that is not 0. -/
theorem test_witness_FaccCounts :
    (ParamsOk (counted8 255 false) ∧ (counted8 255 false).error.err = false ∧ (counted8 255 false).inflight = none) ∧
    (counted8 255 true).freq.final = true ∧ (counted8 255 false).freq.final = false ∧
    ((counted8 255 false).freq.count[(literal 65).val]).toNat = 2 ^ (counted8 255 false).params.countWidth - 1 ∧
    ((counted8 254 false).freq.count[(literal 65).val]).toNat ≠ 2 ^ (counted8 254 false).params.countWidth - 1 ∧
    FreqOk (counted8 255 false) ∧ (∃ t, exec (.facc 65) (counted8 255 false) = .next t) ∧
    (counted8 255 false).freq.count[(65 : Symbol).val] ≠ 0 :=
  ⟨⟨by decide +kernel, rfl, rfl⟩, rfl, rfl, by decide +kernel, by decide +kernel,
    counted8_freqOk, ⟨_, rfl⟩, by decide +kernel⟩

/-- FfinInsertsPseudoEof: a final table, one without the entry, one with it. -/
theorem test_witness_FfinInsertsPseudoEof :
    ((counted [(256, 1)] true).error.err = false ∧ (counted [(256, 1)] true).freq.final = true) ∧
    ((counted [(65, 1)] false).error.err = false ∧ (counted [(65, 1)] false).freq.final = false ∧
      (counted [(65, 1)] false).freq.count[256] = 0) ∧
    ((counted [(256, 1)] false).error.err = false ∧ (counted [(256, 1)] false).freq.final = false ∧
      (counted [(256, 1)] false).freq.count[256] ≠ 0) ∧
    open1.Inv ∧ open1.error.err = false ∧ open1.freq.final = false :=
  ⟨by decide +kernel, by decide +kernel, by decide +kernel, open1_inv, rfl, rfl⟩

/-- AccumulationResult: both ends of the range of COUNT_WIDTH. -/
theorem test_witness_AccumulationResult : ParamsOk State.reset ∧ ParamsOk (counted8 0 false) := by decide +kernel

/-- CountingFrame: both commands, and symbols that each leaves alone. -/
theorem test_witness_CountingFrame :
    (∃ t, exec (.facc 65) State.reset = .next t) ∧ (∃ t, exec .ffin State.reset = .next t) ∧
    (66 : Symbol) ≠ literal 65 ∧ (255 : Symbol) ≠ 256 ∧ State.reset.inflight = none :=
  ⟨⟨_, rfl⟩, ⟨_, rfl⟩, by decide +kernel, by decide +kernel, rfl⟩

/-- ExtractMinIsLeast: a tie. -/
theorem test_witness_ExtractMinIsLeast : extractMin [⟨3, 0, .leaf 65⟩, ⟨1, 1, .leaf 66⟩, ⟨1, 2, .leaf 256⟩] =
    some (⟨1, 1, .leaf 66⟩, [⟨3, 0, .leaf 65⟩, ⟨1, 2, .leaf 256⟩]) := by decide +kernel

/-- MergeLoopEndsWithOneTree: a present symbol, the queue of R126, one that no turn changes, and the first turn of R126. -/
theorem test_witness_MergeLoopEndsWithOneTree :
    (counted [(65, 3), (66, 1), (256, 1)] true).freq.count[(256 : Symbol).val] ≠ 0 ∧
    initialQueue (counted [(65, 3), (66, 1), (256, 1)] true).freq.count =
      [⟨3, 0, .leaf 65⟩, ⟨1, 1, .leaf 66⟩, ⟨1, 2, .leaf 256⟩] ∧
    [Entry.mk 1 0 (.leaf 256)].length ≤ 1 ∧ [Entry.mk 1 0 (.leaf 256)] ≠ [] ∧
    extractMin [⟨3, 0, .leaf 65⟩, ⟨1, 1, .leaf 66⟩, ⟨1, 2, .leaf 256⟩] =
      some (⟨1, 1, .leaf 66⟩, [⟨3, 0, .leaf 65⟩, ⟨1, 2, .leaf 256⟩]) ∧
    extractMin [⟨3, 0, .leaf 65⟩, ⟨1, 2, .leaf 256⟩] = some (⟨1, 2, .leaf 256⟩, [⟨3, 0, .leaf 65⟩]) := by
  decide +kernel

/-- WeightsNeverOverflow: a count at the maximum of 8 bits. -/
theorem test_witness_WeightsNeverOverflow : ParamsOk (counted8 255 false) ∧ FreqOk (counted8 255 false) ∧
    ∃ e, e ∈ queueAfter 0 0 (initialQueue (counted8 255 false).freq.count) ∧ e.weight = 255 :=
  ⟨by decide +kernel, counted8_freqOk, ⟨255, 0, .leaf 65⟩, by decide +kernel, rfl⟩

/-- BuiltTreeLeaves: B2. -/
theorem test_witness_BuiltTreeLeaves : buildTree (counted [(65, 1), (256, 1)] true).freq.count =
    some (.node (.leaf 65) (.leaf 256)) ∧ (counted [(65, 1), (256, 1)] true).freq.count[256] ≠ 0 := by decide +kernel

/-- DegenerateBuild: the empty input. -/
theorem test_witness_DegenerateBuild : (counted [(256, 1)] true).error.err = false ∧
    (counted [(256, 1)] true).freq.final = true ∧
    ∀ x : Symbol, (counted [(256, 1)] true).freq.count[x.val] ≠ 0 ↔ x = 256 := by decide +kernel

/-- BuildCommitsTree. -/
theorem test_witness_BuildCommitsTree : (counted [(256, 1)] true).error.err = false ∧
    (counted [(256, 1)] true).freq.final = true ∧ ∃ sym : Symbol, (counted [(256, 1)] true).freq.count[sym.val] ≠ 0 :=
  ⟨rfl, rfl, 256, by decide +kernel⟩

/-- TableMakingFrame. -/
theorem test_witness_TableMakingFrame : (∃ t, exec .build State.reset = .next t) ∧
    (∃ t, exec .cgen (withTree treeAAAB) = .next t) ∧ State.reset.inflight = none := ⟨⟨_, rfl⟩, ⟨_, rfl⟩, rfl⟩

/-- DeserInvertsSer: a tree, and bits after it. -/
theorem test_witness_DeserInvertsSer : (feeding (serTree treeAAAB ++ [true]) true State.reset).error.err = false ∧
    TreeOk treeAAAB ∧ (feeding (serTree treeAAAB ++ [true]) true State.reset).ports.bitIn = serTree treeAAAB ++ [true] := by
  decide +kernel

/-- DeserConsumesOneTree: D1. -/
theorem test_witness_DeserConsumesOneTree : ∃ s', (feeding (bitsOf 10 0b0100000000) true State.reset).error.err = false ∧
    exec .deser (feeding (bitsOf 10 0b0100000000) true State.reset) = .next s' ∧ s'.tree.value = some (.leaf 256) :=
  ⟨_, rfl, rfl, by decide +kernel⟩

/-- DeserRefinesRecursion: D1 returns a tree, D4 raises. -/
theorem test_witness_DeserRefinesRecursion :
    ((feeding [] true State.reset).error.err = false ∧ (feeding [] true State.reset).ports.bitInEnd = true) ∧
    desRec 514 (bitsOf 10 0b0100000000) 0 [] = some (.tree (.leaf 256) [] 1 [256]) ∧
    desRec 514 [] 0 [] = some (.raised .truncDisc []) := by decide +kernel

/-- DeserFrame. -/
theorem test_witness_DeserFrame : ∃ t, exec .deser (feeding [true] true State.reset) = .next t := ⟨_, rfl⟩

/-- SerWritesTree: exactly the room it needs, and no limit. -/
theorem test_witness_SerWritesTree : (withTree treeAAAB).error.err = false ∧
    (withTree treeAAAB).tree.value = some treeAAAB ∧
    roomFor (bitRoom 32 (withTree treeAAAB)).ports.bitRoom (serTree treeAAAB).length ∧
    roomFor (withTree treeAAAB).ports.bitRoom (serTree treeAAAB).length :=
  ⟨rfl, rfl, by rintro r ⟨⟩; decide, by rintro r ⟨⟩⟩

/-- CgenMakesTable. -/
theorem test_witness_CgenMakesTable : (withTree (.leaf 256)).error.err = false ∧
    (withTree (.leaf 256)).tree.value = some (.leaf 256) := ⟨rfl, rfl⟩

/-- CodesArePaths, CodeLengthBound, PrefixCode: a tree, two of its symbols with their codes. -/
theorem test_witness_codes : TreeOk treeAAAB ∧ (codeTable treeAAAB)[(65 : Symbol).val] = some [true] ∧
    (codeTable treeAAAB)[(66 : Symbol).val] = some [false, false] ∧ (65 : Symbol) ≠ 66 ∧ 2 ≤ treeLeaves treeAAAB := by
  decide +kernel

/-- EncAppendsCode: a byte with a code and room for it, a byte without, and the empty code of a root leaf (log entry 13). -/
theorem test_witness_EncAppendsCode :
    ((withCodes treeAAAB).error.err = false ∧ (withCodes treeAAAB).codes.valid = true ∧
      (withCodes treeAAAB).codes.encDone = false ∧ (withCodes treeAAAB).inflight = none) ∧
    codeOf (withCodes treeAAAB) (literal 66) = some [false, false] ∧
    roomFor (bitRoom 2 (withCodes treeAAAB)).ports.bitRoom 2 ∧ codeOf (withCodes treeAAAB) (literal 67) = none ∧
    codeOf (withCodes (.leaf 65)) (literal 65) = some [] :=
  ⟨by decide +kernel, by decide +kernel, by rintro r ⟨⟩; decide, by decide +kernel, by decide +kernel⟩

/-- EeofAppendsAndFinishes: with and without a code for 256; the empty code needs no room. -/
theorem test_witness_EeofAppendsAndFinishes :
    ((withCodes (.leaf 256)).error.err = false ∧ (withCodes (.leaf 256)).codes.valid = true ∧
      (withCodes (.leaf 256)).codes.encDone = false ∧ codeOf (withCodes (.leaf 256)) 256 = some []) ∧
    roomFor (bitRoom 0 (withCodes (.leaf 256))).ports.bitRoom 0 ∧
    ((withCodes treeNoEof).inflight = none ∧ codeOf (withCodes treeNoEof) 256 = none) :=
  ⟨by decide +kernel, by rintro r ⟨⟩; decide, by decide +kernel⟩

/-- PayloadIsConcatenation. -/
theorem test_witness_PayloadIsConcatenation :
    ((withCodes treeAAAB).inflight = none ∧ (withCodes treeAAAB).error.err = false ∧
      (withCodes treeAAAB).codes.valid = true ∧ (withCodes treeAAAB).codes.encDone = false ∧
      (withCodes treeAAAB).ports.bitRoom = none) ∧
    (∃ t, execAll (encs [] ++ [.eeof]) (withCodes (.leaf 256)) = .next t ∧ t.error.err = false) ∧
    (∀ b ∈ [(65 : Byte), 66], codeOf (withCodes treeAAAB) (literal b) ≠ none) ∧ codeOf (withCodes treeAAAB) 256 ≠ none :=
  ⟨by decide +kernel, ⟨_, rfl, rfl⟩, List.forall_mem_cons.mpr ⟨by decide +kernel, by simpa using by decide +kernel⟩, by decide +kernel⟩

/-- WritingFrame: each command, with a tree and codes or without. -/
theorem test_witness_WritingFrame : (∃ t, exec .ser (withTree treeAAAB) = .next t) ∧
    (∃ t, exec (.enc 0) State.reset = .next t) ∧ ∃ t, exec .eeof State.reset = .next t := ⟨⟨_, rfl⟩, ⟨_, rfl⟩, _, rfl⟩

/-- DecDecodesOneCode: the codes of 256 and 65, room for one byte, and the two root leaves. -/
theorem test_witness_DecDecodesOneCode :
    (∀ bits : Bits, (feeding bits true (withTree treeAAAB)).error.err = false ∧
      (feeding bits true (withTree treeAAAB)).inflight = none ∧
      (feeding bits true (withTree treeAAAB)).tree.value = some treeAAAB ∧
      (feeding bits true (withTree treeAAAB)).dec.done = false ∧
      (feeding bits true (withTree treeAAAB)).ports.bitIn = bits) ∧
    subtreeAt treeAAAB [false, true] = some (.leaf 256) ∧
    (subtreeAt treeAAAB [true] = some (.leaf 65) ∧ roomFor (byteRoom 1 (withTree treeAAAB)).ports.byteRoom 1) ∧
    ((withTree (.leaf 65)).error.err = false ∧ (withTree (.leaf 65)).inflight = none ∧
      (withTree (.leaf 65)).tree.value = some (.leaf 65) ∧ (withTree (.leaf 65)).dec.done = false ∧
      subtreeAt (.leaf 65) [] = some (.leaf 65)) ∧
    subtreeAt (.leaf 256) [] = some (.leaf 256) :=
  ⟨fun _ => ⟨rfl, rfl, rfl, rfl, rfl⟩, rfl, ⟨rfl, by rintro r ⟨⟩; decide⟩, ⟨rfl, rfl, rfl, rfl, rfl⟩, rfl⟩

/-- DecAtEndOfBits: no bit and END, one bit and END, one bit and no END. -/
theorem test_witness_DecAtEndOfBits :
    ((feeding [] true (withTree treeAAAB)).error.err = false ∧ (feeding [] true (withTree treeAAAB)).inflight = none ∧
      (feeding [] true (withTree treeAAAB)).tree.value = some treeAAAB ∧
      (feeding [] true (withTree treeAAAB)).dec.done = false ∧ (feeding [] true (withTree treeAAAB)).ports.bitInEnd = true ∧
      (feeding [] true (withTree treeAAAB)).ports.bitIn = []) ∧
    subtreeAt treeAAAB [] = some (.node (.node (.leaf 66) (.leaf 256)) (.leaf 65)) ∧
    subtreeAt treeAAAB [false] = some (.node (.leaf 66) (.leaf 256)) ∧
    ((feeding [false] true (withTree treeAAAB)).ports.bitInEnd = true ∧
      (feeding [false] true (withTree treeAAAB)).ports.bitIn = [false]) ∧
    (feeding [false] false (withTree treeAAAB)).ports.bitInEnd = false := by decide +kernel

/-- DecReadsAtMostDepth, DecFrame. -/
theorem test_witness_dec : (withTree treeAAAB).tree.value = some treeAAAB ∧
    ∃ s', exec .dec (withTree treeAAAB) = .next s' := ⟨rfl, _, rfl⟩

/-- DecodesPayload: bytes and padding, and no byte at all on the degenerate tree. -/
theorem test_witness_DecodesPayload :
    ((withTree treeAAAB).inflight = none ∧ (withTree treeAAAB).error.err = false ∧ (withTree treeAAAB).dec.done = false ∧
      (withTree treeAAAB).ports.byteRoom = none ∧ (withTree treeAAAB).tree.value = some treeAAAB ∧ TreeOk treeAAAB) ∧
    ((∀ b ∈ [(66 : Byte), 65], literal b ∈ treeSymbols treeAAAB) ∧ (256 : Symbol) ∈ treeSymbols treeAAAB ∧
      (feeding [false, false, true, false, true, false] true (withTree treeAAAB)).ports.bitIn =
        [(66 : Byte), 65].flatMap (fun b => ((codeTable treeAAAB)[(literal b).val]).getD []) ++
          ((codeTable treeAAAB)[256]).getD [] ++ [false]) ∧
    ((withTree (.leaf 256)).tree.value = some (.leaf 256) ∧ TreeOk (.leaf 256) ∧
      (256 : Symbol) ∈ treeSymbols (.leaf 256) ∧
      (withTree (.leaf 256)).ports.bitIn =
        ([] : List Byte).flatMap (fun b => ((codeTable (.leaf 256))[(literal b).val]).getD []) ++
          ((codeTable (.leaf 256))[256]).getD [] ++ []) := by decide +kernel

/-- CountersCountTransfers: bits moved by a held command, and CLEAR. -/
theorem test_witness_CountersCountTransfers : (∃ t, step heldDeser = .next t) ∧
    ∃ t, step (faulty 0x1000) = .next t ∧ (faulty 0x1000).ports.cmd.head? = some 0x1000 ∧
      (faulty 0x1000).busy = false := ⟨⟨_, rfl⟩, _, rfl, rfl, rfl⟩

/-- HeldCommandWaits: a DESER that finds no bit. -/
theorem test_witness_HeldCommandWaits : ∃ t, step (offering [0x5000] (feeding [] false State.reset)) = .next t ∧
    t.busy = true := ⟨_, rfl, rfl⟩

/-- InputHoldIsTransparent: DESER and DEC held. -/
theorem test_witness_InputHoldIsTransparent :
    (∃ t, (feeding [] false State.reset).inflight = none ∧ (feeding [] false State.reset).ports.bitInEnd = false ∧
      exec .deser (feeding [] false State.reset) = .next t ∧ t.busy = true) ∧
    ∃ t, (feeding [false] false (withTree treeAAAB)).inflight = none ∧
      (feeding [false] false (withTree treeAAAB)).ports.bitInEnd = false ∧
      exec .dec (feeding [false] false (withTree treeAAAB)) = .next t ∧ t.busy = true :=
  ⟨⟨_, rfl, rfl, rfl, rfl⟩, _, rfl, rfl, rfl, rfl⟩

/-- RefusedOutputHolds: one bit of room less than needed, and no room for a byte. -/
theorem test_witness_RefusedOutputHolds :
    ((bitRoom 31 (withTree treeAAAB)).error.err = false ∧ (bitRoom 31 (withTree treeAAAB)).ports.bitRoom = some 31 ∧
      (bitRoom 31 (withTree treeAAAB)).tree.value = some treeAAAB ∧ 31 < (serTree treeAAAB).length) ∧
    ((bitRoom 1 (withCodes treeAAAB)).codes.valid = true ∧ (bitRoom 1 (withCodes treeAAAB)).codes.encDone = false ∧
      codeOf (bitRoom 1 (withCodes treeAAAB)) (literal 66) = some [false, false] ∧
      codeOf (bitRoom 1 (withCodes treeAAAB)) 256 = some [false, true]) ∧
    ((byteRoom 0 (feeding [true] true (withTree treeAAAB))).error.err = false ∧
      (byteRoom 0 (feeding [true] true (withTree treeAAAB))).tree.value = some treeAAAB ∧
      (byteRoom 0 (feeding [true] true (withTree treeAAAB))).dec.done = false ∧
      (byteRoom 0 (feeding [true] true (withTree treeAAAB))).ports.byteRoom = some 0 ∧
      subtreeAt treeAAAB [true] = some (.leaf 65) ∧
      (byteRoom 0 (feeding [true] true (withTree treeAAAB))).ports.bitIn = [true] ++ []) := by decide +kernel

/-- OutputHoldIsTransparent: a SER with no room, a DEC with no room for its byte. -/
theorem test_witness_OutputHoldIsTransparent :
    (∃ t, (bitRoom 0 (withTree treeAAAB)).inflight = none ∧ (bitRoom 0 (withTree treeAAAB)).ports.bitRoom = some 0 ∧
      exec .ser (bitRoom 0 (withTree treeAAAB)) = .next t ∧ t.busy = true) ∧
    ∃ t, (byteRoom 0 (feeding [true] true (withTree treeAAAB))).inflight = none ∧
      (byteRoom 0 (feeding [true] true (withTree treeAAAB))).ports.byteRoom = some 0 ∧
      exec .dec (byteRoom 0 (feeding [true] true (withTree treeAAAB))) = .next t ∧ t.busy = true :=
  ⟨⟨_, rfl, rfl, rfl, rfl⟩, _, rfl, rfl, rfl, rfl⟩

/-- RegisterMap: an idle block, the last addresses of the blocks, and the ends of each gap. -/
theorem test_witness_RegisterMap : State.reset.busy = false ∧ (256 : Symbol).val = 256 ∧ (7 : Nat) < 8 ∧
    (0x000B ≤ (0x000B : Word16).toNat ∧ (0x00FF : Word16).toNat ≤ 0x00FF) ∧
    (0x0201 ≤ (0x0201 : Word16).toNat ∧ (0x03FF : Word16).toNat ≤ 0x03FF) ∧
    (0x0501 ≤ (0x0501 : Word16).toNat ∧ (0x0FFF : Word16).toNat ≤ 0x0FFF) ∧
    0x1808 ≤ (0x1808 : Word16).toNat ∧ 0x1808 ≤ (0xFFFF : Word16).toNat := by decide +kernel

/-- CodeReadback: a code of 256 bits, its last word and bit. -/
theorem test_witness_CodeReadback : (List.replicate 256 true).length ≤ 256 ∧ (7 : Nat) < 8 ∧ (31 : Nat) < 32 := by decide +kernel

/-- R71, R72, U9: while BUSY = 1 an address not listed reads 0 and STATUS is exact; so are the reserved bits of ERROR. -/
theorem test_reads_while_busy : memRead heldDeser 0x000B = 0 ∧ memRead heldDeser 0xFFFF = 0 ∧
    memRead heldDeser 0x0002 = 0x00000001 ∧ (memRead heldDeser 0x0003).getLsbD 8 = false := by
  refine ⟨by decide +kernel, by decide +kernel, by decide +kernel, ?_⟩
  rw [memRead_busy (r := .error) rfl rfl (by decide), BitVec.getLsbD_and]
  exact Bool.and_false _

/-- ReadsWhileBusy: a busy block, and the ends of each range of addresses. -/
theorem test_witness_ReadsWhileBusy : heldDeser.busy = true ∧
    (0x0100 ≤ (0x0100 : Word16).toNat ∧ (0x0200 : Word16).toNat ≤ 0x0200) ∧
    (0x0400 ≤ (0x0400 : Word16).toNat ∧ (0x0500 : Word16).toNat ≤ 0x0500) ∧
    (0x1000 ≤ (0x1000 : Word16).toNat ∧ (0x1807 : Word16).toNat ≤ 0x1807) ∧
    (0x000B ≤ (0x000B : Word16).toNat ∧ (0x00FF : Word16).toNat ≤ 0x00FF) ∧
    (0x0201 ≤ (0x0201 : Word16).toNat ∧ (0x03FF : Word16).toNat ≤ 0x03FF) ∧
    (0x0501 ≤ (0x0501 : Word16).toNat ∧ (0x0FFF : Word16).toNat ≤ 0x0FFF) ∧
    0x1808 ≤ (0x1808 : Word16).toNat ∧ 0x1808 ≤ (0xFFFF : Word16).toNat := by decide +kernel

/-- RegisterViews: no tree, a tree, and both ends of the range of COUNT_WIDTH. -/
theorem test_witness_RegisterViews : State.reset.tree.value = none ∧ (withTree treeAAAB).tree.value = some treeAAAB ∧
    TreeOk treeAAAB ∧ ParamsOk State.reset ∧ ParamsOk (counted8 0 false) := by decide +kernel

/-- ContainerPacking: the last of ten bits, in the second byte, and the last bit of the first byte. -/
theorem test_witness_ContainerPacking : 8 * 1 + 1 < (List.replicate 10 true).length ∧ (1 : Nat) < 8 ∧
    8 * 0 + 7 < (List.replicate 10 true).length ∧ (7 : Nat) < 8 := by decide +kernel

/-- FlowsRoundTrip: the empty input, then its container's bits on BIT_IN. -/
theorem test_witness_FlowsRoundTrip : ParamsOk State.reset ∧ State.reset.inflight = none ∧
    State.reset.ports.bitRoom = none ∧ State.reset.ports.byteRoom = none ∧
    (feeding (bitsOf 10 0b0100000000 ++ [false]) true State.reset).ports.bitIn = bitsOf 10 0b0100000000 ++ [false] := by
  decide +kernel

end Sys2Proof.Tests
end

section
/-!
PROOFS. The scope (00_scope.md R10): no step stops. When the queue of BUILD (R121, R122) is empty, and that it is the
only way a command of R92 does not answer a next state.
-/

namespace Sys2Proof.Machine

/-! ### The queue of BUILD -/

/-- Only the empty queue has no least entry (R121). -/
theorem extractMin_eq_none_iff (q : List Entry) : extractMin q = none ↔ q = [] := by
  cases q with
  | nil => simp [extractMin]
  | cons e q =>
    simp only [extractMin, reduceCtorEq, iff_false]
    split
    · simp
    · split <;> simp

/-- `extractMin` takes one entry out of the queue (R121). -/
theorem length_of_extractMin {q rest : List Entry} {m : Entry} (h : extractMin q = some (m, rest)) :
    q.length = rest.length + 1 := by
  induction q generalizing m rest with
  | nil => simp [extractMin] at h
  | cons e q ih =>
    rw [extractMin] at h
    split at h
    · cases h; rfl
    · rename_i m' rest' hq
      split at h
      · cases h; simp [ih hq]
      · cases h; rfl

/-- One turn of the merge loop (R122): it ends on a queue of fewer than two entries, else the queue is one entry
shorter. -/
theorem mergeOnce_cases (n : Nat) (q : List Entry) :
    (mergeOnce n q = none ∧ q.length < 2) ∨ ∃ q', mergeOnce n q = some q' ∧ q' ≠ [] ∧ q.length = q'.length + 1 := by
  unfold mergeOnce
  split
  · rename_i hq
    exact .inl ⟨rfl, by simp [(extractMin_eq_none_iff q).mp hq]⟩
  · rename_i a q1 hq
    have hlen := length_of_extractMin hq
    split
    · rename_i hq1
      rw [(extractMin_eq_none_iff q1).mp hq1] at hlen
      exact .inl ⟨rfl, by simp [hlen]⟩
    · rename_i b q2 hq1
      exact .inr ⟨_, rfl, by simp, by simp [hlen, length_of_extractMin hq1]⟩

/-- A queue of at most one entry has no tree exactly when it is empty (R122). -/
theorem loneTree_eq_none_iff {q : List Entry} (h : q.length < 2) : loneTree q = none ↔ q = [] := by
  match q with
  | [] => simp [loneTree]
  | [e] => simp [loneTree]
  | _ :: _ :: _ => simp at h

/-- With as many turns as entries the merge loop gives a tree, except from the empty queue (R122). -/
theorem mergeLoop_eq_none_iff {fuel : Nat} (n : Nat) {q : List Entry} (hfuel : q.length ≤ fuel) :
    mergeLoop fuel n q = none ↔ q = [] := by
  induction fuel generalizing n q with
  | zero => exact loneTree_eq_none_iff (by omega)
  | succ fuel ih =>
    rw [mergeLoop]
    rcases mergeOnce_cases n q with ⟨hm, hlt⟩ | ⟨q', hm, hne, hlen⟩
    · rw [hm]
      exact loneTree_eq_none_iff hlt
    · have hq : q ≠ [] := by rintro rfl; simp at hlen
      rw [hm]
      simp only [ih (n + 1) (q := q') (by omega), hne, hq]

/-- The queue is empty at the start exactly when every count is 0 (R121). -/
theorem initialQueue_eq_nil_iff (count : Vector Word32 257) :
    initialQueue count = [] ↔ ∀ sym : Symbol, count[sym.val] = 0 := by
  simp [initialQueue, presentSymbols]

/-- BUILD has a tree to commit unless every count is 0 (R120 to R123). -/
theorem buildTree_eq_none_iff (count : Vector Word32 257) :
    buildTree count = none ↔ ∀ sym : Symbol, count[sym.val] = 0 :=
  (mergeLoop_eq_none_iff _ (Nat.le_refl _)).trans (initialQueue_eq_nil_iff count)

/-! ### Commands answer a next state -/

/-- A command answers a next state if it does when it is not dropped (R201, R203). -/
theorem unlessError_next {s : State} {run : State → Res} (h : s.error.err = false → ∃ t, run s = .next t) :
    ∃ t, unlessError s run = .next t := by
  cases he : s.error.err with
  | true => exact ⟨_, unlessError_of_err run he⟩
  | false => rw [unlessError_of_ok run he]; exact h he

/-- A command answers a next state if it does where its `require` line holds (R216). -/
theorem require_next {c : Bool} {w : Word16} {e : Error} {s : State} {run : State → Res}
    (h : c = true → ∃ t, run s = .next t) : ∃ t, require c w e s run = .next t := by
  cases hc : c with
  | true => rw [require_of_true run rfl]; exact h hc
  | false => exact ⟨_, require_of_false run rfl⟩

/-- ENC and EEOF answer a next state once they are not dropped (R160, R161). -/
theorem encodeSymbol_next (w : Word16) (sym : Symbol) (finish : Bool) (s : State) :
    ∃ t, encodeSymbol w sym finish s = .next t := by
  refine require_next fun _ => require_next fun _ => ?_
  cases codeOf s sym with
  | none => exact ⟨_, rfl⟩
  | some c => exact ⟨_, rfl⟩

/-- BUILD either answers a next state or, run on a final table, finds no tree and stops (R120, R122, log entry 6). -/
theorem execBuild_cases (s : State) :
    (∃ t, execBuild s = .next t ∧ ¬ (s.error.err = false ∧ s.freq.final = true ∧ buildTree s.freq.count = none)) ∨
    (s.error.err = false ∧ s.freq.final = true ∧ buildTree s.freq.count = none ∧
      execBuild s = .fault .emptyQueue) := by
  unfold execBuild
  cases he : s.error.err with
  | true => exact .inl ⟨_, unlessError_of_err _ he, by simp⟩
  | false =>
    rw [unlessError_of_ok _ he]
    cases hf : s.freq.final with
    | false => exact .inl ⟨_, require_of_false _ rfl, by simp⟩
    | true =>
      rw [require_of_true _ rfl]
      cases buildTree s.freq.count with
      | some t => exact .inl ⟨_, rfl, by simp⟩
      | none => exact .inr ⟨rfl, rfl, rfl, rfl⟩

/-- BUILD stops exactly when it runs on a final table whose counts are all 0 (log entry 6). -/
theorem execBuild_fault_iff (s : State) :
    (∃ f, exec .build s = .fault f) ↔
      s.error.err = false ∧ s.freq.final = true ∧ ∀ sym : Symbol, s.freq.count[sym.val] = 0 := by
  rw [← buildTree_eq_none_iff]
  change (∃ f, execBuild s = .fault f) ↔ _
  rcases execBuild_cases s with ⟨t, ht, hgo⟩ | ⟨he, hf, hnone, hstop⟩
  · exact iff_of_false (by simp [ht]) hgo
  · exact iff_of_true ⟨_, hstop⟩ ⟨he, hf, hnone⟩

/-- Every command but BUILD answers a next state, from any state (R10). -/
theorem exec_next_of_ne_build {i : Instr} (hi : i ≠ .build) (s : State) : ∃ t, exec i s = .next t := by
  cases i with
  | build => exact absurd rfl hi
  | nop | clear => exact ⟨_, rfl⟩
  | facc b =>
    rw [exec, execFacc]
    exact unlessError_next fun _ => require_next fun _ => ⟨_, rfl⟩
  | ffin =>
    rw [exec, execFfin]
    exact unlessError_next fun _ => ⟨_, rfl⟩
  | deser =>
    rw [exec, execDeser]
    exact unlessError_next fun _ => ⟨_, rfl⟩
  | ser =>
    rw [exec, execSer]
    exact unlessError_next fun _ => by cases s.tree.value <;> exact ⟨_, rfl⟩
  | cgen =>
    rw [exec, execCgen]
    exact unlessError_next fun _ => by cases s.tree.value <;> exact ⟨_, rfl⟩
  | enc | eeof => exact unlessError_next fun _ => encodeSymbol_next _ _ _ _
  | dec =>
    rw [exec, execDec]
    refine unlessError_next fun _ => ?_
    cases s.tree.value with
    | none => exact ⟨_, rfl⟩
    | some t => exact require_next fun _ => ⟨_, rfl⟩

/-- A final table that meets R24 has the pseudo-EOF entry, so not every count is 0. -/
theorem FreqOk.exists_count_ne_zero {s : State} (h : FreqOk s) (hf : s.freq.final = true) :
    ∃ sym : Symbol, s.freq.count[sym.val] ≠ 0 := by
  have heof : s.freq.count[256] = 1 := by rw [h.eof_entry, if_pos hf]
  exact ⟨Config.eofSym, fun h0 => absurd (heof.symm.trans h0) (by decide)⟩

/-- No command stops from a state whose table meets R24 (R10). -/
theorem FreqOk.exec_next {s : State} (h : FreqOk s) (i : Instr) : ∃ t, exec i s = .next t := by
  by_cases hi : i = .build
  · subst hi
    rcases execBuild_cases s with ⟨t, ht, -⟩ | ⟨-, hfin, hnone, -⟩
    · exact ⟨t, ht⟩
    · obtain ⟨sym, hsym⟩ := h.exists_count_ne_zero hfin
      exact absurd ((buildTree_eq_none_iff _).mp hnone sym) hsym
  · exact exec_next_of_ne_build hi s

/-- Accepting a command leaves the frequency table as R23 to R25 want it. -/
theorem FreqOk.acceptCommand {s : State} (h : FreqOk s) (ws : List Word16) :
    FreqOk (Machine.acceptCommand ws s) :=
  ⟨h.le_max, h.eof_entry, h.saturated⟩

/-- No step stops from a state whose table meets R24 (R10). -/
theorem FreqOk.step_next {s : State} (h : FreqOk s) : ∃ t, step s = .next t := by
  rcases step_cases (s := s) rfl with
    ⟨f, -, ho⟩ | ⟨-, -, ho⟩ | ⟨w, ws, i, -, -, -, ho⟩ | ⟨w, ws, c, -, -, -, ho⟩
  · exact ⟨_, ho⟩
  · exact ⟨_, ho⟩
  · rw [ho]; exact (h.acceptCommand ws).exec_next i
  · rw [ho, illegalCommand]; exact unlessError_next fun _ => ⟨_, rfl⟩

/-- Settles O9: every step is a command's, a held command's rest or none, and of the commands only BUILD can stop, on an
empty queue, which the pseudo-EOF entry of R24 rules out. -/
theorem stepNeverStops : Obligations.StepNeverStops :=
  ⟨fun _ h => h.freq.step_next, execBuild_fault_iff⟩

end Sys2Proof.Machine
end

section
/-!
PROOFS. What every command shares: what a property of each next state asks of `unlessError` and `require`, and what a
run of ReadBits keeps (60_exceptions.md R201 to R203, R216; 20_memory.md R61).
-/

namespace Sys2Proof.Machine

/-- If the outcome is a next state, that state is in `P`. -/
def Answers (P : State → Prop) (o : Res) : Prop := ∀ t, o = .next t → P t

theorem answers_next {P : State → Prop} {t : State} (h : P t) : Answers P (.next t) := by
  rintro _ ⟨⟩
  exact h

/-- A command is dropped with CMD_DROPPED set, or it runs (R201, R203). -/
theorem answers_unlessError {P : State → Prop} {s : State} {run : State → Res}
    (hdrop : s.error.err = true → P { s with error := { s.error with dropped := true } })
    (hrun : s.error.err = false → Answers P (run s)) : Answers P (unlessError s run) := by
  cases he : s.error.err with
  | true => rw [unlessError_of_err run he]; exact answers_next (hdrop he)
  | false => rw [unlessError_of_ok run he]; exact hrun he

/-- A `require` line raises its error, or the command goes on (R216). -/
theorem answers_require {P : State → Prop} {c : Bool} {w : Word16} {e : Error} {s : State} {run : State → Res}
    (hraise : P (raise w e s)) (hrun : c = true → Answers P (run s)) : Answers P (require c w e s run) := by
  cases hc : c with
  | true => rw [require_of_true run rfl]; exact hrun hc
  | false => rw [require_of_false run rfl]; exact answers_next hraise

/-- What one ReadBit keeps in `P`, or ends with in `Q`, any number of ReadBits does (R61). -/
theorem feed_keeps {α β : Type} {f : α → Bool → α ⊕ β} {P : α → Prop} {Q : β → Prop}
    (hf : ∀ a b, P a → Sum.elim P Q (f a b)) {a : α} (ha : P a) (bs : Bits) : Sum.elim P Q (feed f a bs).1 := by
  induction bs generalizing a with
  | nil => exact ha
  | cons b bs ih =>
    have hab := hf a b ha
    cases h : f a b with
    | inr r => rw [h] at hab; rw [feed_cons_inr bs h]; exact hab
    | inl a' => rw [h] at hab; rw [feed_cons_inl bs h]; exact ih hab

end Sys2Proof.Machine
end

section
/-!
PROOFS. The trees the block makes have distinct leaf symbols (10_state.md R28): BUILD keeps the leaves of its queue
(41_tree_build.md R121, R122), and DESER's transient state accounts for the symbols it has seen (42_tree_deserialize.md
R131).
-/

namespace Sys2Proof.Machine

/-! ### The leaves of BUILD's queue -/

/-- The leaf symbols of the trees in a queue. -/
def queueSymbols (q : List Entry) : List Symbol := q.flatMap fun e => treeSymbols e.tree

/-- `extractMin` splits the queue into the least entry and the others (R121). -/
theorem perm_of_extractMin {q rest : List Entry} {m : Entry} (h : extractMin q = some (m, rest)) :
    q.Perm (m :: rest) := by
  induction q generalizing m rest with
  | nil => simp [extractMin] at h
  | cons e q ih =>
    rw [extractMin] at h
    split at h
    · cases h; rfl
    · rename_i m' rest' hq
      split at h
      · cases h; exact ((ih hq).cons e).trans (.swap m e rest')
      · cases h; rfl

/-- One merge keeps the leaves of the queue (R122). -/
theorem queueSymbols_mergeOnce {n : Nat} {q q' : List Entry} (h : mergeOnce n q = some q') :
    (queueSymbols q').Perm (queueSymbols q) := by
  unfold mergeOnce at h
  split at h
  · cases h
  · rename_i a q1 hq
    split at h
    · cases h
    · rename_i b q2 hq1
      cases h
      have hperm : q.Perm (a :: b :: q2) := (perm_of_extractMin hq).trans ((perm_of_extractMin hq1).cons a)
      refine List.Perm.trans ?_ (hperm.flatMap_right _).symm
      simp only [queueSymbols, treeSymbols, List.flatMap_append, List.flatMap_cons, List.flatMap_nil, List.append_nil]
      rw [← List.append_assoc (treeSymbols a.tree)]
      exact List.perm_append_comm

theorem treeSymbols_loneTree {q : List Entry} {t : Tree} (h : loneTree q = some t) :
    treeSymbols t = queueSymbols q := by
  unfold loneTree at h
  split at h
  · cases h; simp [queueSymbols]
  · cases h

/-- The merge loop's tree has the leaves of the queue it started from (R122). -/
theorem treeSymbols_mergeLoop {fuel n : Nat} {q : List Entry} {t : Tree} (h : mergeLoop fuel n q = some t) :
    (treeSymbols t).Perm (queueSymbols q) := by
  induction fuel generalizing n q with
  | zero => rw [treeSymbols_loneTree h]
  | succ fuel ih =>
    rw [mergeLoop] at h
    split at h
    · rename_i q' hq
      exact (ih h).trans (queueSymbols_mergeOnce hq)
    · rw [treeSymbols_loneTree h]

theorem queueSymbols_mapIdx_leaf {f : Nat → Symbol → Entry} (hf : ∀ n s, (f n s).tree = .leaf s) (l : List Symbol) :
    queueSymbols (l.mapIdx f) = l := by
  induction l generalizing f with
  | nil => rfl
  | cons s l ih =>
    have htail : queueSymbols (l.mapIdx fun n => f (n + 1)) = l := ih fun n => hf (n + 1)
    rw [List.mapIdx_cons, queueSymbols, List.flatMap_cons, hf, ← queueSymbols, htail]
    rfl

/-- The queue starts with one leaf for each present symbol (R121). -/
theorem queueSymbols_initialQueue (count : Vector Word32 257) :
    queueSymbols (initialQueue count) = presentSymbols count :=
  queueSymbols_mapIdx_leaf (fun _ _ => rfl) _

/-- The leaves of a built tree are the present symbols (R120 to R123). -/
theorem treeSymbols_buildTree {count : Vector Word32 257} {t : Tree} (h : buildTree count = some t) :
    (treeSymbols t).Perm (presentSymbols count) := by
  rw [← queueSymbols_initialQueue]
  exact treeSymbols_mergeLoop h

theorem treeOk_buildTree {count : Vector Word32 257} {t : Tree} (h : buildTree count = some t) : TreeOk t :=
  (treeSymbols_buildTree h).nodup_iff.mpr ((List.nodup_finRange 257).filter _)

theorem mem_treeSymbols_buildTree {count : Vector Word32 257} {t : Tree} (h : buildTree count = some t)
    (sym : Symbol) : sym ∈ treeSymbols t ↔ count[sym.val] ≠ 0 := by
  simp [(treeSymbols_buildTree h).mem_iff, presentSymbols]

/-! ### The transient state of DESER -/

/-- A result of DESER that is a tree has distinct leaf symbols (R28). -/
def DesResultOk (r : Except Error Tree) : Prop := ∀ t, r = .ok t → TreeOk t

theorem Des.begin_ok : Des.begin.Ok :=
  ⟨List.nodup_nil, .refl _, rfl, Nat.zero_le _, fun _ h => by cases h⟩

/-- A complete payload: the leaf's symbol is new, and the stack accounts for it (R131). -/
theorem Des.Ok.leaf {d : Des} (h : d.Ok) (hp : d.payload.isSome = true) (v : Nat) :
    Sum.elim Des.Ok DesResultOk (d.leaf v) := by
  unfold Des.leaf
  split
  · rename_i hv
    split
    · rintro t ⟨⟩
    · rename_i hnew
      have hnodup : ((⟨v, hv⟩ : Symbol) :: d.seen).Nodup := List.nodup_cons.mpr ⟨hnew, h.seen_nodup⟩
      have hseen : (⟨v, hv⟩ :: d.seen).Perm (treeSymbols (.leaf ⟨v, hv⟩) ++ stackSymbols d.stack) :=
        h.seen_stack.cons _
      rcases climb_cases d.stack (.leaf ⟨v, hv⟩) with ⟨t, hc, ht⟩ | ⟨k, hc, hk, hnodes⟩
      · rw [hc]
        rintro _ ⟨⟩
        exact (hseen.trans ht.symm).nodup_iff.mp hnodup
      · rw [hc]
        refine ⟨hnodup, hseen.trans hk.symm, ?_, h.count_le, fun p hp => by cases hp⟩
        have := h.count_stack
        simp [hp, hnodes, treeNodes] at this ⊢
        omega
  · rintro t ⟨⟩

/-- One ReadBit of DESER keeps its transient state consistent, and a tree it completes has distinct leaf symbols
(R131). -/
theorem Des.Ok.bit {d : Des} (b : Bool) (h : d.Ok) : Sum.elim Des.Ok DesResultOk (d.bit b) := by
  unfold Des.bit
  split
  · rename_i hp
    have hcount := h.count_stack
    simp only [hp] at hcount
    split
    · rintro t ⟨⟩
    · rename_i hcap
      split
      · exact ⟨h.seen_nodup, h.seen_stack, by simp [hcount, hp, stackNodes], by simpa using hcap,
          fun p h' => by simp [hp] at h'⟩
      · exact ⟨h.seen_nodup, h.seen_stack, by simp [hcount], by simpa using hcap, by simp⟩
  · rename_i p hp
    split
    · rename_i hlen
      refine ⟨h.seen_nodup, h.seen_stack, by simpa [hp] using h.count_stack, h.count_le, ?_⟩
      rintro _ ⟨⟩
      simpa using hlen
    · exact h.leaf (by simp [hp]) _

end Sys2Proof.Machine
end

section
/-!
PROOFS. The frequency table through FACC and FFIN (10_state.md R23 to R25, 40_frequency.md R110, R111).
-/

namespace Sys2Proof.Machine

/-- The greatest count as a number, for a COUNT_WIDTH in range (R23). -/
theorem maxCount_toNat {w : Nat} (hw : w ≤ 32) : (maxCount w).toNat = 2 ^ w - 1 := by
  have hle : 2 ^ w ≤ 2 ^ 32 := Nat.pow_le_pow_right (by omega) hw
  have hpos : 0 < 2 ^ w := Nat.two_pow_pos w
  rw [maxCount, BitVec.toNat_ofNat, Nat.mod_eq_of_lt (by omega)]

/-- The pseudo-EOF entry's count 1 is below the greatest count (R111). -/
theorem one_lt_maxCount {w : Nat} (hw : Config.countWidthOk w) : 1 < maxCount w := by
  have hle : 2 ^ 8 ≤ 2 ^ w := Nat.pow_le_pow_right (by omega) hw.1
  rw [BitVec.lt_def, maxCount_toNat hw.2]
  change 1 < 2 ^ w - 1
  omega

/-- The symbol of a byte is not the pseudo-EOF symbol (R91). -/
theorem literal_ne_eof (b : Byte) : (literal b).val ≠ 256 := by
  have := b.isLt
  simp only [literal]
  omega

theorem FreqOk.of_eq {s t : State} (h : FreqOk s) (hf : t.freq = s.freq) (hp : t.params = s.params) : FreqOk t := by
  obtain ⟨hle, heof, hsat⟩ := h
  constructor <;> simpa only [hf, hp]

/-- FACC changes nothing but the frequency table (R110). -/
theorem countSymbol_eq (sym : Symbol) (s : State) : countSymbol sym s = { s with freq := (countSymbol sym s).freq } := by
  unfold countSymbol
  split <;> rfl

/-- FFIN changes nothing but the frequency table (R111). -/
theorem finalizeFreq_eq (s : State) : finalizeFreq s = { s with freq := (finalizeFreq s).freq } := by
  unfold finalizeFreq
  split <;> rfl

/-- FACC counts up to the greatest count, then sets FREQ_SAT (R110). -/
theorem FreqOk.countSymbol {s : State} (h : FreqOk s) {sym : Symbol} (hsym : sym.val ≠ 256) :
    FreqOk (countSymbol sym s) := by
  unfold Machine.countSymbol
  split
  · rename_i hmax
    exact ⟨h.le_max, h.eof_entry, fun _ => ⟨sym, hmax⟩⟩
  · rename_i hlt
    have hle := h.le_max sym
    refine ⟨fun x => ?_, ?_, fun hsat => ?_⟩
    · simp only [Vector.getElem_set]
      split
      · bv_omega
      · exact h.le_max x
    · simpa only [Vector.getElem_set_ne _ _ hsym] using h.eof_entry
    · obtain ⟨x, hx⟩ := h.saturated hsat
      refine ⟨x, ?_⟩
      have hne : sym.val ≠ x.val := fun he => hlt (by simpa only [he] using hx)
      simpa only [Vector.getElem_set_ne _ _ hne] using hx

/-- FFIN makes the pseudo-EOF entry 1 and the table final (R111). -/
theorem FreqOk.finalizeFreq {s : State} (hw : ParamsOk s) (h : FreqOk s) : FreqOk (finalizeFreq s) := by
  unfold Machine.finalizeFreq
  split
  · exact h
  · rename_i hf
    have heof : s.freq.count[256] = 0 := by rw [h.eof_entry, if_neg hf]
    have hone := one_lt_maxCount hw
    have hins : insertEof s.freq = { s.freq with count := s.freq.count.set 256 1 } := if_pos heof
    rw [hins]
    refine ⟨fun x => ?_, by simp, fun hsat => ?_⟩
    · simp only [Vector.getElem_set]
      split
      · exact BitVec.le_of_lt hone
      · exact h.le_max x
    · obtain ⟨x, hx⟩ := h.saturated hsat
      refine ⟨x, ?_⟩
      have hne : 256 ≠ x.val := by
        intro he
        simp only [← he] at hx
        rw [← hx, heof] at hone
        exact absurd hone (by decide)
      simpa only [Vector.getElem_set_ne _ _ hne] using hx

end Sys2Proof.Machine
end

section
/-!
PROOFS. The invariant of the machine (10_state.md R23 to R37, R43; 60_exceptions.md R207) through each shared operation,
each command and each step.
-/

namespace Sys2Proof.Machine

/-! ### The parts of the invariant depend on their own fields -/

theorem TreeRegOk.of_eq {s t : State} (h : TreeRegOk s) (ht : t.tree = s.tree) : TreeRegOk t := by
  obtain ⟨hdistinct, hsrc, heof⟩ := h
  constructor <;> simpa only [ht]

theorem CodesOk.of_eq {s t : State} (h : CodesOk s) (ht : t.tree = s.tree) (hc : t.codes = s.codes) : CodesOk t := by
  obtain ⟨htable, hempty, hdone⟩ := h
  constructor <;> simpa only [codeOf, ht, hc]

theorem DecOk.of_eq {s t : State} (h : DecOk s) (ht : t.tree = s.tree) (hd : t.dec = s.dec) : DecOk t := by
  obtain ⟨hkind, hnone⟩ := h
  constructor <;> simpa only [ht, hd]

theorem ErrOk.of_eq {s t : State} (h : ErrOk s) (he : t.error = s.error) : ErrOk t := by
  obtain ⟨hcode, hclean⟩ := h
  constructor <;> simpa only [he]

theorem Wait.Ok.of_eq {s t : State} {k : Wait} (h : k.Ok s) (ht : t.tree = s.tree) (hc : t.codes = s.codes)
    (hd : t.dec = s.dec) : k.Ok t := by
  cases k <;> simpa only [Wait.Ok, codeOf, ht, hc, hd] using h

theorem heldOk_of_idle {s : State} (hi : s.inflight = none) : HeldOk s := fun f hf => by
  rw [hi] at hf
  cases hf

theorem State.Inv.of_eq {s t : State} (h : s.Inv) (hf : t.freq = s.freq) (ht : t.tree = s.tree)
    (hc : t.codes = s.codes) (hd : t.dec = s.dec) (he : t.error = s.error) (hp : t.params = s.params)
    (hi : t.inflight = s.inflight) : t.Inv where
  params := by rw [ParamsOk, hp]; exact h.params
  freq := h.freq.of_eq hf hp
  tree := h.tree.of_eq ht
  codes := h.codes.of_eq ht hc
  dec := h.dec.of_eq ht hd
  error := h.error.of_eq he
  held f hf := by
    rw [hi] at hf
    obtain ⟨herr, hk⟩ := h.held f hf
    exact ⟨by rw [he]; exact herr, hk.of_eq ht hc hd⟩

/-! ### The shared operations -/

theorem State.Inv.acceptCommand {s : State} (h : s.Inv) (ws : List Word16) : (acceptCommand ws s).Inv :=
  h.of_eq rfl rfl rfl rfl rfl rfl rfl

theorem State.Inv.tookBits {s : State} (h : s.Inv) (rest : Bits) (n : Nat) : (tookBits rest n s).Inv :=
  h.of_eq rfl rfl rfl rfl rfl rfl rfl

theorem State.Inv.appendBits {s : State} (h : s.Inv) (bs : Bits) : (appendBits bs s).Inv :=
  h.of_eq rfl rfl rfl rfl rfl rfl rfl

theorem State.Inv.appendByte {s : State} (h : s.Inv) (b : Byte) : (appendByte b s).Inv :=
  h.of_eq rfl rfl rfl rfl rfl rfl rfl

theorem complete_of_idle {s : State} (hi : s.inflight = none) : complete s = s := by
  cases s; cases hi; rfl

/-- A raise latches a non-zero ERR_CODE and ends the command (R202). -/
theorem State.Inv.raise {s : State} (h : s.Inv) (w : Word16) (e : Error) : (raise w e s).Inv :=
  ⟨h.params, h.freq.of_eq rfl rfl, h.tree.of_eq rfl, h.codes.of_eq rfl rfl, h.dec.of_eq rfl rfl,
    ⟨iff_of_true rfl e.code_ne_zero, fun he => by cases he⟩, heldOk_of_idle rfl⟩

/-- A command dropped while ERR = 1 (R203). -/
theorem State.Inv.dropped {s : State} (h : s.Inv) (hi : s.inflight = none) (he : s.error.err = true) :
    ({ s with error := { s.error with dropped := true } } : State).Inv :=
  ⟨h.params, h.freq.of_eq rfl rfl, h.tree.of_eq rfl, h.codes.of_eq rfl rfl, h.dec.of_eq rfl rfl,
    ⟨h.error.err_code, fun he' => by rw [he] at he'; cases he'⟩, heldOk_of_idle hi⟩

theorem State.Inv.hold {s : State} (h : s.Inv) (w : Word16) {k : Wait} (he : s.error.err = false) (hk : k.Ok s) :
    (hold w k s).Inv :=
  ⟨h.params, h.freq.of_eq rfl rfl, h.tree.of_eq rfl, h.codes.of_eq rfl rfl, h.dec.of_eq rfl rfl, h.error.of_eq rfl,
    fun _ hf => by cases hf; exact ⟨he, hk.of_eq rfl rfl rfl⟩⟩

/-- The reset values meet the invariant (R44). -/
theorem inv_cleared {s : State} (hp : ParamsOk s) : (cleared s).Inv where
  params := hp
  freq := ⟨by simp [State.reset, BitVec.le_def], by simp [State.reset], fun h => by cases h⟩
  tree := ⟨fun _ h => (by cases h), fun _ => rfl, fun _ h => by cases h⟩
  codes := ⟨fun h => (by cases h), fun _ => rfl, fun h => by cases h⟩
  dec := ⟨by simp [State.reset], fun _ => rfl⟩
  error := ⟨by simp [State.reset], fun _ => rfl⟩
  held := heldOk_of_idle rfl

/-- Settles O6: the state after reset is a cleared one with the default parameters. -/
theorem invariantAtReset : Obligations.InvariantAtReset :=
  inv_cleared (s := State.reset) ⟨by decide, by decide⟩

/-- A command that ends with an outcome in DEC_RESULT, while there is a tree (R170). -/
theorem State.Inv.complete_setDec {s : State} (h : s.Inv) {done : Bool} {r : DecResult}
    (hr : done = true ↔ r = .eof ∨ r = .exhausted) (ht : s.tree.value ≠ none) :
    (complete (setDec done r s)).Inv :=
  ⟨h.params, h.freq.of_eq rfl rfl, h.tree.of_eq rfl, h.codes.of_eq rfl rfl, ⟨hr, fun hn => absurd hn ht⟩,
    h.error.of_eq rfl, heldOk_of_idle rfl⟩

/-- The old tree's tables are dropped (R124, R130). -/
theorem State.Inv.dropTables {s : State} (h : s.Inv) (hi : s.inflight = none) : (dropTables s).Inv :=
  ⟨h.params, h.freq.of_eq rfl rfl, h.tree.of_eq rfl, ⟨fun hv => (by cases hv), fun _ => rfl, fun hd => by cases hd⟩,
    ⟨by simp, fun _ => rfl⟩, h.error.of_eq rfl, heldOk_of_idle hi⟩

/-- A new tree, or none, is written while no table and no decoder outcome of an old one is left (R124, R130, R133). -/
theorem State.Inv.complete_setTree {s : State} (h : s.Inv) {t : Option Tree} {src : Bool}
    (hv : s.codes.valid = false) (hd : s.dec = ⟨false, .none⟩) (ht : TreeRegOk (setTree t src s)) :
    (complete (setTree t src s)).Inv := by
  have hv' : ¬ s.codes.valid = true := by simp [hv]
  exact ⟨h.params, h.freq.of_eq rfl rfl, ht.of_eq rfl,
    ⟨fun hv => absurd hv hv', h.codes.empty, fun hdone => absurd (h.codes.finished hdone).1 hv'⟩,
    ⟨h.dec.done_kind, fun _ => hd⟩, h.error.of_eq rfl, heldOk_of_idle rfl⟩

/-! ### Writing -/

/-- A command's last WriteBit; EEOF, which has written the pseudo-EOF code, sets ENC_DONE (R161). -/
theorem State.Inv.finishBits {s : State} (h : s.Inv) {bs : Bits} {finish : Bool} (hk : (Wait.bits bs finish).Ok s) :
    (finishBits finish s).Inv := by
  refine ⟨h.params, h.freq.of_eq rfl rfl, h.tree.of_eq rfl, ⟨h.codes.of_tree, h.codes.empty, fun hdone => ?_⟩,
    h.dec.of_eq rfl rfl, h.error.of_eq rfl, heldOk_of_idle rfl⟩
  rcases Bool.or_eq_true_iff.mp hdone with hdone | hfin
  · exact h.codes.finished hdone
  · obtain ⟨hvalid, -, heof⟩ := hk hfin
    exact ⟨hvalid, heof⟩

theorem State.Inv.writeBits {s : State} (h : s.Inv) (w : Word16) {bs : Bits} {finish : Bool}
    (he : s.error.err = false) (hk : (Wait.bits bs finish).Ok s) : (writeBits w bs finish s).Inv := by
  rcases writeBits_cases w bs finish s with ⟨-, hw⟩ | ⟨n, -, -, hw⟩ <;> rw [hw]
  · exact (h.appendBits bs).finishBits (bs := bs) hk
  · exact (h.appendBits _).hold w he hk

theorem State.Inv.emitByte {s : State} (h : s.Inv) (w : Word16) {b : Byte} (he : s.error.err = false)
    (hk : (Wait.byte b).Ok s) : (emitByte w b s).Inv := by
  rcases emitByte_cases w b s with ⟨-, hw⟩ | ⟨-, hw⟩ <;> rw [hw]
  · obtain ⟨hdone, htree⟩ := hk
    exact (h.appendByte b).complete_setDec (by simp [hdone]) htree
  · exact h.hold w he hk

/-! ### Reading -/

/-- The walk is at an internal node of the tree (R171). -/
def Walk.On (t : Tree) (k : Walk) : Prop := ∃ p, subtreeAt t p = some (.node k.left k.right)

/-- One ReadBit of DEC goes to a child in the tree, or finds a leaf of it (R171). -/
theorem Walk.On.bit {t : Tree} {k : Walk} (b : Bool) (h : k.On t) :
    Sum.elim (Walk.On t) (fun sym => ∃ p, subtreeAt t p = some (.leaf sym)) (k.bit b) := by
  obtain ⟨p, hp⟩ := h
  have hchild : subtreeAt t (p ++ [b]) = some (if b then k.right else k.left) := by
    rw [subtreeAt_append, hp]
    rfl
  unfold Walk.bit
  split <;> rename_i hc <;> rw [hc] at hchild <;> exact ⟨_, hchild⟩

theorem State.Inv.foundSymbol {s : State} (h : s.Inv) (w : Word16) (sym : Symbol) (he : s.error.err = false)
    (hdone : s.dec.done = false) (ht : s.tree.value ≠ none) : (foundSymbol w sym s).Inv := by
  unfold Machine.foundSymbol
  split
  · exact h.complete_setDec (by simp) ht
  · exact h.emitByte w he ⟨hdone, ht⟩

theorem State.Inv.runWalk {s : State} (h : s.Inv) (w : Word16) {k : Walk} (he : s.error.err = false)
    (hk : (Wait.walk k).Ok s) : (runWalk w k s).Inv := by
  obtain ⟨hdone, t, p, ht, hp⟩ := hk
  have htree : s.tree.value ≠ none := by simp [ht]
  have hwalk := feed_keeps (fun k b => Walk.On.bit (t := t) (k := k) b) ⟨p, hp⟩ s.ports.bitIn
  obtain ⟨taken, rest, -, ⟨sym, -, hw⟩ | ⟨k', -, -, -, -, -, -, hw⟩ | ⟨k', -, -, -, -, -, hw⟩ | ⟨k', -, hfeed, -, hw⟩⟩ :=
    runWalk_cases w k s <;> rw [hw]
  · exact (h.tookBits _ _).foundSymbol w sym he hdone htree
  · exact (h.tookBits _ _).complete_setDec (by simp) htree
  · exact (h.tookBits _ _).raise w _
  · rw [hfeed] at hwalk
    obtain ⟨p', hp'⟩ := hwalk
    exact (h.tookBits _ _).hold w he ⟨hdone, t, p', ht, hp'⟩

theorem State.Inv.runDes {s : State} (h : s.Inv) (w : Word16) {d : Des} (he : s.error.err = false)
    (hk : (Wait.des d).Ok s) : (runDes w d s).Inv := by
  obtain ⟨htree, hdec, hvalid, hd⟩ := hk
  have hdes := feed_keeps (fun d b => Des.Ok.bit (d := d) b) hd s.ports.bitIn
  obtain ⟨taken, rest, -, ⟨t, hfeed, hw⟩ | ⟨e, -, hw⟩ | ⟨d', -, -, hfeed, hw⟩⟩ := runDes_cases w d s <;> rw [hw]
  · rw [hfeed] at hdes
    refine (h.tookBits _ _).complete_setTree hvalid hdec ⟨?_, fun hn => (by cases hn), fun _ _ hs => by cases hs⟩
    rintro _ ⟨⟩
    exact hdes t rfl
  · exact (h.tookBits _ _).raise w e
  · rw [hfeed] at hdes
    exact (h.tookBits _ _).hold w he ⟨htree, hdec, hvalid, hdes⟩

/-! ### The commands -/

/-- An idle block's frequency table is written. -/
theorem State.Inv.setFreq {s : State} (h : s.Inv) (hi : s.inflight = none) {f : FreqFile}
    (hf : FreqOk { s with freq := f }) : ({ s with freq := f } : State).Inv :=
  ⟨h.params, hf, h.tree.of_eq rfl, h.codes.of_eq rfl rfl, h.dec.of_eq rfl rfl, h.error.of_eq rfl, heldOk_of_idle hi⟩

theorem State.Inv.countSymbol {s : State} (h : s.Inv) (hi : s.inflight = none) {sym : Symbol} (hsym : sym.val ≠ 256) :
    (countSymbol sym s).Inv := by
  have hfreq := h.freq.countSymbol hsym
  rw [countSymbol_eq] at hfreq ⊢
  exact h.setFreq hi hfreq

theorem State.Inv.finalizeFreq {s : State} (h : s.Inv) (hi : s.inflight = none) : (finalizeFreq s).Inv := by
  have hfreq := h.freq.finalizeFreq h.params
  rw [finalizeFreq_eq] at hfreq ⊢
  exact h.setFreq hi hfreq

theorem State.Inv.commitBuilt {s : State} (h : s.Inv) (hi : s.inflight = none) (hf : s.freq.final = true) {t : Tree}
    (ht : buildTree s.freq.count = some t) : (commitBuilt t s).Inv := by
  have heof : Config.eofSym ∈ treeSymbols t := by
    refine (mem_treeSymbols_buildTree ht _).mpr ?_
    have h1 : s.freq.count[256] = 1 := by rw [h.freq.eof_entry, if_pos hf]
    exact fun h0 => absurd (h1.symm.trans h0) (by decide)
  rw [← complete_of_idle (s := Machine.commitBuilt t s) hi]
  refine (h.dropTables hi).complete_setTree rfl rfl ⟨?_, fun hn => (by cases hn), ?_⟩
  · rintro _ ⟨⟩
    exact treeOk_buildTree ht
  · rintro _ ⟨⟩ -
    exact heof

/-- CGEN's table is that of the current tree (R150). -/
theorem State.Inv.setCodeTable {s : State} (h : s.Inv) (hi : s.inflight = none) {t : Tree}
    (ht : s.tree.value = some t) : ({ s with codes := ⟨codeTable t, true, false⟩ } : State).Inv :=
  ⟨h.params, h.freq.of_eq rfl rfl, h.tree.of_eq rfl,
    ⟨fun _ => ⟨t, ht, rfl⟩, fun hv => (by cases hv), fun hd => by cases hd⟩,
    h.dec.of_eq rfl rfl, h.error.of_eq rfl, heldOk_of_idle hi⟩

/-- ENC and EEOF; only EEOF writes the pseudo-EOF code and sets ENC_DONE (R160, R161). -/
theorem State.Inv.encodeSymbol {s : State} (h : s.Inv) (w : Word16) {sym : Symbol} {finish : Bool}
    (he : s.error.err = false) (hsym : finish = true → sym = Config.eofSym) :
    Answers State.Inv (encodeSymbol w sym finish s) := by
  refine answers_require (h.raise w _) fun hvalid => answers_require (h.raise w _) fun hdone => ?_
  cases hc : codeOf s sym with
  | none => exact answers_next (h.raise w _)
  | some c =>
    refine answers_next (h.writeBits w he fun hfin => ⟨hvalid, by simpa using hdone, ?_⟩)
    rw [← hsym hfin, hc]
    simp

theorem State.Inv.decodeOne {s : State} (h : s.Inv) (hi : s.inflight = none) (w : Word16) {t : Tree}
    (he : s.error.err = false) (ht : s.tree.value = some t) (hdone : s.dec.done = false) : (decodeOne w t s).Inv := by
  cases t with
  | leaf sym =>
    rw [Machine.decodeOne]
    split
    · rw [← complete_of_idle (s := setDec true .eof s) hi]
      exact h.complete_setDec (by simp) (by simp [ht])
    · exact h.raise w _
  | node l r => exact h.runWalk w he ⟨hdone, .node l r, [], ht, rfl⟩

/-- Every command of R92 run by an idle block keeps the invariant. -/
theorem State.Inv.exec {s : State} (h : s.Inv) (hi : s.inflight = none) (i : Instr) :
    Answers State.Inv (exec i s) := by
  cases i with
  | nop => exact answers_next h
  | clear => exact answers_next (inv_cleared h.params)
  | facc b =>
    rw [Machine.exec, execFacc]
    refine answers_unlessError (h.dropped hi) fun _ => answers_require (h.raise _ _) fun _ => answers_next ?_
    exact h.countSymbol hi (literal_ne_eof b)
  | ffin =>
    rw [Machine.exec, execFfin]
    exact answers_unlessError (h.dropped hi) fun _ => answers_next (h.finalizeFreq hi)
  | build =>
    rw [Machine.exec, execBuild]
    refine answers_unlessError (h.dropped hi) fun _ => answers_require (h.raise _ _) fun hf => ?_
    cases ht : buildTree s.freq.count with
    | some t => exact answers_next (h.commitBuilt hi hf ht)
    | none => rintro t ⟨⟩
  | deser =>
    rw [Machine.exec, execDeser]
    refine answers_unlessError (h.dropped hi) fun he => answers_next ?_
    refine State.Inv.runDes ?_ _ he ⟨rfl, rfl, rfl, Des.begin_ok⟩
    rw [← complete_of_idle (s := setTree none false (Machine.dropTables s)) hi]
    exact (h.dropTables hi).complete_setTree rfl rfl ⟨fun _ hn => (by cases hn), fun _ => rfl, fun _ hn => by cases hn⟩
  | ser =>
    rw [Machine.exec, execSer]
    refine answers_unlessError (h.dropped hi) fun he => ?_
    cases s.tree.value with
    | none => exact answers_next (h.raise _ _)
    | some t => exact answers_next (h.writeBits _ he fun hfin => by cases hfin)
  | cgen =>
    rw [Machine.exec, execCgen]
    refine answers_unlessError (h.dropped hi) fun he => ?_
    cases ht : s.tree.value with
    | none => exact answers_next (h.raise _ _)
    | some t => exact answers_next (h.setCodeTable hi ht)
  | enc b => exact answers_unlessError (h.dropped hi) fun he => h.encodeSymbol _ he fun hfin => by cases hfin
  | eeof => exact answers_unlessError (h.dropped hi) fun he => h.encodeSymbol _ he fun _ => rfl
  | dec =>
    rw [Machine.exec, execDec]
    refine answers_unlessError (h.dropped hi) fun he => ?_
    cases ht : s.tree.value with
    | none => exact answers_next (h.raise _ _)
    | some t =>
      exact answers_require (h.raise _ _) fun hdone => answers_next (h.decodeOne hi _ he ht (by simpa using hdone))

/-- A held command goes on from a transient state its own reads and writes led to (R43, R64). -/
theorem State.Inv.resume {s : State} (h : s.Inv) {f : InFlight} (hf : s.inflight = some f) : (resume f s).Inv := by
  obtain ⟨w, k⟩ := f
  obtain ⟨he, hk⟩ := h.held _ hf
  cases k with
  | des d => exact h.runDes w he hk
  | walk k => exact h.runWalk w he hk
  | bits rest finish => exact h.writeBits w he hk
  | byte b => exact h.emitByte w he hk

theorem State.Inv.step {s : State} (h : s.Inv) : Answers State.Inv (step s) := by
  rcases step_cases (s := s) rfl with
    ⟨f, hf, ho⟩ | ⟨-, -, ho⟩ | ⟨w, ws, i, hi, -, -, ho⟩ | ⟨w, ws, c, hi, -, -, ho⟩ <;> rw [ho]
  · exact answers_next (h.resume hf)
  · exact answers_next h
  · exact (h.acceptCommand ws).exec hi i
  · exact answers_unlessError ((h.acceptCommand ws).dropped hi) fun _ => answers_next ((h.acceptCommand ws).raise w _)

/-- Settles O7: each shared operation keeps the invariant, so each command, each held command's rest and each step
does. -/
theorem stepKeepsInvariant : Obligations.StepKeepsInvariant := fun _ _ h => h.step _

end Sys2Proof.Machine
end

section
/-!
PROOFS. Code lengths (10_state.md R28, 44_code_table.md R151, R152).
-/

namespace Sys2Proof.Machine

/-- What `gen` writes for a symbol is `p` and after it the path to a leaf that holds the symbol (R151). -/
theorem gen_eq_some {t : Tree} {p x : Bits} {code : Vector (Option Bits) 257} {sym : Symbol}
    (h : (gen t p code)[sym.val] = some x) :
    code[sym.val] = some x ∨ ∃ q, x = p ++ q ∧ subtreeAt t q = some (.leaf sym) := by
  induction t generalizing p code with
  | leaf s =>
    simp only [gen, Vector.getElem_set] at h
    split at h
    · rename_i hs
      exact .inr ⟨[], by simpa using (Option.some.inj h).symm, by simp [subtreeAt, Fin.ext_iff, hs]⟩
    · exact .inl h
  | node l r ihl ihr =>
    rcases ihr h with h | ⟨q, hx, hq⟩
    · rcases ihl h with h | ⟨q, hx, hq⟩
      · exact .inl h
      · exact .inr ⟨false :: q, by simp [hx], hq⟩
    · exact .inr ⟨true :: q, by simp [hx], hq⟩

/-- A code is the path to a leaf that holds its symbol (R151). -/
theorem subtreeAt_of_codeTable {t : Tree} {c : Bits} {sym : Symbol} (h : (codeTable t)[sym.val] = some c) :
    subtreeAt t c = some (.leaf sym) := by
  rcases gen_eq_some h with h | ⟨q, hx, hq⟩
  · simp at h
  · rwa [hx]

/-- Settles O38: a code is a path to a leaf, a path is no longer than the depth, and the depth is below the number of
leaves, which are at most as many as symbols. -/
theorem codeLengthBound : Obligations.CodeLengthBound := by
  intro t ht
  have hleaves := treeLeaves_le ht
  have hnodes := treeNodes_succ t
  have hdepth := treeDepth_lt t
  refine ⟨by omega, hleaves, by omega, fun sym c hc => ?_⟩
  have hpath := subtreeAt_depth (subtreeAt_of_codeTable hc)
  omega

end Sys2Proof.Machine
end

section
/-!
PROOFS. A word that decodes to a command has the command's fields (30_encoding.md R90, R92, R93).
-/

namespace Sys2Proof

/-- The three checks of R93 all pass. -/
theorem illegal?_eq_none {f : Fields} (h : f.illegal? = none) : f.opOk = true ∧ f.rsvOk = true ∧ f.argOk = true := by
  unfold Fields.illegal? at h
  split at h <;> rename_i hop
  · split at h <;> rename_i hrsv
    · split at h <;> rename_i harg
      · exact ⟨hop, hrsv, harg⟩
      · cases h
    · cases h
  · cases h

/-- A word that decodes to a command passes the checks, and its OP names the command (R97). -/
theorem decode_eq_legal {w : Word16} {i : Instr} (h : decode w = .legal i) :
    (fieldsOf w).illegal? = none ∧ operation (fieldsOf w).op (fieldsOf w).arg = some i := by
  unfold decode at h
  split at h
  · cases h
  · rename_i hlegal
    split at h
    · rename_i j hop
      cases h
      exact ⟨hlegal, hop⟩
    · cases h

/-- The command of an OP value has that OP, and ARG as its operand if it has one (R91, R92). -/
theorem operation_fields {op : BitVec 4} {arg : Byte} {i : Instr} (h : operation op arg = some i) :
    i.fields = ⟨op, 0, if op == 2 || op == 8 then arg else 0⟩ := by
  unfold operation at h
  split at h <;> cases h
  all_goals
    rename_i hop
    have hop := congrArg (BitVec.ofNat 4) hop
    simp only [BitVec.ofNat_toNat, BitVec.setWidth_eq] at hop
    subst hop
    rfl

theorem fieldsOf_of_decode {w : Word16} {i : Instr} (h : decode w = .legal i) : fieldsOf w = i.fields := by
  obtain ⟨hlegal, hop⟩ := decode_eq_legal h
  obtain ⟨-, hrsv, harg⟩ := illegal?_eq_none hlegal
  rw [operation_fields hop]
  generalize fieldsOf w = f at *
  obtain ⟨op, rsv, arg⟩ := f
  have hrsv : rsv = 0 := by simpa [Fields.rsvOk] using hrsv
  subst hrsv
  have harg : (op == 2 || op == 8) = true ∨ arg = 0 := by simpa [Fields.argOk, Fields.takesArg] using harg
  rcases harg with htakes | rfl
  · rw [if_pos htakes]
  · rw [ite_self]

/-- A word that decodes to a command is the command's own word (R92). -/
theorem word_of_decode {w : Word16} {i : Instr} (h : decode w = .legal i) : w = encode i := by
  rw [encode, ← fieldsOf_of_decode h, assembleWord_fieldsOf]

end Sys2Proof
end

section
/-!
PROOFS. What moves on the streams in a step, and the counters that count it (10_state.md R39; 20_memory.md R61 to R63;
70_reset_and_hazards.md R250).
-/

namespace Sys2Proof.Machine

/-- From `s` to `t` bits are taken from the front of BIT_IN, BIT_OUT and BYTE_OUT grow at their end, and the counters
count exactly that; END and CMD stay. -/
structure Transfers (s t : State) : Prop where
  bitIn : ∃ taken, s.ports.bitIn = taken ++ t.ports.bitIn ∧
    t.counters.inBits = s.counters.inBits + BitVec.ofNat 32 taken.length
  bitOut : ∃ out, t.ports.bitOut = s.ports.bitOut ++ out ∧
    t.counters.outBits = s.counters.outBits + BitVec.ofNat 32 out.length
  byteOut : ∃ bytes, t.ports.byteOut = s.ports.byteOut ++ bytes ∧
    t.counters.outBytes = s.counters.outBytes + BitVec.ofNat 32 bytes.length
  bitInEnd : t.ports.bitInEnd = s.ports.bitInEnd
  cmd : t.ports.cmd = s.ports.cmd

theorem Transfers.refl (s : State) : Transfers s s :=
  ⟨⟨[], by simp⟩, ⟨[], by simp⟩, ⟨[], by simp⟩, rfl, rfl⟩

theorem Transfers.trans {s t u : State} (h : Transfers s t) (h' : Transfers t u) : Transfers s u := by
  obtain ⟨⟨taken, hin, hinBits⟩, ⟨out, hout, houtBits⟩, ⟨bytes, hbyte, hbytes⟩, hend, hcmd⟩ := h
  obtain ⟨⟨taken', hin', hinBits'⟩, ⟨out', hout', houtBits'⟩, ⟨bytes', hbyte', hbytes'⟩, hend', hcmd'⟩ := h'
  refine ⟨⟨taken ++ taken', ?_, ?_⟩, ⟨out ++ out', ?_, ?_⟩, ⟨bytes ++ bytes', ?_, ?_⟩, hend'.trans hend, hcmd'.trans hcmd⟩
  · rw [hin, hin', List.append_assoc]
  · rw [hinBits', hinBits, List.length_append, BitVec.ofNat_add, BitVec.add_assoc]
  · rw [hout', hout, List.append_assoc]
  · rw [houtBits', houtBits, List.length_append, BitVec.ofNat_add, BitVec.add_assoc]
  · rw [hbyte', hbyte, List.append_assoc]
  · rw [hbytes', hbytes, List.length_append, BitVec.ofNat_add, BitVec.add_assoc]

/-- Nothing moves where neither the ports nor the counters change. -/
theorem Transfers.of_eq {s t u : State} (h : Transfers s t) (hp : u.ports = t.ports)
    (hc : u.counters = t.counters) : Transfers s u := by
  obtain ⟨hin, hout, hbyte, hend, hcmd⟩ := h
  constructor <;> simpa only [hp, hc]

theorem transfers_tookBits {s : State} {taken rest : Bits} (h : s.ports.bitIn = taken ++ rest) :
    Transfers s (tookBits rest taken.length s) :=
  ⟨⟨taken, h, rfl⟩, ⟨[], by simp⟩, ⟨[], by simp⟩, rfl, rfl⟩

theorem transfers_appendBits (bs : Bits) (s : State) : Transfers s (appendBits bs s) :=
  ⟨⟨[], by simp⟩, ⟨bs, rfl, rfl⟩, ⟨[], by simp⟩, rfl, rfl⟩

theorem transfers_appendByte (b : Byte) (s : State) : Transfers s (appendByte b s) :=
  ⟨⟨[], by simp⟩, ⟨[], by simp⟩, ⟨[b], rfl, rfl⟩, rfl, rfl⟩

/-! ### The operations that use a stream -/

theorem transfers_runDes (w : Word16) (d : Des) (s : State) : Transfers s (runDes w d s) := by
  obtain ⟨taken, rest, hin, ⟨t, -, hw⟩ | ⟨e, -, hw⟩ | ⟨d', rfl, -, -, hw⟩⟩ := runDes_cases w d s <;> rw [hw] <;>
    exact (transfers_tookBits hin).of_eq rfl rfl

theorem transfers_writeBits (w : Word16) (bs : Bits) (finish : Bool) (s : State) :
    Transfers s (writeBits w bs finish s) := by
  rcases writeBits_cases w bs finish s with ⟨-, hw⟩ | ⟨n, -, -, hw⟩ <;> rw [hw] <;>
    exact (transfers_appendBits _ s).of_eq rfl rfl

theorem transfers_emitByte (w : Word16) (b : Byte) (s : State) : Transfers s (emitByte w b s) := by
  rcases emitByte_cases w b s with ⟨-, hw⟩ | ⟨-, hw⟩ <;> rw [hw]
  · exact (transfers_appendByte b s).of_eq rfl rfl
  · exact (Transfers.refl s).of_eq rfl rfl

theorem transfers_foundSymbol (w : Word16) (sym : Symbol) (s : State) : Transfers s (foundSymbol w sym s) := by
  unfold foundSymbol
  split
  · exact (Transfers.refl s).of_eq rfl rfl
  · exact transfers_emitByte w _ s

theorem transfers_runWalk (w : Word16) (k : Walk) (s : State) : Transfers s (runWalk w k s) := by
  obtain ⟨taken, rest, hin, hcases⟩ := runWalk_cases w k s
  have htook := transfers_tookBits hin
  rcases hcases with ⟨sym, -, hw⟩ | ⟨k', rfl, -, -, -, -, -, hw⟩ | ⟨k', rfl, -, -, -, -, hw⟩ | ⟨k', rfl, -, -, hw⟩ <;>
    rw [hw]
  · exact htook.trans (transfers_foundSymbol w sym _)
  · exact htook.of_eq rfl rfl
  · exact htook.of_eq rfl rfl
  · exact htook.of_eq rfl rfl

theorem transfers_decodeOne (w : Word16) (t : Tree) (s : State) : Transfers s (decodeOne w t s) := by
  cases t with
  | leaf sym =>
    rw [decodeOne]
    split <;> exact (Transfers.refl s).of_eq rfl rfl
  | node l r => exact transfers_runWalk w _ s

theorem transfers_resume (f : InFlight) (s : State) : Transfers s (resume f s) := by
  obtain ⟨w, k⟩ := f
  cases k with
  | des d => exact transfers_runDes w d s
  | walk k => exact transfers_runWalk w k s
  | bits rest finish => exact transfers_writeBits w rest finish s
  | byte b => exact transfers_emitByte w b s

/-! ### The commands -/

theorem transfers_raise (w : Word16) (e : Error) (s : State) : Transfers s (raise w e s) :=
  (Transfers.refl s).of_eq rfl rfl

/-- A dropped command moves nothing. -/
theorem transfers_unlessError {s : State} {run : State → Res} (h : Answers (Transfers s) (run s)) :
    Answers (Transfers s) (unlessError s run) :=
  answers_unlessError (fun _ => (Transfers.refl s).of_eq rfl rfl) fun _ => h

theorem transfers_illegalCommand (w : Word16) (c : Illegal) (s : State) :
    Answers (Transfers s) (illegalCommand w c s) := by
  rw [illegalCommand]
  exact transfers_unlessError (answers_next (transfers_raise w _ s))

theorem transfers_encodeSymbol (w : Word16) (sym : Symbol) (finish : Bool) (s : State) :
    Answers (Transfers s) (encodeSymbol w sym finish s) := by
  refine answers_require (transfers_raise w _ s) fun _ => answers_require (transfers_raise w _ s) fun _ => ?_
  cases codeOf s sym with
  | none => exact answers_next (transfers_raise w _ s)
  | some c => exact answers_next (transfers_writeBits w c finish s)

/-- Every command but CLEAR counts what it moves. -/
theorem transfers_exec {i : Instr} (hi : i ≠ .clear) (s : State) : Answers (Transfers s) (exec i s) := by
  have hsame := Transfers.refl s
  cases i with
  | clear => exact absurd rfl hi
  | nop => exact answers_next hsame
  | facc b =>
    rw [exec, execFacc]
    refine transfers_unlessError (answers_require (transfers_raise _ _ s) fun _ => answers_next ?_)
    rw [countSymbol_eq]
    exact hsame.of_eq rfl rfl
  | ffin =>
    rw [exec, execFfin]
    refine transfers_unlessError (answers_next ?_)
    rw [finalizeFreq_eq]
    exact hsame.of_eq rfl rfl
  | build =>
    rw [exec, execBuild]
    refine transfers_unlessError (answers_require (transfers_raise _ _ s) fun _ => ?_)
    cases buildTree s.freq.count with
    | some t => exact answers_next (hsame.of_eq rfl rfl)
    | none => rintro t ⟨⟩
  | deser =>
    rw [exec, execDeser]
    have hdropped : Transfers s (setTree none false (dropTables s)) := hsame.of_eq rfl rfl
    exact transfers_unlessError (answers_next (hdropped.trans (transfers_runDes _ _ _)))
  | ser =>
    rw [exec, execSer]
    refine transfers_unlessError ?_
    cases s.tree.value with
    | none => exact answers_next (transfers_raise _ _ s)
    | some t => exact answers_next (transfers_writeBits _ _ _ s)
  | cgen =>
    rw [exec, execCgen]
    refine transfers_unlessError ?_
    cases s.tree.value with
    | none => exact answers_next (transfers_raise _ _ s)
    | some t => exact answers_next (hsame.of_eq rfl rfl)
  | enc b => exact transfers_unlessError (transfers_encodeSymbol _ _ _ s)
  | eeof => exact transfers_unlessError (transfers_encodeSymbol _ _ _ s)
  | dec =>
    rw [exec, execDec]
    refine transfers_unlessError ?_
    cases s.tree.value with
    | none => exact answers_next (transfers_raise _ _ s)
    | some t => exact answers_require (transfers_raise _ _ s) fun _ => answers_next (transfers_decodeOne _ t s)

/-- A step counts what it moves, on the state without the word it accepted, if it accepted one; or it runs CLEAR. -/
theorem step_transfers {s t : State} (h : step s = .next t) :
    (∃ ws, ws = (if s.busy then s.ports.cmd else s.ports.cmd.tail) ∧ Transfers (acceptCommand ws s) t) ∨
    (∃ ws, s.busy = false ∧ s.ports.cmd = 0x1000 :: ws ∧ t = cleared (acceptCommand ws s)) := by
  rcases step_cases h with ⟨f, hf, ho⟩ | ⟨hi, hc, ho⟩ | ⟨w, ws, i, hi, hc, hd, ho⟩ | ⟨w, ws, c, hi, hc, -, ho⟩
  · cases ho
    exact .inl ⟨s.ports.cmd, by simp [State.busy, hf], transfers_resume f s⟩
  · cases ho
    exact .inl ⟨s.ports.cmd, by simp [State.busy, hi, hc], .refl s⟩
  · by_cases hclear : i = .clear
    · subst hclear
      cases ho
      exact .inr ⟨ws, by simp [State.busy, hi], by rw [hc, word_of_decode hd]; rfl, rfl⟩
    · exact .inl ⟨ws, by simp [State.busy, hi, hc], transfers_exec hclear _ t ho.symm⟩
  · exact .inl ⟨ws, by simp [State.busy, hi, hc], transfers_illegalCommand w c _ t ho.symm⟩

/-- Settles O49: each operation that uses a stream counts what it moves, and no other one but CLEAR changes the streams
or the counters. -/
theorem countersCountTransfers : Obligations.CountersCountTransfers := by
  intro s t h
  rcases step_transfers h with ⟨ws, hws, htransfers⟩ | ⟨ws, hbusy, hcmd, rfl⟩
  · obtain ⟨⟨taken, hin, hinBits⟩, ⟨out, hout, houtBits⟩, ⟨bytes, hbyte, hbytes⟩, hend, hcmd⟩ := htransfers
    exact ⟨taken, out, bytes, hin, hout, hbyte, hend, hcmd.trans hws, .inl ⟨hinBits, houtBits, hbytes⟩⟩
  · exact ⟨[], [], [], by simp, by simp, by simp, by simp, by simp [hbusy, hcmd],
      .inr ⟨hbusy, by simp [hcmd], rfl, rfl, rfl, rfl⟩⟩

end Sys2Proof.Machine
end


section
/-!
PROOFS. The registers computed from the state, as fields side by side (10_state.md R33, R34, R40 to R42), and the reset
values (R44).
-/

namespace Sys2Proof.Machine

/-- A field of a register, from bit `k` up. -/
def fieldAt {n : Nat} (x : BitVec n) (k : Nat) : Word32 := x.setWidth 32 <<< k

theorem fieldAt_zero {n : Nat} (x : BitVec n) : fieldAt x 0 = x.setWidth 32 := BitVec.shiftLeft_zero _

theorem flagAt_eq_fieldAt (b : Bool) (k : Nat) : flagAt b k = fieldAt (BitVec.ofBool b) k := rfl

theorem fieldAt_getLsbD {n : Nat} (x : BitVec n) (k j : Nat) :
    (fieldAt x k).getLsbD j = (decide (k ≤ j ∧ j < 32) && x.getLsbD (j - k)) := by
  rw [fieldAt, BitVec.getLsbD_shiftLeft, BitVec.getLsbD_setWidth]
  by_cases hk : k ≤ j
  · have hlt : j < 32 → j - k < 32 := by omega
    by_cases hj : j < 32 <;> simp [hk, hj, hlt]
  · simp [hk, Nat.lt_of_not_le hk]

/-- A field read where it lies. -/
theorem extractLsb'_fieldAt {n : Nat} (x : BitVec n) {k : Nat} (h : k + n ≤ 32) : (fieldAt x k).extractLsb' k n = x := by
  refine BitVec.eq_of_getLsbD_eq fun j hj => ?_
  have hj' : k + j < 32 := by omega
  rw [BitVec.getLsbD_extractLsb', fieldAt_getLsbD, Nat.add_sub_cancel_left]
  simp [hj, hj']

/-- A field leaves the bits beside it 0. -/
theorem extractLsb'_fieldAt_apart {n : Nat} (x : BitVec n) {k start len : Nat}
    (h : start + len ≤ k ∨ k + n ≤ start) : (fieldAt x k).extractLsb' start len = 0#len := by
  refine BitVec.eq_of_getLsbD_eq fun j hj => ?_
  rw [BitVec.getLsbD_extractLsb', fieldAt_getLsbD]
  rcases h with h | h
  · have hk : ¬ k ≤ start + j := by omega
    simp [hk]
  · simp [BitVec.getLsbD_of_ge x (start + j - k) (by omega)]

/-! ### The registers as fields -/

theorem DecResult.byte_word (b : Byte) : (DecResult.byte b).word = fieldAt (1 : BitVec 24) 8 ||| fieldAt b 0 := by
  rw [fieldAt_zero]
  rfl

theorem treeInfo_of_tree {s : State} {t : Tree} (ht : s.tree.value = some t) :
    s.treeInfo = fieldAt (BitVec.ofNat 9 (treeLeaves t)) 0 ||| fieldAt (BitVec.ofNat 10 (treeNodes t)) 16 := by
  rw [State.treeInfo, ht, fieldAt_zero]
  rfl

theorem paramWord_eq (s : State) : s.paramWord =
    fieldAt (BitVec.ofNat 8 s.params.countWidth) 0 ||| fieldAt (513 : BitVec 10) 8 ||| fieldAt (256 : BitVec 9) 18 := by
  rw [State.paramWord, fieldAt_zero]
  rfl

/-- Settles O54: STATUS is the flags side by side. -/
theorem statusFields : Obligations.StatusFields := by
  refine ⟨rfl, fun s => ?_⟩
  have hreserved : s.status.extractLsb' 10 22 = 0 := by
    simp (disch := omega) only [State.status, flagAt_eq_fieldAt, BitVec.extractLsb'_or, extractLsb'_fieldAt_apart,
      BitVec.or_self]
    rfl
  refine ⟨?_, ?_, ?_, ?_, ?_, ?_, ?_, ?_, ?_, ?_, hreserved⟩
  all_goals
    simp only [State.status, flagAt_eq_fieldAt, BitVec.getLsbD_or, fieldAt_getLsbD, BitVec.getLsbD_ofBool]
    simp [Option.isSome_iff_ne_none]

/-- Settles O58: each view is its fields side by side, and the leaves and nodes of a legal tree fit in theirs. -/
theorem registerViews : Obligations.RegisterViews := by
  refine ⟨⟨rfl, rfl, rfl, fun b => ?_⟩, fun s ht => by rw [State.treeInfo, ht], fun s t ht hok => ?_, fun s hp => ?_, rfl, rfl⟩
  · rw [DecResult.byte_word]
    simp (disch := omega) only [BitVec.extractLsb'_or, extractLsb'_fieldAt, extractLsb'_fieldAt_apart, BitVec.zero_or,
      BitVec.or_zero, and_self]
  · have hleaves := treeLeaves_le hok
    have hnodes := treeNodes_succ t
    have hleaves9 : (BitVec.ofNat 9 (treeLeaves t)).toNat = treeLeaves t := by rw [BitVec.toNat_ofNat]; omega
    have hnodes10 : (BitVec.ofNat 10 (treeNodes t)).toNat = 2 * treeLeaves t - 1 := by rw [BitVec.toNat_ofNat]; omega
    rw [treeInfo_of_tree ht]
    simp (disch := omega) only [BitVec.extractLsb'_or, extractLsb'_fieldAt, extractLsb'_fieldAt_apart, BitVec.zero_or,
      BitVec.or_zero]
    exact ⟨hleaves9, rfl, hnodes10, rfl⟩
  · have hwidth := hp.2
    have hwidth8 : (BitVec.ofNat 8 s.params.countWidth).toNat = s.params.countWidth := by rw [BitVec.toNat_ofNat]; omega
    rw [paramWord_eq]
    simp (disch := omega) only [BitVec.extractLsb'_or, extractLsb'_fieldAt, extractLsb'_fieldAt_apart, BitVec.zero_or,
      BitVec.or_zero]
    exact ⟨hwidth8, trivial, trivial, rfl⟩

/-- Settles O16: `cleared` is the reset state with the parameters and the ports kept. -/
theorem resetValues : Obligations.ResetValues := by
  refine ⟨⟨rfl, rfl⟩, fun s => ?_⟩
  have hstatus : (hardReset s).status = 0 := (rfl : _ = State.reset.status).trans rfl
  refine ⟨fun sym => ?_, rfl, rfl, rfl, rfl, rfl, rfl, rfl, rfl, rfl, rfl, hstatus, rfl, rfl, rfl, rfl,
    rfl, rfl, _, rfl, rfl⟩
  simp [hardReset, State.reset]

end Sys2Proof.Machine
end

section
/-!
PROOFS. The host's moves (20_memory.md R60 to R64, R72; 70_reset_and_hazards.md R240, R241) leave the block's state as it
is, or reset it.
-/

namespace Sys2Proof.Machine

/-- A host move that writes the ports only. -/
theorem State.Inv.setPorts {s : State} (h : s.Inv) (p : Ports) : ({ s with ports := p } : State).Inv :=
  h.of_eq rfl rfl rfl rfl rfl rfl rfl

theorem State.Inv.hostOpen {s t : State} (h : s.Inv) (ht : hostOpen s = some t) : t.Inv := by
  unfold Machine.hostOpen at ht
  split at ht <;> cases ht
  exact h.setPorts _

theorem State.Inv.hostSupply {s t : State} (h : s.Inv) {bs : Bits} (ht : hostSupply bs s = some t) : t.Inv := by
  unfold Machine.hostSupply at ht
  split at ht <;> cases ht
  exact h.setPorts _

/-- A read counts a free draw at most (R72, log entry 4). -/
theorem State.Inv.hostRead {s : State} (h : s.Inv) (a : Word16) : (hostRead a s).2.Inv := by
  unfold Machine.hostRead
  split
  · exact h.of_eq rfl rfl rfl rfl rfl rfl rfl
  · exact h

/-- Settles O8: the moves write the ports or count a draw, which no part of the invariant speaks of; hardware reset
gives the reset values. -/
theorem hostMovesKeepInvariant : Obligations.HostMovesKeepInvariant := fun _ h =>
  ⟨fun _ => h.setPorts _, fun _ => h.hostOpen, fun _ _ => h.hostSupply, h.setPorts _, fun _ => h.setPorts _,
    fun _ => h.setPorts _, h.hostRead, inv_cleared h.params⟩

end Sys2Proof.Machine
end

section
/-!
PROOFS. The register map (20_memory.md R70 to R73), read while BUSY = 0 and while BUSY = 1.
-/

namespace Sys2Proof.Machine

theorem ofNat16_toNat {n : Nat} (h : n < 65536) : (BitVec.ofNat 16 n).toNat = n := by
  rw [BitVec.toNat_ofNat, Nat.mod_eq_of_lt h]

/-- ERR_CODE and ERR_SUB side by side (R35). -/
theorem errorWord_eq (s : State) : s.errorWord = fieldAt s.error.code 0 ||| fieldAt s.error.sub 4 := by
  refine BitVec.eq_of_getLsbD_eq fun j hj => ?_
  rw [State.errorWord, BitVec.getLsbD_setWidth, BitVec.getLsbD_append, BitVec.getLsbD_or, fieldAt_getLsbD,
    fieldAt_getLsbD]
  by_cases h : j < 4
  · simp [h, hj, Nat.not_le.mpr h]
  · simp [h, hj, Nat.le_of_not_lt h]

/-- ERR_CODE in [3:0] and ERR_SUB in [7:4], the rest reserved (R35). -/
theorem errorWord_fields (s : State) :
    s.errorWord.extractLsb' 0 4 = s.error.code ∧ s.errorWord.extractLsb' 4 4 = s.error.sub ∧
      s.errorWord.extractLsb' 8 24 = 0 := by
  rw [errorWord_eq]
  simp (disch := omega) only [BitVec.extractLsb'_or, extractLsb'_fieldAt, extractLsb'_fieldAt_apart, BitVec.zero_or,
    BitVec.or_zero, true_and]
  rfl

/-- Settles O55: an idle read is the value of the register at the address. -/
theorem registerMap : Obligations.RegisterMap := by
  intro s hb
  have herror : memRead s 0x0003 = s.errorWord := memRead_idle (r := .error) rfl hb
  obtain ⟨hcode, hsub, hreserved⟩ := errorWord_fields s
  refine ⟨memRead_idle (r := .magic) rfl hb, memRead_idle (r := .param) rfl hb, memRead_status s,
    herror ▸ hcode, herror ▸ hsub, herror ▸ hreserved,
    memRead_idle (r := .errCmd) rfl hb, memRead_idle (r := .errInfo) rfl hb, memRead_idle (r := .decResult) rfl hb,
    memRead_idle (r := .inBits) rfl hb, memRead_idle (r := .outBits) rfl hb, memRead_idle (r := .outBytes) rfl hb,
    memRead_idle (r := .treeInfo) rfl hb, fun sym => ?_,
    fun a ha => memRead_unlisted ((registerAt_eq_none_iff _).mpr ha)⟩
  have hsym := sym.isLt
  refine ⟨memRead_idle (r := .freq sym) ?_ hb, memRead_idle (r := .codeLen sym) ?_ hb,
    fun k hk => memRead_idle (r := .codeBits sym k) ?_ hb⟩
  · rw [ofNat16_toNat (by omega), registerAt_freq]
  · rw [ofNat16_toNat (by omega), registerAt_codeLen]
  · rw [ofNat16_toNat (by omega), registerAt_codeBits sym hk]

/-- A register whose fields fill it reads any value while BUSY = 1 (R72). -/
theorem memRead_busy_full {s : State} {a : Word16} {r : Register} (h : registerAt a.toNat = some r)
    (hb : s.busy = true) (hr : r ≠ .status) (hfull : registerFields s r = 0xFFFFFFFF) :
    memRead s a = Config.busyRead s.draws a := by
  rw [memRead_busy h hb hr, hfull]
  exact BitVec.and_allOnes

/-- The addresses of FREQ (R70). -/
theorem exists_registerAt_freq {a : Nat} (h : 0x0100 ≤ a) (h' : a ≤ 0x0200) :
    ∃ sym, registerAt a = some (.freq sym) := by
  obtain ⟨n, rfl⟩ := Nat.exists_eq_add_of_le h
  exact ⟨⟨n, by omega⟩, registerAt_freq ⟨n, by omega⟩⟩

/-- The addresses of CODE_LEN (R70). -/
theorem exists_registerAt_codeLen {a : Nat} (h : 0x0400 ≤ a) (h' : a ≤ 0x0500) :
    ∃ sym, registerAt a = some (.codeLen sym) := by
  obtain ⟨n, rfl⟩ := Nat.exists_eq_add_of_le h
  exact ⟨⟨n, by omega⟩, registerAt_codeLen ⟨n, by omega⟩⟩

/-- The addresses of CODE_BITS, eight for each symbol (R70). -/
theorem exists_registerAt_codeBits {a : Nat} (h : 0x1000 ≤ a) (h' : a ≤ 0x1807) :
    ∃ sym k, registerAt a = some (.codeBits sym k) := by
  obtain ⟨n, rfl⟩ := Nat.exists_eq_add_of_le h
  have hr := registerAt_codeBits ⟨n / 8, by omega⟩ (Nat.mod_lt n (by omega : 0 < 8))
  rw [Nat.add_assoc, Nat.div_add_mod] at hr
  exact ⟨_, _, hr⟩

/-- Settles O57: a read while BUSY = 1 is a free value under the mask of the register's fields, but for STATUS. -/
theorem readsWhileBusy : Obligations.ReadsWhileBusy := by
  intro s
  refine ⟨fun hb => ⟨⟨memRead_status s, (statusFields.2 s).1.trans hb⟩, ?_⟩, fun a => ⟨rfl, hostRead_frame a s⟩⟩
  refine ⟨memRead_busy_full (r := .magic) rfl hb nofun rfl, memRead_busy (r := .param) rfl hb nofun,
    memRead_busy (r := .error) rfl hb nofun, memRead_busy (r := .errCmd) rfl hb nofun,
    memRead_busy (r := .errInfo) rfl hb nofun, memRead_busy (r := .decResult) rfl hb nofun,
    memRead_busy_full (r := .inBits) rfl hb nofun rfl, memRead_busy_full (r := .outBits) rfl hb nofun rfl,
    memRead_busy_full (r := .outBytes) rfl hb nofun rfl, memRead_busy (r := .treeInfo) rfl hb nofun,
    fun a h h' => ?_, fun a h h' => ?_, fun a h h' => ?_,
    fun a ha => memRead_unlisted ((registerAt_eq_none_iff _).mpr ha)⟩
  · obtain ⟨sym, hr⟩ := exists_registerAt_freq h h'
    exact memRead_busy hr hb nofun
  · obtain ⟨sym, hr⟩ := exists_registerAt_codeLen h h'
    exact memRead_busy hr hb nofun
  · obtain ⟨sym, k, hr⟩ := exists_registerAt_codeBits h h'
    exact memRead_busy_full hr hb nofun rfl

end Sys2Proof.Machine
end

section
/-!
PROOFS. A value read most significant bit first, bit by bit (20_memory.md R65), and with it a code read back (R73) and
the packing of a bit stream into bytes and the container (R66, R67).
-/

namespace Sys2Proof.Machine

/-! ### Values of bit strings -/

/-- The last bit of a string is bit 0 of its value (R65). -/
theorem bitsValue_testBit (bs : Bits) (i : Nat) : (bitsValue bs).testBit i = bs.reverse.getD i false := by
  induction bs using List.reverseRecOn generalizing i with
  | nil => simp [bitsValue]
  | append_singleton bs b ih =>
    have hbit : bitsValue (bs ++ [b]) = Nat.bit b (bitsValue bs) := by
      rw [bitsValue_snoc, Nat.bit_val]
    rw [hbit, List.reverse_append]
    cases i with
    | zero => simp
    | succ i => simpa [Nat.testBit_bit_succ] using ih i

/-- Bit `n - 1 - j` of the value of `n` bits is bit `j` of the string (R65). -/
theorem bitsValue_testBit_msb {bs : Bits} {n j : Nat} (hn : bs.length = n) (hj : j < n) :
    (bitsValue bs).testBit (n - 1 - j) = bs.getD j false := by
  have hback : n - 1 - (n - 1 - j) = j := by omega
  rw [bitsValue_testBit]
  rw [List.getD_eq_getElem?_getD, List.getD_eq_getElem?_getD, List.getElem?_reverse (by omega), hn, hback]

/-! ### A code read back (R73) -/

/-- Bit `31 - j` of CODE_BITS word `k` is code bit `32k + j`. -/
theorem codeBitsWord_getLsbD (c : Option Bits) (k : Nat) {j : Nat} (hj : j < 32) :
    (codeBitsWord c k).getLsbD (31 - j) = (c.getD []).getD (32 * k + j) false := by
  rw [codeBitsWord, BitVec.getLsbD_ofNat, bitsValue_testBit_msb (n := 32) (by simp) hj]
  have hlt : 31 - j < 32 := by omega
  simp [hj, hlt]

/-- A code of at most 256 bits has its length in CODE_LEN. -/
theorem codeLenWord_some {bits : Bits} (h : bits.length ≤ 256) :
    codeLenWord (some bits) = 0x80000000 ||| BitVec.ofNat 32 bits.length := by
  have hlen : (BitVec.ofNat 9 bits.length).setWidth 32 = BitVec.ofNat 32 bits.length := by
    refine BitVec.eq_of_toNat_eq ?_
    rw [BitVec.toNat_setWidth, BitVec.toNat_ofNat, BitVec.toNat_ofNat]
    omega
  rw [codeLenWord, hlen]
  rfl

theorem codeBitsWord_none (k : Nat) : codeBitsWord none k = 0 := by
  refine BitVec.eq_of_getLsbD_eq fun i hi => ?_
  have hback : 31 - (31 - i) = i := by omega
  have h := codeBitsWord_getLsbD none k (j := 31 - i) (by omega)
  rw [hback] at h
  simpa using h

/-- Settles O56: CODE_BITS bit by bit, CODE_LEN by its fields, and the examples of R73. -/
theorem codeReadback : Obligations.CodeReadback := by
  refine ⟨⟨rfl, codeBitsWord_none⟩, fun bits hlen => ⟨codeLenWord_some hlen, fun k _ j hj => ?_⟩, rfl, rfl, rfl⟩
  rw [codeBitsWord_getLsbD _ _ hj, Option.getD_some, List.getD_eq_getElem?_getD]
  split
  · rename_i hlt
    rw [List.getElem?_eq_getElem hlt, Option.getD_some]
  · rename_i hge
    rw [List.getElem?_eq_none (Nat.le_of_not_lt hge), Option.getD_none]

/-! ### Bytes (R66) -/

theorem byteBits_length (b : Byte) : (byteBits b).length = 8 := rfl

theorem byteBits_getElem? (b : Byte) {j : Nat} (hj : j < 8) : (byteBits b)[j]? = some (b.getLsbD (7 - j)) := by
  interval_cases j <;> rfl

theorem byteBits_injective {b b' : Byte} (h : byteBits b = byteBits b') : b = b' := by
  refine BitVec.eq_of_getLsbD_eq fun i hi => ?_
  have hback : 7 - (7 - i) = i := by omega
  have hj := congrArg (·[7 - i]?) h
  simpa only [byteBits_getElem? _ (by omega : 7 - i < 8), hback, Option.some.injEq] using hj

/-- Eight bits as the value of a byte, and back. -/
theorem byteBits_bitsValue {bs : Bits} (h : bs.length = 8) : byteBits (BitVec.ofNat 8 (bitsValue bs)) = bs := by
  refine List.ext_getElem? fun j => ?_
  by_cases hj : j < 8
  · have hlt : 7 - j < 8 := by omega
    rw [byteBits_getElem? _ hj, BitVec.getLsbD_ofNat, bitsValue_testBit_msb h hj]
    simp [hlt, h, hj]
  · rw [List.getElem?_eq_none (by rw [byteBits_length]; omega), List.getElem?_eq_none (by omega)]

/-- At most 8 stream bits as a byte, and back: the unused low bits are 0. -/
theorem byteBits_byteOfBits {bs : Bits} (h : bs.length ≤ 8) :
    byteBits (byteOfBits bs) = bs ++ List.replicate (8 - bs.length) false :=
  byteBits_bitsValue (by rw [List.length_append, List.length_replicate]; omega)

theorem byteOfBits_byteBits (b : Byte) : byteOfBits (byteBits b) = b :=
  byteBits_injective (by rw [byteBits_byteOfBits (byteBits_length b).le, byteBits_length]; exact List.append_nil _)

/-- Bit `7 - j` of the byte of at most 8 stream bits is stream bit `j`. -/
theorem byteOfBits_getLsbD {bs : Bits} (h : bs.length ≤ 8) {j : Nat} (hj : j < bs.length) :
    (byteOfBits bs).getLsbD (7 - j) = bs[j] := by
  have hbit := byteBits_getElem? (byteOfBits bs) (Nat.lt_of_lt_of_le hj h)
  rw [byteBits_byteOfBits h, List.getElem?_append_left hj, List.getElem?_eq_getElem hj] at hbit
  exact (Option.some.inj hbit).symm

/-! ### Packing (R66) -/

/-- Packing takes the stream 8 bits at a time. -/
theorem packBytes_of_ne_nil {bs : Bits} (h : bs ≠ []) :
    packBytes bs = byteOfBits (bs.take 8) :: packBytes (bs.drop 8) := by
  match bs with
  | [] => exact absurd rfl h
  | [_] | [_, _] | [_, _, _] | [_, _, _, _] | [_, _, _, _, _] | [_, _, _, _, _, _] | [_, _, _, _, _, _, _] => rfl
  | _ :: _ :: _ :: _ :: _ :: _ :: _ :: _ :: _ => rfl

/-- Induction over a stream 8 bits at a time, as `packBytes` goes. -/
theorem bytewise_induction {P : Bits → Prop} (nil : P []) (byte : ∀ bs, bs ≠ [] → P (bs.drop 8) → P bs) (bs : Bits) :
    P bs := by
  by_cases h : bs = []
  · exact h ▸ nil
  · exact byte bs h (bytewise_induction nil byte (bs.drop 8))
termination_by bs.length
decreasing_by
  have := List.length_pos_of_ne_nil h
  rw [List.length_drop]
  omega

theorem packBytes_length (bs : Bits) : (packBytes bs).length = (bs.length + 7) / 8 := by
  induction bs using bytewise_induction with
  | nil => rfl
  | byte bs h ih =>
    have := List.length_pos_of_ne_nil h
    rw [packBytes_of_ne_nil h, List.length_cons, ih, List.length_drop]
    omega

/-- Byte `k` packs the 8 stream bits from bit `8k` on. -/
theorem packBytes_getElem? {bs : Bits} {k : Nat} (h : 8 * k < bs.length) :
    (packBytes bs)[k]? = some (byteOfBits ((bs.drop (8 * k)).take 8)) := by
  induction k generalizing bs with
  | zero =>
    rw [packBytes_of_ne_nil (List.ne_nil_of_length_pos h)]
    rfl
  | succ k ih =>
    rw [packBytes_of_ne_nil (List.ne_nil_of_length_pos (by omega)), List.getElem?_cons_succ,
      ih (by rw [List.length_drop]; omega), List.drop_drop, Nat.mul_succ, Nat.add_comm]

/-- Bytes at the front of a stream are packed as they are. -/
theorem packBytes_unpackBytes_append (bytes : List Byte) (bs : Bits) :
    packBytes (unpackBytes bytes ++ bs) = bytes ++ packBytes bs := by
  induction bytes with
  | nil => rfl
  | cons b bytes ih =>
    have hcons : unpackBytes (b :: bytes) ++ bs = byteBits b ++ (unpackBytes bytes ++ bs) := by
      rw [unpackBytes, List.flatMap_cons, List.append_assoc]
      rfl
    have hne : byteBits b ++ (unpackBytes bytes ++ bs) ≠ [] := List.append_ne_nil_of_left_ne_nil (List.cons_ne_nil _ _) _
    rw [hcons, packBytes_of_ne_nil hne, List.take_left' (byteBits_length b), List.drop_left' (byteBits_length b),
      byteOfBits_byteBits, ih, List.cons_append]

/-- Unpacking what was packed gives the stream and zero bits up to a whole byte. -/
theorem unpackBytes_packBytes (bs : Bits) :
    ∃ k < 8, unpackBytes (packBytes bs) = bs ++ List.replicate k false ∧ (bs.length + k) % 8 = 0 := by
  induction bs using bytewise_induction with
  | nil => exact ⟨0, by omega, rfl, rfl⟩
  | byte bs h ih =>
    obtain ⟨k, hk, hunpack, hmod⟩ := ih
    have hpos := List.length_pos_of_ne_nil h
    have hfirst : unpackBytes (packBytes bs) = bs.take 8 ++ List.replicate (8 - (bs.take 8).length) false ++
        (bs.drop 8 ++ List.replicate k false) := by
      rw [packBytes_of_ne_nil h, ← hunpack, ← byteBits_byteOfBits (List.length_take_le 8 bs)]
      rfl
    rw [List.length_drop] at hmod
    rw [List.length_take] at hfirst
    rcases Nat.lt_or_ge bs.length 8 with hlen | hlen
    · have hk0 : k = 0 := by omega
      refine ⟨8 - bs.length, by omega, ?_, by omega⟩
      rw [hfirst, hk0, List.take_of_length_le hlen.le, List.drop_of_length_le hlen.le, Nat.min_eq_right hlen.le]
      simp
    · refine ⟨k, hk, ?_, by omega⟩
      rw [hfirst, Nat.min_eq_left hlen]
      simp [← List.append_assoc]

/-! ### The container (R67, R210) -/

theorem magicBits_length (m : Word32) : (magicBits m).length = 32 := by simp [magicBits]

/-- The magic is four bytes, most significant first. -/
theorem magicBits_eq_unpackBytes (m : Word32) : magicBits m =
    unpackBytes [m.extractLsb' 24 8, m.extractLsb' 16 8, m.extractLsb' 8 8, m.extractLsb' 0 8] := by
  simp [magicBits, unpackBytes, byteBits, List.range_succ]

theorem container_eq (m : Word32) (out : Bits) : container m out =
    [m.extractLsb' 24 8, m.extractLsb' 16 8, m.extractLsb' 8 8, m.extractLsb' 0 8] ++ packBytes out := by
  rw [container, magicBits_eq_unpackBytes, packBytes_unpackBytes_append]

/-- The host finds the bits it packed after the magic, and padding. -/
theorem hostOpensContainer_container (m : Word32) (out : Bits) :
    ∃ k < 8, hostOpensContainer m (container m out) = some (out ++ List.replicate k false) := by
  obtain ⟨k, hk, hunpack, -⟩ := unpackBytes_packBytes (magicBits m ++ out)
  refine ⟨k, hk, ?_⟩
  rw [hostOpensContainer, container, hunpack, List.append_assoc, List.take_left' (magicBits_length m),
    List.drop_left' (magicBits_length m), if_pos rfl]

/-- Settles O59: packing goes byte by byte, and the magic is four whole bytes. -/
theorem containerPacking : Obligations.ContainerPacking := by
  refine ⟨fun bs => ⟨packBytes_length bs, fun k j h hj => ⟨_, packBytes_getElem? (by omega), ?_⟩⟩,
    fun m out => by rw [container_eq]; rfl, fun out => by rw [container_eq]; rfl, unpackBytes_packBytes,
    hostOpensContainer_container⟩
  have hchunk : j < ((bs.drop (8 * k)).take 8).length := by rw [List.length_take, List.length_drop]; omega
  rw [byteOfBits_getLsbD (List.length_take_le _ _) hchunk, List.getElem_take, List.getElem_drop]

end Sys2Proof.Machine
end

section
/-!
PROOFS. Output the host does not accept (20_memory.md R62 to R64): what SER, ENC, EEOF and DEC do when they run, and the
state in which they are held.
-/

namespace Sys2Proof.Machine

/-! ### The commands that use a stream, when they run -/

/-- SER with a tree (R140). -/
theorem exec_ser_eq {s : State} {t : Tree} (he : s.error.err = false) (ht : s.tree.value = some t) :
    exec .ser s = .next (writeBits (encode .ser) (serTree t) false s) := by
  rw [exec, execSer, unlessError_of_ok _ he, ht]

/-- ENC and EEOF with a code (R160, R161). -/
theorem encodeSymbol_eq {s : State} {sym : Symbol} {c : Bits} (w : Word16) (finish : Bool)
    (hvalid : s.codes.valid = true) (hdone : s.codes.encDone = false) (hc : codeOf s sym = some c) :
    encodeSymbol w sym finish s = .next (writeBits w c finish s) := by
  rw [encodeSymbol, require_of_true _ hvalid, require_of_true _ (by rw [hdone]; rfl), hc]

/-- DEC with a tree that is not one leaf (R170, R171). -/
theorem exec_dec_node_eq {s : State} {l r : Tree} (he : s.error.err = false) (ht : s.tree.value = some (.node l r))
    (hdone : s.dec.done = false) : exec .dec s = .next (runWalk (encode .dec) ⟨true, l, r⟩ s) := by
  rw [exec, execDec, unlessError_of_ok _ he, ht]
  exact require_of_true _ (by rw [hdone]; rfl)

/-! ### Held output -/

/-- The word of ENC with its operand (R90, R92). -/
theorem encode_enc (b : Byte) : encode (.enc b) = 0x8000 ||| b.setWidth 16 := by
  change ((8 : BitVec 4) ++ (0 : BitVec 4)) ++ b = _
  rw [BitVec.append_def, BitVec.setWidth'_eq]
  rfl

/-- WriteBits of more bits than the host accepts (R64). -/
theorem writeBits_of_room_lt {s : State} {n : Nat} {bs : Bits} (w : Word16) (finish : Bool)
    (hroom : s.ports.bitRoom = some n) (h : n < bs.length) :
    writeBits w bs finish s =
      { s.afterWriting (bs.take n) with inflight := some ⟨w, .bits (bs.drop n) finish⟩ } := by
  have hn : accepted s.ports.bitRoom bs.length = n := by rw [hroom]; exact Nat.min_eq_left h.le
  rw [writeBits_held (by omega), hn]
  rfl

/-- The bits of the path to a leaf find its symbol, whatever follows them (R171). -/
theorem feed_walk_path {k : Walk} {b : Bool} {p : Bits} {sym : Symbol} (rest : Bits)
    (h : subtreeAt (.node k.left k.right) (b :: p) = some (.leaf sym)) :
    feed Walk.bit k (b :: p ++ rest) = (.inr sym, rest, p.length + 1) := by
  induction p generalizing k b with
  | nil =>
    have hchild : (if b then k.right else k.left) = .leaf sym := by simpa [subtreeAt] using h
    exact feed_cons_inr rest (by rw [Walk.bit, hchild])
  | cons b' p ih =>
    rw [subtreeAt] at h
    cases hchild : (if b then k.right else k.left) with
    | leaf x => rw [hchild] at h; cases h
    | node l r =>
      rw [hchild] at h
      rw [List.cons_append, feed_cons_inl (a' := ⟨false, l, r⟩) _ (by rw [Walk.bit, hchild]), ih h]
      rfl

/-- A DEC that finds the symbol of a path in its bits. -/
theorem runWalk_of_found {w : Word16} {k : Walk} {s : State} {sym : Symbol} {rest : Bits} {n : Nat}
    (h : feed Walk.bit k s.ports.bitIn = (.inr sym, rest, n)) :
    runWalk w k s = foundSymbol w sym (tookBits rest n s) := by
  rw [runWalk, h]

/-- A byte found while BYTE_OUT has no room is held (R63, R64). -/
theorem foundSymbol_held {w : Word16} {sym : Symbol} {s : State} (hsym : sym ≠ 256)
    (hroom : s.ports.byteRoom = some 0) : foundSymbol w sym s = hold w (.byte (symbolByte sym)) s := by
  rcases foundSymbol_cases w sym s with ⟨h, -⟩ | ⟨-, h, -⟩ | ⟨-, -, h⟩
  · exact absurd h hsym
  · exact absurd hroom h
  · exact h

/-- Settles O52: each command runs up to its WriteBits or WriteByte, which the host cuts short. -/
theorem refusedOutputHolds : Obligations.RefusedOutputHolds := by
  refine ⟨fun s n he hroom => ⟨fun t ht hlt => ?_, fun hvalid hdone => ⟨fun b c hc hlt => ?_, fun c hc hlt => ?_⟩⟩,
    fun s t p rest sym he ht hdone hroom hp hsym hpath hin => ?_⟩
  · rw [exec_ser_eq he ht, writeBits_of_room_lt _ _ hroom hlt]
    rfl
  · rw [exec, execEnc, unlessError_of_ok _ he, encodeSymbol_eq _ _ hvalid hdone hc,
      writeBits_of_room_lt _ _ hroom hlt, encode_enc]
  · rw [exec, execEeof, unlessError_of_ok _ he, encodeSymbol_eq _ _ hvalid hdone hc,
      writeBits_of_room_lt _ _ hroom hlt]
    rfl
  · obtain ⟨b, p, rfl⟩ := List.exists_cons_of_ne_nil hp
    cases t with
    | leaf x => cases hpath
    | node l r =>
      have hfeed : feed Walk.bit ⟨true, l, r⟩ s.ports.bitIn = (.inr sym, rest, p.length + 1) := by
        rw [hin]
        exact feed_walk_path rest hpath
      rw [exec_dec_node_eq he ht hdone, runWalk_of_found hfeed, foundSymbol_held (s := tookBits rest (p.length + 1) s) hsym hroom]
      rfl

end Sys2Proof.Machine
end

section
/-!
PROOFS. A hold is transparent (20_memory.md R64): a held command that the host helps on ends as it would have, had the
help been there from the start; with no help at all it waits and nothing changes.
-/

namespace Sys2Proof.Machine

/-- A command that `run` starts in `s` and that is then held goes on, after the host has made the move `act`, to what
`run` answers in `s'`. -/
def Resumes (act : State → State) (run : State → Res) (s s' : State) : Prop :=
  ∀ t f, run s = .next t → t.inflight = some f → run s' = .next (resume f (act t))

/-- Nothing is held by a command that leaves the block idle. -/
theorem resumes_of_idle {act : State → State} {run : State → Res} {s s' : State}
    (h : Answers (fun t => t.inflight = none) (run s)) : Resumes act run s s' := by
  intro t f ht hf
  rw [h t ht] at hf
  cases hf

/-- A command that always answers a next state resumes if its held states do. -/
theorem resumes_next {act : State → State} {run : State → State} {s s' : State}
    (h : ∀ f, (run s).inflight = some f → resume f (act (run s)) = run s') :
    Resumes act (fun s => .next (run s)) s s' := by
  rintro _ f ⟨⟩ hf
  rw [h f hf]

/-- A dropped command is not held (R203). -/
theorem resumes_unlessError {act : State → State} {run : State → Res} {s s' : State} (hi : s.inflight = none)
    (hs : s'.error = s.error) (h : s.error.err = false → Resumes act run s s') :
    Resumes act (fun s => unlessError s run) s s' := by
  cases he : s.error.err with
  | true => exact resumes_of_idle (by rw [unlessError_of_err run he]; exact answers_next hi)
  | false =>
    have hs' : s'.error.err = false := by rw [hs, he]
    simpa only [Resumes, unlessError_of_ok run he, unlessError_of_ok run hs'] using h he

/-- A command that raises is not held (R216). -/
theorem resumes_require {act : State → State} {run : State → Res} {c : State → Bool} {w : Word16} {e : Error}
    {s s' : State} (hs : c s' = c s) (h : c s = true → Resumes act run s s') :
    Resumes act (fun s => require (c s) w e s run) s s' := by
  cases hc : c s with
  | false => exact resumes_of_idle (by rw [require_of_false run hc]; exact answers_next rfl)
  | true => simpa only [Resumes, require_of_true run hc, require_of_true run (hs.trans hc)] using h hc

theorem Resumes.of_eq {act : State → State} {run run' : State → Res} {s s' : State} (h : Resumes act run' s s')
    (hs : run s = run' s) (hs' : run s' = run' s') : Resumes act run s s' := by
  simpa only [Resumes, hs, hs'] using h

/-! ### Waiting for input, or for room for a byte -/

/-- The host supplies bits, closes BIT_IN with END or not, and says how many bytes it accepts. -/
def hostActs (more : Bits) (toEnd : Bool → Bool) (toRoom : Option Nat → Option Nat) (s : State) : State :=
  { s with ports := { s.ports with
      bitIn := s.ports.bitIn ++ more, bitInEnd := toEnd s.ports.bitInEnd, byteRoom := toRoom s.ports.byteRoom } }

theorem hostActs_nothing : hostActs [] id id = id := by
  funext s
  simp [hostActs]

theorem hostActs_byteRoom (room : Option Nat) : hostActs [] id (fun _ => room) = hostByteRoom room := by
  funext s
  simp [hostActs, hostByteRoom]

/-- A result of the machine that reads BIT_IN, when the bits come in two parts. -/
theorem feed_append_of_inl {α β : Type} {f : α → Bool → α ⊕ β} {a a' : α} {x : α ⊕ β} {bs more rest : Bits} {n m : Nat}
    (h : feed f a bs = (.inl a', [], n)) (h' : feed f a' more = (x, rest, m)) :
    feed f a (bs ++ more) = (x, rest, n + m) := by
  rw [feed_append_inl more (by rw [h]), h, h']

section
variable (more : Bits) (toEnd : Bool → Bool) (toRoom : Option Nat → Option Nat)

/-- Bits taken in two parts are counted as in one. -/
theorem tookBits_hostActs_held (w : Word16) (k : Wait) (rest : Bits) (n m : Nat) (s : State) :
    tookBits rest m (hostActs more toEnd toRoom (hold w k (tookBits [] n s))) =
      hold w k (tookBits rest (n + m) (hostActs more toEnd toRoom s)) := by
  have hcount : s.counters.inBits + BitVec.ofNat 32 n + BitVec.ofNat 32 m =
      s.counters.inBits + BitVec.ofNat 32 (n + m) := by
    rw [BitVec.ofNat_add, BitVec.add_assoc]
  simp only [tookBits, hostActs, hold, hcount]

/-- DESER held at a ReadBit (R131). -/
theorem resume_runDes {w : Word16} {d : Des} {s : State} {f : InFlight} (hf : (runDes w d s).inflight = some f) :
    resume f (hostActs more toEnd toRoom (runDes w d s)) = runDes w d (hostActs more toEnd toRoom s) := by
  obtain ⟨taken, rest, -, ⟨t, -, hw⟩ | ⟨e, -, hw⟩ | ⟨d', -, -, hfeed, hw⟩⟩ := runDes_cases w d s <;> rw [hw] at hf ⊢ <;>
    cases hf
  rcases hmore : feed Des.bit d' more with ⟨x, rest', m⟩
  have hall : feed Des.bit d (hostActs more toEnd toRoom s).ports.bitIn = (x, rest', taken.length + m) :=
    feed_append_of_inl hfeed hmore
  have hrest : feed Des.bit d' (hostActs more toEnd toRoom
      (hold w (.des d') (tookBits [] taken.length s))).ports.bitIn = (x, rest', m) := hmore
  change runDes w d' _ = _
  unfold runDes
  rw [hall, hrest]
  rcases x with d2 | (e | t) <;> simp only [tookBits_hostActs_held] <;> rfl

/-- DEC held at its WriteByte (R170). -/
theorem resume_emitByte {w : Word16} {b : Byte} {s : State} {f : InFlight} (hf : (emitByte w b s).inflight = some f) :
    resume f (hostActs more toEnd toRoom (emitByte w b s)) = emitByte w b (hostActs more toEnd toRoom s) := by
  rcases emitByte_cases w b s with ⟨-, hw⟩ | ⟨-, hw⟩ <;> rw [hw] at hf ⊢ <;> cases hf
  rfl

theorem resume_foundSymbol {w : Word16} {sym : Symbol} {s : State} {f : InFlight}
    (hf : (foundSymbol w sym s).inflight = some f) :
    resume f (hostActs more toEnd toRoom (foundSymbol w sym s)) = foundSymbol w sym (hostActs more toEnd toRoom s) := by
  unfold foundSymbol at hf ⊢
  split
  · rename_i hsym
    rw [if_pos hsym] at hf
    cases hf
  · rename_i hsym
    rw [if_neg hsym] at hf
    exact resume_emitByte more toEnd toRoom hf

/-- DEC held at a ReadBit or at its WriteByte (R170, R171). -/
theorem resume_runWalk {w : Word16} {k : Walk} {s : State} {f : InFlight} (hf : (runWalk w k s).inflight = some f) :
    resume f (hostActs more toEnd toRoom (runWalk w k s)) = runWalk w k (hostActs more toEnd toRoom s) := by
  obtain ⟨taken, rest, -, ⟨sym, hfeed, hw⟩ | ⟨k', -, -, -, -, -, -, hw⟩ | ⟨k', -, -, -, -, -, hw⟩ | ⟨k', -, hfeed, -, hw⟩⟩ :=
    runWalk_cases w k s <;> rw [hw] at hf ⊢
  · rw [resume_foundSymbol more toEnd toRoom hf]
    exact (runWalk_of_found (s := hostActs more toEnd toRoom s) (feed_append_inr more hfeed)).symm
  · cases hf
  · cases hf
  · cases hf
    rcases hmore : feed Walk.bit k' more with ⟨x, rest', m⟩
    have hall : feed Walk.bit k (hostActs more toEnd toRoom s).ports.bitIn = (x, rest', taken.length + m) :=
      feed_append_of_inl hfeed hmore
    have hrest : feed Walk.bit k' (hostActs more toEnd toRoom
        (hold w (.walk k') (tookBits [] taken.length s))).ports.bitIn = (x, rest', m) := hmore
    change runWalk w k' _ = _
    unfold runWalk
    rw [hall, hrest]
    rcases x with k2 | sym <;> simp only [tookBits_hostActs_held] <;> rfl

theorem resumes_exec_deser {s : State} (hi : s.inflight = none) :
    Resumes (hostActs more toEnd toRoom) (exec .deser) s (hostActs more toEnd toRoom s) :=
  resumes_unlessError hi rfl fun _ => resumes_next fun _ hf => resume_runDes more toEnd toRoom hf

theorem resumes_exec_dec {s : State} (hi : s.inflight = none) :
    Resumes (hostActs more toEnd toRoom) (exec .dec) s (hostActs more toEnd toRoom s) := by
  refine resumes_unlessError hi rfl fun _ => ?_
  cases ht : s.tree.value with
  | none => exact resumes_of_idle (by simp only [ht]; exact answers_next rfl)
  | some t =>
    refine Resumes.of_eq
      (run' := fun s => require (!s.dec.done) (encode .dec) .decFinished s fun s => .next (decodeOne (encode .dec) t s))
      ?_ (by simp only [ht]) (by simp only [hostActs, ht])
    refine resumes_require (c := fun s => !s.dec.done) rfl fun _ => ?_
    cases t with
    | leaf sym =>
      refine resumes_of_idle (answers_next ?_)
      rw [decodeOne]
      split
      · exact hi
      · rfl
    | node l r => exact resumes_next fun _ hf => resume_runWalk more toEnd toRoom hf

end

/-! ### Waiting for room for bits -/

/-- More room is first used by the bits already written. -/
theorem accepted_map_add (room : Option Nat) (n len : Nat) (h : n ≤ len) :
    accepted (room.map (· + n)) len = n + accepted room (len - n) := by
  cases room with
  | none => simp; omega
  | some r => simp; omega

/-- Bits written in two parts are counted, and use up room, as in one. -/
theorem appendBits_hostBitRoom_held (w : Word16) (k : Wait) (room : Option Nat) (bs bs' : Bits) (s : State) :
    appendBits bs' (hostBitRoom room (hold w k (appendBits bs s))) =
      hold w k (appendBits (bs ++ bs') (hostBitRoom (room.map (· + bs.length)) s)) := by
  have hcount : s.counters.outBits + BitVec.ofNat 32 bs.length + BitVec.ofNat 32 bs'.length =
      s.counters.outBits + BitVec.ofNat 32 (bs ++ bs').length := by
    rw [List.length_append, BitVec.ofNat_add, BitVec.add_assoc]
  have hroom : roomLeft room bs'.length = roomLeft (room.map (· + bs.length)) (bs ++ bs').length := by
    cases room with
    | none => rfl
    | some r => simp; omega
  simp only [appendBits, hostBitRoom, hold, hcount, hroom, List.append_assoc]

/-- SER, ENC or EEOF held at a WriteBit after the `n` bits the host accepted. -/
theorem resume_writeBits {w : Word16} {bs : Bits} {finish : Bool} {s : State} {f : InFlight} {n : Nat}
    (room : Option Nat) (hn : s.ports.bitRoom = some n) (hf : (writeBits w bs finish s).inflight = some f) :
    resume f (hostBitRoom room (writeBits w bs finish s)) =
      writeBits w bs finish (hostBitRoom (room.map (· + n)) s) := by
  rcases writeBits_cases w bs finish s with ⟨-, hw⟩ | ⟨n', hn', hlt, hw⟩ <;> rw [hw] at hf ⊢ <;> cases hf
  cases hn.symm.trans hn'
  have hlen : (bs.take n).length = n := List.length_take_of_le hlt.le
  have hall : accepted (hostBitRoom (room.map (· + n)) s).ports.bitRoom bs.length =
      n + accepted room (bs.drop n).length :=
    (accepted_map_add room n _ hlt.le).trans (by rw [List.length_drop])
  have hrest : accepted (hostBitRoom room (hold w (.bits (bs.drop n) finish) (appendBits (bs.take n) s))).ports.bitRoom
      (bs.drop n).length = accepted room (bs.drop n).length := rfl
  change writeBits w (bs.drop n) finish _ = _
  unfold writeBits
  simp only [hall, hrest, List.take_add, List.drop_drop, appendBits_hostBitRoom_held, hlen]
  rfl

/-- With no more room a held command stays as it is. -/
theorem resume_writeBits_self {w : Word16} {bs : Bits} {finish : Bool} {s : State} {f : InFlight}
    (hf : (writeBits w bs finish s).inflight = some f) :
    resume f (writeBits w bs finish s) = writeBits w bs finish s := by
  rcases writeBits_cases w bs finish s with ⟨-, hw⟩ | ⟨n, hn, hlt, hw⟩
  · rw [hw] at hf
    cases hf
  · have hfull : hostBitRoom (some 0) (writeBits w bs finish s) = writeBits w bs finish s := by
      rw [hw]
      simp [hostBitRoom, appendBits, hold, hn, Nat.min_eq_left hlt.le]
    have hstart : hostBitRoom (some (0 + n)) s = s := by simp [hostBitRoom, ← hn]
    have h := resume_writeBits (some 0) hn hf
    rwa [hfull, Option.map_some, hstart] at h

/-- After the host's move `act` a WriteBits held from `s` goes on as it does when started in `s'`, whose block is as that
of `s`. -/
structure WritesResume (act : State → State) (s s' : State) : Prop where
  idle : s.inflight = none
  error : s'.error = s.error
  tree : s'.tree = s.tree
  codes : s'.codes = s.codes
  writes : ∀ w bs finish, Resumes act (fun s => .next (writeBits w bs finish s)) s s'

theorem WritesResume.exec_ser {act : State → State} {s s' : State} (h : WritesResume act s s') :
    Resumes act (exec .ser) s s' := by
  refine resumes_unlessError h.idle h.error fun _ => ?_
  cases ht : s.tree.value with
  | none => exact resumes_of_idle (by simp only [ht]; exact answers_next rfl)
  | some t => exact (h.writes (encode .ser) (serTree t) false).of_eq (by simp only [ht]) (by simp only [h.tree, ht])

theorem WritesResume.encodeSymbol {act : State → State} {s s' : State} (h : WritesResume act s s') (w : Word16)
    (sym : Symbol) (finish : Bool) : Resumes act (encodeSymbol w sym finish) s s' := by
  refine resumes_require (c := fun s => s.codes.valid) (by rw [h.codes]) fun _ => ?_
  refine resumes_require (c := fun s => !s.codes.encDone) (by rw [h.codes]) fun _ => ?_
  have hcode : codeOf s' sym = codeOf s sym := by simp only [codeOf, h.codes]
  cases hc : codeOf s sym with
  | none => exact resumes_of_idle (by simp only [hc]; exact answers_next rfl)
  | some c => exact (h.writes w c finish).of_eq (by simp only [hc]) (by simp only [hcode, hc])

theorem WritesResume.exec_enc {act : State → State} {s s' : State} (h : WritesResume act s s') (b : Byte) :
    Resumes act (exec (.enc b)) s s' :=
  resumes_unlessError h.idle h.error fun _ => h.encodeSymbol _ _ _

theorem WritesResume.exec_eeof {act : State → State} {s s' : State} (h : WritesResume act s s') :
    Resumes act (exec .eeof) s s' :=
  resumes_unlessError h.idle h.error fun _ => h.encodeSymbol _ _ _

theorem writesResume_self {s : State} (hi : s.inflight = none) : WritesResume id s s :=
  ⟨hi, rfl, rfl, rfl, fun _ _ _ => resumes_next fun _ hf => resume_writeBits_self hf⟩

theorem writesResume_hostBitRoom {s : State} (hi : s.inflight = none) {n : Nat} (hn : s.ports.bitRoom = some n)
    (room : Option Nat) : WritesResume (hostBitRoom room) s (hostBitRoom (room.map (· + n)) s) :=
  ⟨hi, rfl, rfl, rfl, fun _ _ _ => resumes_next fun _ hf => resume_writeBits room hn hf⟩

/-! ### With no help nothing changes -/

/-- A command that is not helped on stays as it is, once held. -/
theorem resumes_exec_self {s : State} (hi : s.inflight = none) (i : Instr) : Resumes id (exec i) s s := by
  cases i with
  | nop => exact resumes_of_idle (answers_next hi)
  | clear => exact resumes_of_idle (answers_next rfl)
  | facc b =>
    refine resumes_unlessError hi rfl fun _ => resumes_of_idle (answers_require rfl fun _ => answers_next ?_)
    rw [countSymbol_eq]
    exact hi
  | ffin =>
    refine resumes_unlessError hi rfl fun _ => resumes_of_idle (answers_next ?_)
    rw [finalizeFreq_eq]
    exact hi
  | build =>
    refine resumes_unlessError hi rfl fun _ => resumes_of_idle (answers_require rfl fun _ => ?_)
    cases buildTree s.freq.count with
    | some t => exact answers_next hi
    | none => rintro t ⟨⟩
  | deser => simpa only [hostActs_nothing, id_eq] using resumes_exec_deser [] id id hi
  | ser => exact (writesResume_self hi).exec_ser
  | cgen =>
    refine resumes_unlessError hi rfl fun _ => ?_
    cases ht : s.tree.value with
    | none => exact resumes_of_idle (by simp only [ht]; exact answers_next rfl)
    | some t => exact resumes_of_idle (by simp only [ht]; exact answers_next hi)
  | enc b => exact (writesResume_self hi).exec_enc b
  | eeof => exact (writesResume_self hi).exec_eeof
  | dec => simpa only [hostActs_nothing, id_eq] using resumes_exec_dec [] id id hi

/-- A held command that is not helped on is held again as it was. -/
theorem resume_resume_self (g : InFlight) {s : State} {f : InFlight} (hf : (resume g s).inflight = some f) :
    resume f (resume g s) = resume g s := by
  obtain ⟨w, k⟩ := g
  have hself {run : State → State} (h : resume f (hostActs [] id id (run s)) = run (hostActs [] id id s)) :
      resume f (run s) = run s := by
    rwa [hostActs_nothing] at h
  cases k with
  | des d => exact hself (run := runDes w d) (resume_runDes [] id id hf)
  | walk k => exact hself (run := runWalk w k) (resume_runWalk [] id id hf)
  | bits bs finish => exact resume_writeBits_self hf
  | byte b => exact hself (run := emitByte w b) (resume_emitByte [] id id hf)

theorem illegalCommand_idle {s : State} (hi : s.inflight = none) (w : Word16) (c : Illegal) :
    Answers (fun t => t.inflight = none) (illegalCommand w c s) :=
  answers_unlessError (fun _ => hi) fun _ => answers_next rfl

/-- A step that ends with a held command leaves it where going on changes nothing. -/
theorem resume_self_of_step {s t : State} {f : InFlight} (h : step s = .next t) (hf : t.inflight = some f) :
    resume f t = t := by
  rcases step_cases h with ⟨g, -, ho⟩ | ⟨hi, -, ho⟩ | ⟨w, ws, i, hi, -, -, ho⟩ | ⟨w, ws, c, hi, -, -, ho⟩
  · cases ho
    exact resume_resume_self g hf
  · cases ho
    rw [hi] at hf
    cases hf
  · have hexec := resumes_exec_self (s := acceptCommand ws s) hi i t f ho.symm hf
    exact (Host.Outcome.next.inj (ho.trans hexec)).symm
  · rw [illegalCommand_idle (s := acceptCommand ws s) hi w c t ho.symm] at hf
    cases hf

/-! ### The obligations -/

theorem step_of_held {s : State} {f : InFlight} (hf : s.inflight = some f) : step s = .next (resume f s) := by
  rw [step, hf]

/-- Settles O50: going on with no help changes nothing. -/
theorem heldCommandWaits : Obligations.HeldCommandWaits := by
  intro s t h hb
  obtain ⟨f, hf⟩ := Option.isSome_iff_exists.mp hb
  exact ⟨(step_of_held hf).trans (congrArg _ (resume_self_of_step h hf)), (statusFields.2 t).1.trans hb⟩

/-- The step after the host's move `act` of a command that resumes. -/
theorem Resumes.step {act : State → State} {run : State → Res} {s s' t : State} (h : Resumes act run s s')
    (ht : run s = .next t) (hb : t.busy = true) (hact : (act t).inflight = t.inflight) :
    step (act t) = run s' := by
  obtain ⟨f, hf⟩ := Option.isSome_iff_exists.mp hb
  rw [step_of_held (hact.trans hf), h t f ht hf]

/-- Settles O51: DESER and DEC go on with more bits from where the first bits led. -/
theorem inputHoldIsTransparent : Obligations.InputHoldIsTransparent := by
  rintro i s t more last (rfl | rfl) hi - ht hb
  · exact (resumes_exec_deser more (fun _ => last) id hi).step ht hb rfl
  · exact (resumes_exec_dec more (fun _ => last) id hi).step ht hb rfl

/-- Settles O53: WriteBits goes on with more room from the bits already written, and DEC with the byte it has. -/
theorem outputHoldIsTransparent : Obligations.OutputHoldIsTransparent := by
  constructor
  · rintro i s t n room hcmd hi hn ht hb
    have hwrites := writesResume_hostBitRoom hi hn room
    rcases hcmd with rfl | ⟨b, rfl⟩ | rfl
    · exact hwrites.exec_ser.step ht hb rfl
    · exact (hwrites.exec_enc b).step ht hb rfl
    · exact hwrites.exec_eeof.step ht hb rfl
  · rintro s t room hi - ht hb
    have hdec := resumes_exec_dec [] id (fun _ => room) hi
    rw [hostActs_byteRoom] at hdec
    exact hdec.step ht hb rfl

end Sys2Proof.Machine
end

section
/-!
PROOFS. Decode and encode are inverse to each other (30_encoding.md R90, R92, R97).
-/

namespace Sys2Proof

/-- The fields of a command pass the checks of R93. -/
theorem Instr.illegal?_fields (i : Instr) : i.fields.illegal? = none := by
  cases i <;> rfl

/-- OP and ARG of a command name the command (R91, R92). -/
theorem Instr.operation_of_fields (i : Instr) : operation i.fields.op i.fields.arg = some i := by
  cases i <;> rfl

theorem decode_of_illegal? {w : Word16} {c : Illegal} (h : (fieldsOf w).illegal? = some c) : decode w = .illegal c := by
  rw [decode, h]

/-- `decode(encode(i)) = i` (R97). -/
theorem decode_encode (i : Instr) : decode (encode i) = .legal i := by
  rw [decode, encode, fieldsOf_assembleWord, i.illegal?_fields, i.operation_of_fields]

theorem decodeTableWord_of_decode {w : Word16} {i : Instr} (h : decode w = .legal i) :
    decodeTableWord 16 w.toNat = some i := by
  rw [decodeTableWord, Nat.mod_eq_of_lt w.isLt, BitVec.ofNat_toNat, BitVec.setWidth_eq, h]

/-- Settles O2: a command's fields survive assembly, pass the checks and name the command, and a word is the assembly
of its fields. -/
theorem decodeInvertsEncode : Obligations.DecodeInvertsEncode :=
  ⟨fun i _ => ⟨decode_encode i, decodeTableWord_of_decode (decode_encode i)⟩, fun _ _ => word_of_decode⟩

/-- Settles O1: each word is evaluated. -/
theorem decodesSampleWords : Obligations.DecodesSampleWords := by
  unfold Obligations.DecodesSampleWords
  decide

end Sys2Proof
end

section
/-!
PROOFS. A word is legal iff it matches one row of R92, and an illegal word raises the first check of R93 that fails.
-/

namespace Sys2Proof

/-! ### The rows of R92 -/

/-- The word of a command matches the row of its mnemonic, and its source line is well formed (R92, R95). -/
theorem tableRow (i : Instr) : i.source.mnemonic.matchesWord (encode i) ∧ i.source.wellFormed = true :=
  match i with
  | .nop => Laws.TableRow.nop
  | .clear => Laws.TableRow.clear
  | .facc b => Laws.TableRow.facc b
  | .ffin => Laws.TableRow.ffin
  | .build => Laws.TableRow.build
  | .deser => Laws.TableRow.deser
  | .ser => Laws.TableRow.ser
  | .cgen => Laws.TableRow.cgen
  | .enc b => Laws.TableRow.enc b
  | .eeof => Laws.TableRow.eeof
  | .dec => Laws.TableRow.dec

/-- The mask of FACC and ENC keeps OP and RSV (R92). -/
theorem fieldsOf_and_operandMask (w : Word16) : fieldsOf (w &&& 0xFF00) = ⟨(fieldsOf w).op, (fieldsOf w).rsv, 0#8⟩ := by
  have hop : BitVec.extractLsb' 12 4 (0xFF00 : Word16) = BitVec.allOnes 4 := by decide
  have hrsv : BitVec.extractLsb' 8 4 (0xFF00 : Word16) = BitVec.allOnes 4 := by decide
  have harg : BitVec.extractLsb' 0 8 (0xFF00 : Word16) = 0#8 := by decide
  simp only [fieldsOf, BitVec.extractLsb'_and, hop, hrsv, harg, BitVec.and_allOnes, BitVec.and_zero]

/-- A word that has OP `op` and RSV 0 under the mask of FACC and ENC is that OP with the word's ARG. -/
theorem eq_assembleWord_of_operandMask {w : Word16} {op : BitVec 4} (h : w &&& 0xFF00 = assembleWord ⟨op, 0, 0⟩) :
    w = assembleWord ⟨op, 0, (fieldsOf w).arg⟩ := by
  have hfields := congrArg fieldsOf h
  rw [fieldsOf_and_operandMask, fieldsOf_assembleWord, Fields.mk.injEq] at hfields
  obtain ⟨hop, hrsv, -⟩ := hfields
  rw [← hop, ← hrsv, assembleWord_fieldsOf]

theorem eq_of_fullMask {w v : Word16} (h : w &&& 0xFFFF = v) : w = v :=
  (BitVec.and_allOnes (x := w)).symm.trans h

/-- A word that matches a row is the word of a command with the row's mnemonic (R92). -/
theorem exists_encode_of_matchesWord {m : Mnemonic} {w : Word16} (h : m.matchesWord w) :
    ∃ i : Instr, w = encode i ∧ i.source.mnemonic = m := by
  cases m with
  | facc => exact ⟨.facc _, eq_assembleWord_of_operandMask (op := 2) h, rfl⟩
  | enc => exact ⟨.enc _, eq_assembleWord_of_operandMask (op := 8) h, rfl⟩
  | nop => exact ⟨.nop, eq_of_fullMask h, rfl⟩
  | clear => exact ⟨.clear, eq_of_fullMask h, rfl⟩
  | ffin => exact ⟨.ffin, eq_of_fullMask h, rfl⟩
  | build => exact ⟨.build, eq_of_fullMask h, rfl⟩
  | deser => exact ⟨.deser, eq_of_fullMask h, rfl⟩
  | ser => exact ⟨.ser, eq_of_fullMask h, rfl⟩
  | cgen => exact ⟨.cgen, eq_of_fullMask h, rfl⟩
  | eeof => exact ⟨.eeof, eq_of_fullMask h, rfl⟩
  | dec => exact ⟨.dec, eq_of_fullMask h, rfl⟩

/-- A word matches the row of the command it decodes to, and no other row (R92, R93). -/
theorem matchesWord_iff_decode (m : Mnemonic) (w : Word16) :
    m.matchesWord w ↔ ∃ i : Instr, decode w = .legal i ∧ i.source.mnemonic = m := by
  constructor
  · intro h
    obtain ⟨i, rfl, hm⟩ := exists_encode_of_matchesWord h
    exact ⟨i, decode_encode i, hm⟩
  · rintro ⟨i, hi, rfl⟩
    rw [word_of_decode hi]
    exact (tableRow i).1

/-- A word decodes to a command iff it matches exactly one row (R93). -/
theorem decode_legal_iff_unique_row (w : Word16) :
    (∃ i, decode w = .legal i) ↔ ∃ m : Mnemonic, m.matchesWord w ∧ ∀ m' : Mnemonic, m'.matchesWord w → m' = m := by
  simp only [matchesWord_iff_decode]
  constructor
  · rintro ⟨i, hi⟩
    refine ⟨i.source.mnemonic, ⟨i, hi, rfl⟩, ?_⟩
    rintro - ⟨j, hj, rfl⟩
    cases hi.symm.trans hj
    rfl
  · rintro ⟨-, ⟨i, hi, -⟩, -⟩
    exact ⟨i, hi⟩

/-! ### Illegal words -/

/-- Check 1 of R93 fails. -/
theorem illegal?_eq_reservedOp {f : Fields} (hop : 0xB ≤ f.op.toNat) : f.illegal? = some .reservedOp := by
  have hop : f.opOk = false := decide_eq_false (by omega)
  simp [Fields.illegal?, hop]

/-- Check 2 of R93 fails first. -/
theorem illegal?_eq_rsvNonzero {f : Fields} (hop : f.op.toNat ≤ 0xA) (hrsv : f.rsv ≠ 0) : f.illegal? = some .rsvNonzero := by
  have hop : f.opOk = true := decide_eq_true hop
  have hrsv : f.rsvOk = false := beq_false_of_ne hrsv
  simp [Fields.illegal?, hop, hrsv]

/-- Check 3 of R93 fails first. -/
theorem illegal?_eq_argNonzero {f : Fields} (hop : f.op.toNat ≤ 0xA) (hrsv : f.rsv = 0) (htakes : f.takesArg = false)
    (harg : f.arg ≠ 0) : f.illegal? = some .argNonzero := by
  have hop : f.opOk = true := decide_eq_true hop
  have hrsv : f.rsvOk = true := beq_iff_eq.mpr hrsv
  have harg : f.argOk = false := by rw [Fields.argOk, htakes, beq_false_of_ne harg]; rfl
  simp [Fields.illegal?, hop, hrsv, harg]

/-- The operations that take no operand (R90). -/
theorem op_le_and_takesArg_of_mem {f : Fields} (h : f.op.toNat ∈ [0x0, 0x1, 0x3, 0x4, 0x5, 0x6, 0x7, 0x9, 0xA]) :
    f.op.toNat ≤ 0xA ∧ f.takesArg = false := by
  have hcases : f.op.toNat ≤ 0xA ∧ f.op.toNat ≠ 2 ∧ f.op.toNat ≠ 8 := by
    simp only [List.mem_cons, List.not_mem_nil, or_false] at h
    omega
  obtain ⟨hle, h2, h8⟩ := hcases
  have h2 : f.op ≠ 2 := fun h => h2 (congrArg BitVec.toNat h)
  have h8 : f.op ≠ 8 := fun h => h8 (congrArg BitVec.toNat h)
  exact ⟨hle, by rw [Fields.takesArg, beq_false_of_ne h2, beq_false_of_ne h8]; rfl⟩

end Sys2Proof

namespace Sys2Proof.Machine

/-- A raise in an idle block writes the error registers and nothing else (R202). -/
theorem raise_eq_withError {s : State} (hi : s.inflight = none) (w : Word16) (e : Error) :
    raise w e s = s.withError w e.code e.sub e.info := by
  rw [raise, State.withError, hi]

/-- An idle block not in error raises ILLEGAL_COMMAND on an illegal word, and changes nothing else (R93, R202). -/
theorem step_of_illegal {s : State} {w : Word16} {rest : List Word16} {c : Illegal} (hi : s.inflight = none)
    (he : s.error.err = false) (hcmd : s.ports.cmd = w :: rest) (hc : (fieldsOf w).illegal? = some c) :
    step s = .next ((acceptCommand rest s).withError w 4 (illegalSub c) 0) := by
  have hstep : step s = illegalCommand w c (acceptCommand rest s) := by
    rw [step, hi, hcmd]
    simp only [decode_of_illegal? hc]
  rw [hstep, illegalCommand, unlessError_of_ok (s := acceptCommand rest s) _ he,
    raise_eq_withError (s := acceptCommand rest s) hi]
  rfl

/-- Settles O3: the row a word matches is the row of the command it decodes to, and an illegal word raises the first
check of R93 that fails. -/
theorem legalAndIllegalWords : Obligations.LegalAndIllegalWords := by
  intro w
  refine ⟨decode_legal_iff_unique_row w, fun s rest hi he hcmd => ?_⟩
  refine ⟨fun hop => ?_, fun hop hrsv => ?_, fun hop hrsv harg => ?_⟩
  · exact step_of_illegal hi he hcmd (illegal?_eq_reservedOp (f := fieldsOf w) hop)
  · exact step_of_illegal hi he hcmd (illegal?_eq_rsvNonzero (f := fieldsOf w) hop hrsv)
  · obtain ⟨hle, htakes⟩ := op_le_and_takesArg_of_mem (f := fieldsOf w) hop
    exact step_of_illegal hi he hcmd (illegal?_eq_argNonzero hle hrsv htakes harg)

end Sys2Proof.Machine
end

section
/-!
PROOFS. The source lines the assembler accepts are those of the commands (30_encoding.md R95).
-/

namespace Sys2Proof.Machine

/-- The source line of a command is assembled to the command (R95). -/
theorem instr?_source (i : Instr) : Source.instr? i.source = some i := by
  rw [Source.instr?, if_pos (tableRow i).2]
  cases i with
  | facc b | enc b => simp [Instr.source]
  | _ => rfl

/-- Only a well-formed source line is assembled (R95). -/
theorem wellFormed_of_instr? {l : Source} {i : Instr} (h : Source.instr? l = some i) : l.wellFormed = true := by
  by_contra hl
  rw [Source.instr?, if_neg hl] at h
  cases h

/-- A well-formed source line is the source line of a command: an operand of at most 255 is a byte (R91, R95). -/
theorem exists_source_eq {l : Source} (h : l.wellFormed = true) : ∃ i : Instr, i.source = l := by
  obtain ⟨m, operand⟩ := l
  cases operand with
  | none =>
    cases m with
    | facc | enc => cases h
    | nop => exact ⟨.nop, rfl⟩
    | clear => exact ⟨.clear, rfl⟩
    | ffin => exact ⟨.ffin, rfl⟩
    | build => exact ⟨.build, rfl⟩
    | deser => exact ⟨.deser, rfl⟩
    | ser => exact ⟨.ser, rfl⟩
    | cgen => exact ⟨.cgen, rfl⟩
    | eeof => exact ⟨.eeof, rfl⟩
    | dec => exact ⟨.dec, rfl⟩
  | some n =>
    obtain ⟨htakes, hn⟩ : m.takesOperand = true ∧ n ≤ 255 := by simpa [Source.wellFormed] using h
    have hbyte : (BitVec.ofNat 8 n).toNat = n := Nat.mod_eq_of_lt (Nat.lt_succ_of_le hn)
    cases m with
    | facc => exact ⟨.facc (BitVec.ofNat 8 n), by rw [Instr.source, hbyte]⟩
    | enc => exact ⟨.enc (BitVec.ofNat 8 n), by rw [Instr.source, hbyte]⟩
    | _ => cases htakes

/-- Settles O4: a well-formed line is the source line of a command, and that line is assembled to the command. -/
theorem assemblyKeepsOperand : Obligations.AssemblyKeepsOperand := by
  intro l i
  constructor
  · intro h
    have hl := wellFormed_of_instr? h
    obtain ⟨j, rfl⟩ := exists_source_eq hl
    cases (instr?_source j).symm.trans h
    exact ⟨hl, rfl⟩
  · rintro ⟨-, rfl⟩
    exact instr?_source i

end Sys2Proof.Machine
end

section
/-!
PROOFS. FACC and FFIN as commands, what they leave unchanged, and the table after any accumulation (40_frequency.md R110
to R112).
-/

namespace Sys2Proof.Machine

/-! ### One count -/

/-- A count is at its maximum when it is the number 2^COUNT_WIDTH - 1 (R23). -/
theorem eq_maxCount_iff {w : Nat} (hw : w ≤ 32) (n : Word32) : n = maxCount w ↔ n.toNat = 2 ^ w - 1 := by
  rw [← BitVec.toNat_inj, maxCount_toNat hw]

/-- A count at its maximum sets FREQ_SAT and nothing else (R110). -/
theorem countSymbol_of_max {s : State} {sym : Symbol} (hp : ParamsOk s)
    (hmax : (s.freq.count[sym.val]).toNat = 2 ^ s.params.countWidth - 1) :
    countSymbol sym s = { s with freq := { s.freq with sat := true } } :=
  if_pos ((eq_maxCount_iff hp.2 _).mpr hmax)

/-- A count below its maximum goes up by 1 and nothing else changes (R110). -/
theorem countSymbol_of_ne_max {s : State} {sym : Symbol} (hp : ParamsOk s)
    (hmax : (s.freq.count[sym.val]).toNat ≠ 2 ^ s.params.countWidth - 1) :
    countSymbol sym s = { s with
      freq := { s.freq with count := s.freq.count.set sym.val (s.freq.count[sym.val] + 1) } } :=
  if_neg (mt (eq_maxCount_iff hp.2 _).mp hmax)

/-- Counting one symbol leaves the count of every other symbol (R110). -/
theorem countSymbol_count_ne {sym x : Symbol} (hx : x ≠ sym) (s : State) :
    (countSymbol sym s).freq.count[x.val] = s.freq.count[x.val] := by
  unfold countSymbol
  split
  · rfl
  · exact Vector.getElem_set_ne sym.isLt x.isLt fun h => hx (Fin.ext h.symm)

theorem countSymbol_final (sym : Symbol) (s : State) : (countSymbol sym s).freq.final = s.freq.final := by
  unfold countSymbol
  split <;> rfl

/-- The symbol that is counted has one more, cut at the maximum (R110). -/
theorem countSymbol_count_self {s : State} {sym : Symbol} (hp : ParamsOk s)
    (hle : (s.freq.count[sym.val]).toNat ≤ 2 ^ s.params.countWidth - 1) :
    ((countSymbol sym s).freq.count[sym.val]).toNat =
      min ((s.freq.count[sym.val]).toNat + 1) (2 ^ s.params.countWidth - 1) := by
  by_cases hmax : (s.freq.count[sym.val]).toNat = 2 ^ s.params.countWidth - 1
  · rw [countSymbol_of_max hp hmax]
    change (s.freq.count[sym.val]).toNat = _
    omega
  · have hpow : 2 ^ s.params.countWidth ≤ 2 ^ 32 := Nat.pow_le_pow_right (by decide) hp.2
    have hone : (1 : Word32).toNat = 1 := rfl
    rw [countSymbol_of_ne_max hp hmax]
    simp only [Vector.getElem_set_self, BitVec.toNat_add, hone]
    omega

/-- FREQ_SAT is set when a count that is at its maximum is to go up (R110). -/
theorem countSymbol_sat_iff {s : State} {sym : Symbol} (hp : ParamsOk s) :
    (countSymbol sym s).freq.sat = true ↔
      s.freq.sat = true ∨ (s.freq.count[sym.val]).toNat = 2 ^ s.params.countWidth - 1 := by
  by_cases hmax : (s.freq.count[sym.val]).toNat = 2 ^ s.params.countWidth - 1
  · rw [countSymbol_of_max hp hmax]
    exact iff_of_true rfl (.inr hmax)
  · rw [countSymbol_of_ne_max hp hmax]
    exact (or_iff_left hmax).symm

/-- No count goes down: one that may go up is below the maximum, so it does not wrap around to 0 (R110). -/
theorem FreqOk.count_le_countSymbol {s : State} (h : FreqOk s) (sym x : Symbol) :
    s.freq.count[x.val] ≤ (Machine.countSymbol sym s).freq.count[x.val] := by
  by_cases hx : x = sym
  · subst hx
    unfold Machine.countSymbol
    split
    · exact BitVec.le_refl _
    · have hle := h.le_max x
      simp only [Vector.getElem_set_self]
      bv_omega
  · rw [countSymbol_count_ne hx]
    exact BitVec.le_refl _

/-! ### The pseudo-EOF entry -/

/-- FFIN on a final table does nothing (R111). -/
theorem finalizeFreq_of_final {s : State} (hf : s.freq.final = true) : finalizeFreq s = s := if_pos hf

/-- The first FFIN, without a pseudo-EOF entry (R111). -/
theorem finalizeFreq_of_absent {s : State} (hf : s.freq.final = false) (heof : s.freq.count[256] = 0) :
    finalizeFreq s = { s with freq := { s.freq with count := s.freq.count.set 256 1, final := true } } := by
  have hins : insertEof s.freq = { s.freq with count := s.freq.count.set 256 1 } := if_pos heof
  rw [finalizeFreq, if_neg (by simp [hf]), hins]

/-- The first FFIN, with a pseudo-EOF entry (R111). -/
theorem finalizeFreq_of_present {s : State} (hf : s.freq.final = false) (heof : s.freq.count[256] ≠ 0) :
    finalizeFreq s = { s with freq := { s.freq with final := true } } := by
  have hins : insertEof s.freq = s.freq := if_neg heof
  rw [finalizeFreq, if_neg (by simp [hf]), hins]

/-- FFIN leaves FREQ_SAT and every count but that of the pseudo-EOF symbol (R111). -/
theorem finalizeFreq_keeps (s : State) :
    (finalizeFreq s).freq.sat = s.freq.sat ∧
    ∀ x : Symbol, x ≠ 256 → (finalizeFreq s).freq.count[x.val] = s.freq.count[x.val] := by
  cases hf : s.freq.final with
  | true => simp [finalizeFreq_of_final hf]
  | false =>
    by_cases heof : s.freq.count[256] = 0
    · rw [finalizeFreq_of_absent hf heof]
      exact ⟨rfl, fun x hx => Vector.getElem_set_ne (by decide) x.isLt fun h => hx (Fin.ext h.symm)⟩
    · rw [finalizeFreq_of_present hf heof]
      exact ⟨rfl, fun _ _ => rfl⟩

/-! ### The commands -/

/-- A word with RSV = 0 is its operation and its operand side by side (R90). -/
theorem assembleWord_operand (op : BitVec 4) (b : Byte) :
    assembleWord ⟨op, 0, b⟩ = (op ++ (0 : BitVec 4)).setWidth 16 <<< 8 ||| b.setWidth 16 := by
  change (op ++ (0 : BitVec 4)) ++ b = _
  rw [BitVec.append_def, BitVec.setWidth'_eq, BitVec.shiftLeftZeroExtend_eq]

/-- FACC on an open table counts the symbol of its byte (R110). -/
theorem exec_facc_of_open {s : State} (b : Byte) (he : s.error.err = false) (hf : s.freq.final = false) :
    exec (.facc b) s = .next (countSymbol (literal b) s) := by
  rw [exec, execFacc, unlessError_of_ok _ he, require_of_true _ (by rw [hf]; rfl)]

/-- FACC on a final table raises SEQUENCE 1 (R110, R216). -/
theorem exec_facc_of_final {s : State} (b : Byte) (he : s.error.err = false) (hf : s.freq.final = true) :
    exec (.facc b) s = .next (raise (encode (.facc b)) .freqFinalized s) := by
  rw [exec, execFacc, unlessError_of_ok _ he, require_of_false _ (by rw [hf]; rfl)]

theorem exec_ffin_eq {s : State} (he : s.error.err = false) : exec .ffin s = .next (finalizeFreq s) := by
  rw [exec, execFfin, unlessError_of_ok _ he]

/-- Everything FACC can do: it is dropped, it raises, or it counts (R110, R203). -/
theorem exec_facc_cases {b : Byte} {s t : State} (h : exec (.facc b) s = .next t) :
    (s.error.err = true ∧ t = { s with error := { s.error with dropped := true } }) ∨
    (s.error.err = false ∧ s.freq.final = true ∧ t = raise (encode (.facc b)) .freqFinalized s) ∨
    (s.error.err = false ∧ s.freq.final = false ∧ t = countSymbol (literal b) s) := by
  cases he : s.error.err with
  | true =>
    rw [exec, execFacc, unlessError_of_err _ he] at h
    cases h
    exact .inl ⟨rfl, rfl⟩
  | false =>
    cases hf : s.freq.final with
    | true =>
      cases h.symm.trans (exec_facc_of_final b he hf)
      exact .inr (.inl ⟨rfl, rfl, rfl⟩)
    | false =>
      cases h.symm.trans (exec_facc_of_open b he hf)
      exact .inr (.inr ⟨rfl, rfl, rfl⟩)

/-- Everything FFIN can do: it is dropped, or it makes the table final (R111, R203). -/
theorem exec_ffin_cases {s t : State} (h : exec .ffin s = .next t) :
    (s.error.err = true ∧ t = { s with error := { s.error with dropped := true } }) ∨
    (s.error.err = false ∧ t = finalizeFreq s) := by
  cases he : s.error.err with
  | true =>
    rw [exec, execFfin, unlessError_of_err _ he] at h
    cases h
    exact .inl ⟨rfl, rfl⟩
  | false =>
    cases h.symm.trans (exec_ffin_eq he)
    exact .inr ⟨rfl, rfl⟩

/-- A symbol once counted stays present through a FACC, raised, dropped or counted (R110). -/
theorem FreqOk.exec_facc_ne_zero {s t : State} (h : FreqOk s) {b : Byte} (ht : exec (.facc b) s = .next t) {x : Symbol}
    (hx : s.freq.count[x.val] ≠ 0) : t.freq.count[x.val] ≠ 0 := by
  rcases exec_facc_cases ht with ⟨-, rfl⟩ | ⟨-, -, rfl⟩ | ⟨-, -, rfl⟩
  · exact hx
  · exact hx
  · have hle := h.count_le_countSymbol (literal b) x
    bv_omega

/-- Settles O19: the three ways of FACC, and that no count goes down. -/
theorem faccCounts : Obligations.FaccCounts := by
  have hword (b : Byte) : encode (.facc b) = 0x2000 ||| b.setWidth 16 := assembleWord_operand 2 b
  refine ⟨hword, fun s b hp he => ⟨fun hf hi => ?_, fun hf => ⟨fun hmax => ?_, fun hmax => ?_⟩, ?_⟩⟩
  · rw [exec_facc_of_final b he hf, raise_eq_withError hi, hword]
    rfl
  · rw [exec_facc_of_open b he hf, countSymbol_of_max hp hmax]
  · rw [exec_facc_of_open b he hf, countSymbol_of_ne_max hp hmax]
  · exact fun h t ht x hx => h.exec_facc_ne_zero ht hx

/-- Settles O20: the three ways of FFIN; R24 says that the entry is absent before the first. -/
theorem ffinInsertsPseudoEof : Obligations.FfinInsertsPseudoEof := by
  refine ⟨rfl, fun s he => ⟨fun hf => ?_, fun hf heof => ?_, fun hf heof => ?_, fun h hf => ?_⟩⟩
  · rw [exec_ffin_eq he, finalizeFreq_of_final hf]
  · rw [exec_ffin_eq he, finalizeFreq_of_absent hf heof]
  · rw [exec_ffin_eq he, finalizeFreq_of_present hf heof]
  · rw [h.freq.eof_entry, hf]
    rfl

/-! ### The frame -/

/-- `t` has everything of `s` but the frequency table and the error registers, and holds nothing `s` did not hold. -/
def KeepsBesidesFreq (s t : State) : Prop :=
  t.tree = s.tree ∧ t.codes = s.codes ∧ t.dec = s.dec ∧ t.counters = s.counters ∧ t.params = s.params ∧
    t.ports = s.ports ∧ t.draws = s.draws ∧ (s.inflight = none → t.inflight = none)

theorem keepsBesidesFreq_setFreq (s : State) (f : FreqFile) : KeepsBesidesFreq s { s with freq := f } :=
  ⟨rfl, rfl, rfl, rfl, rfl, rfl, rfl, id⟩

theorem keepsBesidesFreq_setError (s : State) (e : ErrReg) : KeepsBesidesFreq s { s with error := e } :=
  ⟨rfl, rfl, rfl, rfl, rfl, rfl, rfl, id⟩

theorem keepsBesidesFreq_raise (w : Word16) (e : Error) (s : State) : KeepsBesidesFreq s (raise w e s) :=
  ⟨rfl, rfl, rfl, rfl, rfl, rfl, rfl, fun _ => rfl⟩

/-- What FACC leaves unchanged, on every path (R110). -/
theorem exec_facc_keeps {b : Byte} {s t : State} (h : exec (.facc b) s = .next t) :
    KeepsBesidesFreq s t ∧ t.freq.final = s.freq.final ∧
    ∀ x : Symbol, x ≠ literal b → t.freq.count[x.val] = s.freq.count[x.val] := by
  rcases exec_facc_cases h with ⟨-, rfl⟩ | ⟨-, -, rfl⟩ | ⟨-, -, rfl⟩
  · exact ⟨keepsBesidesFreq_setError s _, rfl, fun _ _ => rfl⟩
  · exact ⟨keepsBesidesFreq_raise _ _ s, rfl, fun _ _ => rfl⟩
  · refine ⟨?_, countSymbol_final _ s, fun x hx => countSymbol_count_ne hx s⟩
    rw [countSymbol_eq]
    exact keepsBesidesFreq_setFreq s _

/-- What FFIN leaves unchanged, on every path (R111). -/
theorem exec_ffin_keeps {s t : State} (h : exec .ffin s = .next t) :
    KeepsBesidesFreq s t ∧ t.freq.sat = s.freq.sat ∧
    ∀ x : Symbol, x ≠ 256 → t.freq.count[x.val] = s.freq.count[x.val] := by
  rcases exec_ffin_cases h with ⟨-, rfl⟩ | ⟨-, rfl⟩
  · exact ⟨keepsBesidesFreq_setError s _, rfl, fun _ _ => rfl⟩
  · refine ⟨?_, finalizeFreq_keeps s⟩
    rw [finalizeFreq_eq]
    exact keepsBesidesFreq_setFreq s _

/-- Settles O22: the frames of the two commands. -/
theorem countingFrame : Obligations.CountingFrame := by
  intro i s t hi h
  rcases hi with ⟨b, rfl⟩ | rfl
  · obtain ⟨hkeep, hfinal, hcount⟩ := exec_facc_keeps h
    exact ⟨hkeep, fun x hx _ => hcount x (hx b rfl), nofun, fun _ => hfinal⟩
  · obtain ⟨hkeep, hsat, hcount⟩ := exec_ffin_keeps h
    exact ⟨hkeep, fun x _ hx => hcount x (hx rfl), fun _ => hsat, nofun⟩

/-! ### Accumulation -/

/-- A command that completes is followed by the others (R250). -/
theorem execAll_cons_of_next {i : Instr} {is : List Instr} {s t : State} (h : exec i s = .next t)
    (hi : t.inflight = none) : execAll (i :: is) s = execAll is t := by
  rw [execAll, h]
  simp [State.busy, hi]

/-- Different bytes have different symbols (R91). -/
theorem literal_injective : Function.Injective literal := fun _ _ h =>
  BitVec.eq_of_toNat_eq (Fin.mk.inj h)

/-- FACC never counts the pseudo-EOF symbol (R91, R110). -/
theorem literal_ne_eofSym (b : Byte) : literal b ≠ 256 := fun he => literal_ne_eof b (congrArg Fin.val he)

/-- The open table after one FACC for each byte of `bs`, from a table of zeros (R112). -/
structure FreqFile.Accumulated (w : Nat) (bs : List Byte) (f : FreqFile) : Prop where
  count : ∀ b : Byte, (f.count[(literal b).val]).toNat = min (bs.count b) (2 ^ w - 1)
  eof_absent : f.count[256] = 0
  not_final : f.final = false
  sat_iff : f.sat = true ↔ ∃ b : Byte, bs.count b > 2 ^ w - 1

/-- The table after reset has accumulated nothing (R44). -/
theorem accumulated_reset (w : Nat) : State.reset.freq.Accumulated w [] where
  count b := by simp [State.reset]
  eof_absent := by simp [State.reset]
  not_final := rfl
  sat_iff := by simp [State.reset]

/-- Some byte of `bs` and one more `b` occurs more than `m` times when one of `bs` does, or `b` now does. -/
theorem exists_count_append_gt_iff (bs : List Byte) (b : Byte) (m : Nat) :
    (∃ a, (bs ++ [b]).count a > m) ↔ (∃ a, bs.count a > m) ∨ bs.count b ≥ m := by
  constructor
  · rintro ⟨a, ha⟩
    by_cases hab : a = b
    · subst hab
      rw [List.count_append, List.count_singleton_self] at ha
      exact .inr (by omega)
    · rw [List.count_append, List.count_singleton, if_neg (by simpa using Ne.symm hab)] at ha
      exact .inl ⟨a, ha⟩
  · rintro (⟨a, ha⟩ | hb)
    · exact ⟨a, by rw [List.count_append]; omega⟩
    · exact ⟨b, by rw [List.count_append, List.count_singleton_self]; omega⟩

/-- One FACC more (R110, R112). -/
theorem FreqFile.Accumulated.countSymbol {s : State} {bs : List Byte} (hp : ParamsOk s)
    (h : s.freq.Accumulated s.params.countWidth bs) (b : Byte) :
    (countSymbol (literal b) s).freq.Accumulated s.params.countWidth (bs ++ [b]) where
  count a := by
    rw [List.count_append, List.count_singleton]
    by_cases hab : a = b
    · subst hab
      rw [countSymbol_count_self hp (by rw [h.count]; exact Nat.min_le_right _ _), h.count, if_pos (beq_self_eq_true a)]
      omega
    · rw [countSymbol_count_ne (literal_injective.ne hab), h.count, if_neg (by simpa using Ne.symm hab), Nat.add_zero]
  eof_absent := (countSymbol_count_ne (literal_ne_eofSym b).symm s).trans h.eof_absent
  not_final := (countSymbol_final _ s).trans h.not_final
  sat_iff := by
    rw [countSymbol_sat_iff hp, h.sat_iff, exists_count_append_gt_iff, h.count b]
    exact or_congr_right (by omega)

/-- FACC for each byte of a list, in an idle block not in error, ends with the bytes accumulated and only the frequency
table changed (R112). -/
theorem execAll_faccs (bs : List Byte) {is : List Instr} {s : State} {done : List Byte} (hp : ParamsOk s)
    (he : s.error.err = false) (hi : s.inflight = none) (h : s.freq.Accumulated s.params.countWidth done) :
    ∃ f : FreqFile, f.Accumulated s.params.countWidth (done ++ bs) ∧
      execAll (faccs bs ++ is) s = execAll is { s with freq := f } := by
  induction bs generalizing s done with
  | nil => exact ⟨s.freq, by rwa [List.append_nil], rfl⟩
  | cons b bs ih =>
    have hstep := exec_facc_of_open b he h.not_final
    have hnext := h.countSymbol hp b
    rw [countSymbol_eq] at hstep hnext
    obtain ⟨f, hf, hrun⟩ := ih (s := { s with freq := (countSymbol (literal b) s).freq }) hp he hi hnext
    refine ⟨f, by rwa [List.append_cons], ?_⟩
    exact (execAll_cons_of_next hstep hi).trans hrun

/-- Settles O21: FACC for each byte accumulates the bytes, and FFIN then adds the pseudo-EOF entry. -/
theorem accumulationResult : Obligations.AccumulationResult := by
  intro s bs hp
  obtain ⟨f, hf, hrun⟩ :=
    execAll_faccs bs (is := [.ffin]) (s := hardReset s) hp rfl rfl (accumulated_reset s.params.countWidth)
  have hfin := exec_ffin_eq (s := { hardReset s with freq := f }) rfl
  have hset := finalizeFreq_of_absent (s := { hardReset s with freq := f }) hf.not_final hf.eof_absent
  obtain ⟨hsat, hcount⟩ := finalizeFreq_keeps { hardReset s with freq := f }
  refine ⟨_, hrun.trans (execAll_cons_of_next hfin (by rw [hset]; rfl)), fun b => ?_, ?_, ?_, ?_, finalizeFreq_eq _⟩
  · rw [hcount _ (literal_ne_eofSym b)]
    exact hf.count b
  · rw [hset]
    exact Vector.getElem_set_self _
  · rw [hset]
  · rw [hsat]
    exact hf.sat_iff

end Sys2Proof.Machine
end

section
/-!
PROOFS. The queue of BUILD and its merge loop (41_tree_build.md R121, R122, R125, R126).
-/

namespace Sys2Proof.Machine

/-! ### The order of extractMin -/

/-- The order of R121 with equality allowed: least weight, among equal weights least sequence number. -/
def Entry.Le (a b : Entry) : Prop := a.weight < b.weight ∨ (a.weight = b.weight ∧ a.seq ≤ b.seq)

theorem Entry.Le.trans {a b c : Entry} (h : a.Le b) (h' : b.Le c) : a.Le c := by
  unfold Entry.Le at *
  omega

theorem Entry.before_iff (a b : Entry) :
    a.before b = true ↔ a.weight < b.weight ∨ (a.weight = b.weight ∧ a.seq < b.seq) := by
  simp [Entry.before]

theorem Entry.le_of_before {a b : Entry} (h : a.before b = true) : a.Le b :=
  ((Entry.before_iff a b).mp h).imp_right fun ⟨hweight, hseq⟩ => ⟨hweight, hseq.le⟩

/-- The order is total (R121). -/
theorem Entry.le_of_not_before {a b : Entry} (h : ¬ a.before b = true) : b.Le a := by
  rw [Entry.before_iff] at h
  unfold Entry.Le
  omega

/-- `extractMin` answers an entry that is least (R121). -/
theorem le_of_extractMin {q rest : List Entry} {m : Entry} (h : extractMin q = some (m, rest)) :
    ∀ e ∈ rest, m.Le e := by
  induction q generalizing m rest with
  | nil => cases h
  | cons x q ih =>
    rw [extractMin] at h
    split at h
    · rename_i hq
      cases h
      simp [(extractMin_eq_none_iff q).mp hq]
    · rename_i m' rest' hq
      have hleast := ih hq
      split at h
      · rename_i hbefore
        cases h
        exact List.forall_mem_cons.mpr ⟨Entry.le_of_before hbefore, hleast⟩
      · rename_i hbefore
        cases h
        have hx := Entry.le_of_not_before hbefore
        intro e he
        rcases List.mem_cons.mp ((perm_of_extractMin hq).subset he) with rfl | he
        · exact hx
        · exact hx.trans (hleast e he)

/-- Settles O23: what `extractMin` takes out is a permutation of the queue with the least entry first. -/
theorem extractMinIsLeast : Obligations.ExtractMinIsLeast :=
  ⟨extractMin_eq_none_iff, fun _ _ _ h => ⟨perm_of_extractMin h, le_of_extractMin h⟩⟩

/-! ### One merge -/

/-- The entry R122 inserts for the two it extracted, `a` first, with sequence number `n`. -/
def Entry.merge (n : Nat) (a b : Entry) : Entry := ⟨a.weight + b.weight, n, .node a.tree b.tree⟩

theorem mergeOnce_of_extractMin {a b : Entry} {q q1 q2 : List Entry} (n : Nat)
    (ha : extractMin q = some (a, q1)) (hb : extractMin q1 = some (b, q2)) :
    mergeOnce n q = some (q2 ++ [Entry.merge n a b]) := by
  simp only [mergeOnce, ha, hb, Entry.merge]

/-- A merge replaces two entries of the queue by the one merged of them (R122). -/
theorem perm_of_mergeOnce {n : Nat} {q q' : List Entry} (h : mergeOnce n q = some q') :
    ∃ a b rest, q.Perm (a :: b :: rest) ∧ q'.Perm (Entry.merge n a b :: rest) := by
  cases ha : extractMin q with
  | none => simp [mergeOnce, ha] at h
  | some p =>
    obtain ⟨a, q1⟩ := p
    cases hb : extractMin q1 with
    | none => simp [mergeOnce, ha, hb] at h
    | some p =>
      obtain ⟨b, q2⟩ := p
      cases h.symm.trans (mergeOnce_of_extractMin n ha hb)
      have hq : q.Perm (a :: b :: q2) := (perm_of_extractMin ha).trans ((perm_of_extractMin hb).cons a)
      exact ⟨a, b, q2, hq, List.perm_append_singleton _ _⟩

/-- The loop ends when there are no two entries (R122). -/
theorem mergeOnce_eq_none_iff (n : Nat) (q : List Entry) : mergeOnce n q = none ↔ q.length ≤ 1 := by
  rcases mergeOnce_cases n q with ⟨hm, hlt⟩ | ⟨q', hm, hne, hlen⟩
  · exact iff_of_true hm (by omega)
  · have hpos := List.length_pos_iff.mpr hne
    exact iff_of_false (by simp [hm]) (by omega)

/-! ### Many merges -/

theorem queueAfter_succ_of_some {n : Nat} {q q' : List Entry} (k : Nat) (h : mergeOnce n q = some q') :
    queueAfter (k + 1) n q = queueAfter k (n + 1) q' := by
  rw [queueAfter, h]

theorem queueAfter_of_length_le_one {q : List Entry} (k n : Nat) (h : q.length ≤ 1) : queueAfter k n q = q := by
  cases k with
  | zero => rfl
  | succ k => rw [queueAfter, (mergeOnce_eq_none_iff n q).mpr h]

/-- What holds of the counter and the queue, and what every merge keeps, holds after any number of merges (R122). -/
theorem queueAfter_keeps {P : Nat → List Entry → Prop}
    (hmerge : ∀ n q q', mergeOnce n q = some q' → P n q → P (n + 1) q') {n : Nat} {q : List Entry} (k : Nat)
    (h : P n q) : ∃ m, P m (queueAfter k n q) := by
  induction k generalizing n q with
  | zero => exact ⟨n, h⟩
  | succ k ih =>
    cases hm : mergeOnce n q with
    | none =>
      rw [queueAfter_of_length_le_one _ n ((mergeOnce_eq_none_iff n q).mp hm)]
      exact ⟨n, h⟩
    | some q' =>
      rw [queueAfter_succ_of_some k hm]
      exact ih (hmerge n q q' hm h)

/-- Every turn shortens the queue by one entry, down to one (R122). -/
theorem length_queueAfter {n : Nat} {q : List Entry} (k : Nat) (hq : q ≠ []) :
    (queueAfter k n q).length = max (q.length - k) 1 := by
  induction k generalizing n q with
  | zero =>
    have := List.length_pos_iff.mpr hq
    rw [queueAfter]
    omega
  | succ k ih =>
    rcases mergeOnce_cases n q with ⟨-, hlt⟩ | ⟨q', hm, hne, hlen⟩
    · have := List.length_pos_iff.mpr hq
      rw [queueAfter_of_length_le_one _ n (by omega)]
      omega
    · rw [queueAfter_succ_of_some k hm, ih hne]
      omega

/-- The queue of `k + 1` entries or fewer has one entry after `k` turns, and stays (R122). -/
theorem queueAfter_succ_eq {n k : Nat} {q : List Entry} (hlen : q.length ≤ k + 1) :
    queueAfter (k + 1) n q = queueAfter k n q := by
  induction k generalizing n q with
  | zero => exact queueAfter_of_length_le_one 1 n hlen
  | succ k ih =>
    rcases mergeOnce_cases n q with ⟨-, hlt⟩ | ⟨q', hm, -, hlen'⟩
    · rw [queueAfter_of_length_le_one _ n (by omega), queueAfter_of_length_le_one _ n (by omega)]
    · rw [queueAfter_succ_of_some _ hm, queueAfter_succ_of_some _ hm]
      exact ih (by omega)

/-- The merge loop answers the tree of the one entry its turns end with (R122). -/
theorem mergeLoop_eq_loneTree (fuel n : Nat) (q : List Entry) :
    mergeLoop fuel n q = loneTree (queueAfter fuel n q) := by
  induction fuel generalizing n q with
  | zero => rfl
  | succ fuel ih =>
    rw [mergeLoop, queueAfter]
    cases mergeOnce n q with
    | none => rfl
    | some q' => exact ih (n + 1) q'

/-- From `k` entries the loop makes `k - 1` turns and answers the tree of the entry that is left (R122, R126). -/
theorem exists_mergeLoop_eq (n : Nat) {q : List Entry} (hq : q ≠ []) :
    ∃ e, queueAfter (q.length - 1) n q = [e] ∧ mergeLoop q.length n q = some e.tree := by
  obtain ⟨k, hk⟩ := Nat.exists_eq_succ_of_ne_zero (mt List.length_eq_zero_iff.mp hq)
  have hlen := length_queueAfter (n := n) k hq
  obtain ⟨e, he⟩ := List.length_eq_one_iff.mp (hlen.trans (by omega))
  refine ⟨e, by rwa [hk], ?_⟩
  rw [mergeLoop_eq_loneTree, hk, queueAfter_succ_eq (by omega), he, loneTree]

/-! ### Sequence numbers -/

/-- The sequence numbers of a queue are distinct, and the counter is above them (R121). -/
def SeqsBelow (n : Nat) (q : List Entry) : Prop := (∀ e ∈ q, e.seq < n) ∧ (q.map Entry.seq).Nodup

theorem SeqsBelow.perm {n : Nat} {q q' : List Entry} (h : SeqsBelow n q) (hp : q.Perm q') : SeqsBelow n q' :=
  let ⟨hlt, hnodup⟩ := h
  ⟨fun e he => hlt e (hp.mem_iff.mpr he), (hp.map _).nodup_iff.mp hnodup⟩

/-- The merged entry takes the next number (R122). -/
theorem SeqsBelow.mergeOnce {n : Nat} {q q' : List Entry} (hm : mergeOnce n q = some q') (h : SeqsBelow n q) :
    SeqsBelow (n + 1) q' := by
  obtain ⟨a, b, rest, hq, hq'⟩ := perm_of_mergeOnce hm
  obtain ⟨hlt, hnodup⟩ := h.perm hq
  refine SeqsBelow.perm ⟨?_, ?_⟩ hq'.symm
  · simp only [List.forall_mem_cons] at hlt ⊢
    obtain ⟨-, -, hrest⟩ := hlt
    exact ⟨Nat.lt_succ_self n, fun e he => Nat.lt_succ_of_lt (hrest e he)⟩
  · simp only [List.map_cons, List.nodup_cons] at hnodup ⊢
    obtain ⟨-, -, hrest⟩ := hnodup
    refine ⟨fun hn => ?_, hrest⟩
    obtain ⟨e, he, hen⟩ := List.mem_map.mp hn
    exact Nat.ne_of_lt (hlt e (List.mem_cons_of_mem _ (List.mem_cons_of_mem _ he))) hen

/-! ### The queue at the start -/

/-- The entries of R121 as the present symbols with their places. -/
theorem initialQueue_eq_map (count : Vector Word32 257) :
    initialQueue count =
      (presentSymbols count).zipIdx.map fun p => ⟨(count[p.1.val]).toNat, p.2, .leaf p.1⟩ :=
  List.mapIdx_eq_zipIdx_map

/-- The leaves are numbered from 0 in the order of insertion (R121). -/
theorem seqs_initialQueue (count : Vector Word32 257) :
    (initialQueue count).map Entry.seq = List.range (presentSymbols count).length := by
  rw [initialQueue_eq_map, List.map_map, List.range_eq_range']
  exact List.zipIdx_map_snd 0 _

theorem length_initialQueue (count : Vector Word32 257) :
    (initialQueue count).length = (presentSymbols count).length :=
  List.length_mapIdx

theorem seqsBelow_initialQueue (count : Vector Word32 257) :
    SeqsBelow (initialQueue count).length (initialQueue count) := by
  refine ⟨fun e he => ?_, ?_⟩
  · have hseq := List.mem_map_of_mem (f := Entry.seq) he
    rw [seqs_initialQueue] at hseq
    rw [length_initialQueue]
    exact List.mem_range.mp hseq
  · rw [seqs_initialQueue]
    exact List.nodup_range

/-- In an ascending list the place of an element is the number of elements below it. -/
theorem length_filter_lt_getElem {α : Type} [LinearOrder α] {l : List α} (h : l.Pairwise (· < ·)) (i : Nat)
    (hi : i < l.length) : (l.filter (· < l[i])).length = i := by
  induction l generalizing i with
  | nil => exact absurd hi (Nat.not_lt_zero i)
  | cons a l ih =>
    obtain ⟨ha, hl⟩ := List.pairwise_cons.mp h
    cases i with
    | zero =>
      have hnone : l.filter (· < a) = [] := by
        simpa using fun x hx => (ha x hx).le
      simp [hnone]
    | succ i =>
      have hi' : i < l.length := Nat.lt_of_succ_lt_succ hi
      simp [ha _ (List.getElem_mem hi'), ih hl i hi']

theorem mem_presentSymbols {count : Vector Word32 257} {sym : Symbol} :
    sym ∈ presentSymbols count ↔ count[sym.val] ≠ 0 := by
  simp [presentSymbols]

/-- The present symbols are in ascending order (R121). -/
theorem presentSymbols_ascending (count : Vector Word32 257) : (presentSymbols count).Pairwise (· < ·) :=
  (List.pairwise_lt_finRange 257).filter _

/-- A present symbol's place is the number of present symbols below it (R121). -/
theorem index_presentSymbols (count : Vector Word32 257) (i : Nat) (hi : i < (presentSymbols count).length) :
    ((List.finRange 257).filter fun x => x < (presentSymbols count)[i] ∧ count[x.val] ≠ 0).length = i := by
  have hbelow := length_filter_lt_getElem (presentSymbols_ascending count) i hi
  generalize (presentSymbols count)[i] = sym at hbelow ⊢
  rw [presentSymbols, List.filter_filter] at hbelow
  simpa [bne, beq_eq_decide] using hbelow

/-- The leaf entries of R121: one for each present symbol, with its count and the number of present symbols below it. -/
theorem mem_initialQueue_iff (count : Vector Word32 257) (e : Entry) :
    e ∈ initialQueue count ↔
      ∃ sym : Symbol, count[sym.val] ≠ 0 ∧ e.weight = (count[sym.val]).toNat ∧ e.tree = .leaf sym ∧
        e.seq = ((List.finRange 257).filter fun x => x < sym ∧ count[x.val] ≠ 0).length := by
  rw [initialQueue, List.mem_mapIdx]
  constructor
  · rintro ⟨i, hi, rfl⟩
    exact ⟨(presentSymbols count)[i], mem_presentSymbols.mp (List.getElem_mem hi), rfl, rfl,
      (index_presentSymbols count i hi).symm⟩
  · rintro ⟨sym, hsym, hweight, htree, hseq⟩
    obtain ⟨i, hi, rfl⟩ := List.getElem_of_mem (mem_presentSymbols.mpr hsym)
    rw [index_presentSymbols count i hi] at hseq
    refine ⟨i, hi, ?_⟩
    rw [← hweight, ← htree, ← hseq]

/-- Settles O24: the queue at the start, one turn, and the turns of the loop. -/
theorem mergeLoopEndsWithOneTree : Obligations.MergeLoopEndsWithOneTree := by
  refine ⟨mem_initialQueue_iff, fun n q => ⟨fun a b q1 q2 ha hb => ?_, mergeOnce_eq_none_iff n q⟩,
    fun n q hq => ⟨fun k => length_queueAfter k hq, exists_mergeLoop_eq n hq⟩,
    fun count => ⟨fun k => ?_, exists_mergeLoop_eq _⟩⟩
  · exact ⟨_, mergeOnce_of_extractMin n ha hb, List.perm_append_singleton _ _⟩
  · obtain ⟨m, -, hnodup⟩ := queueAfter_keeps (fun _ _ _ => SeqsBelow.mergeOnce) k (seqsBelow_initialQueue count)
    exact hnodup

end Sys2Proof.Machine
end

section
/-!
PROOFS. The weights of BUILD's queue (41_tree_build.md R125).
-/

namespace Sys2Proof.Machine

/-- The weights of a queue together. -/
def totalWeight (q : List Entry) : Nat := (q.map Entry.weight).sum

/-- A merged entry weighs what the two weighed (R122). -/
theorem totalWeight_mergeOnce {n : Nat} {q q' : List Entry} (h : mergeOnce n q = some q') :
    totalWeight q' = totalWeight q := by
  obtain ⟨a, b, rest, hq, hq'⟩ := perm_of_mergeOnce h
  calc totalWeight q'
      = totalWeight (Entry.merge n a b :: rest) := (hq'.map _).sum_eq
    _ = totalWeight (a :: b :: rest) := by simp [totalWeight, Entry.merge, Nat.add_assoc]
    _ = totalWeight q := (hq.map _).sum_eq.symm

theorem totalWeight_queueAfter (k n : Nat) (q : List Entry) : totalWeight (queueAfter k n q) = totalWeight q := by
  obtain ⟨-, h⟩ := queueAfter_keeps (P := fun _ q' => totalWeight q' = totalWeight q)
    (fun _ _ _ hm h => (totalWeight_mergeOnce hm).trans h) (n := n) k rfl
  exact h

theorem totalWeight_initialQueue (count : Vector Word32 257) :
    totalWeight (initialQueue count) = ((presentSymbols count).map fun sym => (count[sym.val]).toNat).sum := by
  have hmap : (initialQueue count).map Entry.weight =
      ((presentSymbols count).zipIdx.map Prod.fst).map fun sym => (count[sym.val]).toNat := by
    rw [initialQueue_eq_map, List.map_map, List.map_map]
    rfl
  rw [totalWeight, hmap, List.zipIdx_map_fst]

theorem length_presentSymbols_le (count : Vector Word32 257) : (presentSymbols count).length ≤ 257 :=
  (List.length_filter_le _ _).trans_eq List.length_finRange

/-- All counts together are below 257 * 2^COUNT_WIDTH, so below 2^(COUNT_WIDTH + 9) (R125). -/
theorem FreqOk.sum_counts_lt {s : State} (h : FreqOk s) (hp : ParamsOk s) :
    ((presentSymbols s.freq.count).map fun sym => (s.freq.count[sym.val]).toNat).sum <
      2 ^ (s.params.countWidth + 9) := by
  have hcount : ∀ x ∈ (presentSymbols s.freq.count).map fun sym => (s.freq.count[sym.val]).toNat,
      x ≤ 2 ^ s.params.countWidth := by
    intro x hx
    obtain ⟨sym, -, rfl⟩ := List.mem_map.mp hx
    have hmax := BitVec.le_def.mp (h.le_max sym)
    rw [maxCount_toNat hp.2] at hmax
    exact hmax.trans (Nat.sub_le _ _)
  have hsum := List.sum_le_card_nsmul _ _ hcount
  rw [List.length_map, smul_eq_mul] at hsum
  calc _ ≤ (presentSymbols s.freq.count).length * 2 ^ s.params.countWidth := hsum
    _ ≤ 257 * 2 ^ s.params.countWidth := Nat.mul_le_mul_right _ (length_presentSymbols_le _)
    _ < 2 ^ (s.params.countWidth + 9) := by
      have hpos := Nat.two_pow_pos s.params.countWidth
      rw [pow_add]
      omega

/-- Settles O25: merges keep the sum of the weights, and no weight is above the sum. -/
theorem weightsNeverOverflow : Obligations.WeightsNeverOverflow := by
  intro s hp h k n
  have hsum := (totalWeight_queueAfter k n (initialQueue s.freq.count)).trans (totalWeight_initialQueue s.freq.count)
  refine ⟨fun e he => ?_, hsum⟩
  calc e.weight ≤ totalWeight (queueAfter k n (initialQueue s.freq.count)) :=
        List.le_sum_of_mem (List.mem_map_of_mem he)
    _ < 2 ^ (s.params.countWidth + 9) := hsum ▸ h.sum_counts_lt hp

end Sys2Proof.Machine
end

section
/-!
PROOFS. The tree BUILD makes, its commit, and what BUILD and CGEN leave unchanged (41_tree_build.md R120, R123, R124,
R126; 44_code_table.md R150).
-/

namespace Sys2Proof.Machine

/-! ### The built tree -/

theorem treeLeaves_buildTree {count : Vector Word32 257} {t : Tree} (h : buildTree count = some t) :
    treeLeaves t = (presentSymbols count).length := by
  rw [← treeSymbols_length, (treeSymbols_buildTree h).length_eq]

/-- Settles O26: the leaves are the present symbols, and the leaves of any tree fix its nodes and bound its depth. -/
theorem builtTreeLeaves : Obligations.BuiltTreeLeaves := by
  intro count t h
  have hleaves := treeLeaves_buildTree h
  have hnodes := treeNodes_succ t
  have hdepth := treeDepth_lt t
  exact ⟨treeSymbols_buildTree h, treeOk_buildTree h, hleaves, by omega, by omega,
    (mem_treeSymbols_buildTree h 256).mpr⟩

theorem presentSymbols_eq_singleton {count : Vector Word32 257} {sym : Symbol}
    (h : ∀ x : Symbol, count[x.val] ≠ 0 ↔ x = sym) : presentSymbols count = [sym] := by
  have hnodup : (presentSymbols count).Nodup := (List.nodup_finRange 257).filter _
  refine List.perm_singleton.mp ((List.perm_ext_iff_of_nodup hnodup (List.nodup_singleton sym)).mpr fun x => ?_)
  rw [mem_presentSymbols, h, List.mem_singleton]

/-- One present symbol: the loop makes no turn (R123). -/
theorem buildTree_of_single {count : Vector Word32 257} {sym : Symbol}
    (h : ∀ x : Symbol, count[x.val] ≠ 0 ↔ x = sym) : buildTree count = some (.leaf sym) := by
  have hqueue : initialQueue count = [⟨(count[sym.val]).toNat, 0, .leaf sym⟩] := by
    rw [initialQueue, presentSymbols_eq_singleton h]
    rfl
  rw [buildTree, hqueue]
  rfl

/-! ### The commands -/

/-- BUILD on a final table commits the tree (R120, R124). -/
theorem exec_build_of_tree {s : State} {t : Tree} (he : s.error.err = false) (hf : s.freq.final = true)
    (ht : buildTree s.freq.count = some t) : exec .build s = .next (commitBuilt t s) := by
  rw [exec, execBuild, unlessError_of_ok _ he, require_of_true _ hf, ht]

/-- Settles O27: a queue of one entry is not merged, and BUILD commits its leaf. -/
theorem degenerateBuild : Obligations.DegenerateBuild :=
  ⟨fun _ _ h => buildTree_of_single h, fun _ he hf h => exec_build_of_tree he hf (buildTree_of_single h)⟩

/-- Settles O28: a table with an entry has a tree, and BUILD commits it. -/
theorem buildCommitsTree : Obligations.BuildCommitsTree := by
  rintro s he hf ⟨sym, hsym⟩
  have hsome : buildTree s.freq.count ≠ none := fun hn => hsym ((buildTree_eq_none_iff _).mp hn sym)
  obtain ⟨t, ht⟩ := Option.ne_none_iff_exists'.mp hsome
  exact ⟨t, ht, exec_build_of_tree he hf ht⟩

/-! ### The frame -/

/-- `t` has everything of `s` but the tree, the codes, the decoder and the error registers, and holds nothing `s` did
not hold. -/
def KeepsBesidesTables (s t : State) : Prop :=
  t.freq = s.freq ∧ t.counters = s.counters ∧ t.params = s.params ∧ t.ports = s.ports ∧ t.draws = s.draws ∧
    (s.inflight = none → t.inflight = none)

/-- What BUILD leaves unchanged, dropped, raised or committed (R120, R124). -/
theorem answers_exec_build (s : State) : Answers (KeepsBesidesTables s) (exec .build s) := by
  rw [exec, execBuild]
  refine answers_unlessError (fun _ => ⟨rfl, rfl, rfl, rfl, rfl, id⟩) fun _ =>
    answers_require ⟨rfl, rfl, rfl, rfl, rfl, fun _ => rfl⟩ fun _ => ?_
  cases buildTree s.freq.count with
  | some t => exact answers_next ⟨rfl, rfl, rfl, rfl, rfl, id⟩
  | none => rintro t ⟨⟩

/-- What CGEN leaves unchanged, dropped, raised or done (R150). -/
theorem answers_exec_cgen (s : State) :
    Answers (fun t => KeepsBesidesTables s t ∧ t.tree = s.tree ∧ t.dec = s.dec) (exec .cgen s) := by
  rw [exec, execCgen]
  refine answers_unlessError (fun _ => ⟨⟨rfl, rfl, rfl, rfl, rfl, id⟩, rfl, rfl⟩) fun _ => ?_
  cases s.tree.value with
  | none => exact answers_next ⟨⟨rfl, rfl, rfl, rfl, rfl, fun _ => rfl⟩, rfl, rfl⟩
  | some t => exact answers_next ⟨⟨rfl, rfl, rfl, rfl, rfl, id⟩, rfl, rfl⟩

/-- Settles O29: the frames of the two commands. -/
theorem tableMakingFrame : Obligations.TableMakingFrame := by
  rintro i s t (rfl | rfl) h
  · obtain ⟨hfreq, hcounters, hparams, hports, hdraws, hidle⟩ := answers_exec_build s t h
    exact ⟨hfreq, hcounters, hparams, hports, hdraws, hidle, nofun⟩
  · obtain ⟨⟨hfreq, hcounters, hparams, hports, hdraws, hidle⟩, hold⟩ := answers_exec_cgen s t h
    exact ⟨hfreq, hcounters, hparams, hports, hdraws, hidle, fun _ => hold⟩

end Sys2Proof.Machine
end

section
/-!
PROOFS. The recursion `des()` of 42_tree_deserialize.md R131 as rules, one for each of its ends: that it comes to an end,
what the tree it returns has to do with the bits it read (R133, R134), and that the explicit-stack traversal under any
stack of pending nodes does what it does.
-/

namespace Sys2Proof.Machine

/-! ### A leaf's payload -/

/-- Nine bits whose value is a symbol are the symbol's `bits9` (R11). -/
theorem bits9_bitsValue {q : Bits} (hq : q.length = 9) (hv : bitsValue q < 257) : bits9 ⟨bitsValue q, hv⟩ = q := by
  have hbits : bits9 ⟨bitsValue q, hv⟩ = (List.range 9).map fun j => (bitsValue q).testBit (9 - 1 - j) := rfl
  refine List.ext_getElem (by rw [bits9_length, hq]) fun j _ hj => ?_
  simp [hbits, bitsValue_testBit_msb hq (hq ▸ hj), hj]

/-- A leaf ends inside its payload. -/
theorem desLeaf_of_short {bs : Bits} (h : bs.length < 9) (count : Nat) (seen : List Symbol) :
    desLeaf bs count seen = .raised .truncLeaf [] := if_pos h

/-- A leaf with its payload `q` read. -/
theorem desLeaf_append {q : Bits} (hq : q.length = 9) (bs : Bits) (count : Nat) (seen : List Symbol) :
    desLeaf (q ++ bs) count seen =
      if h : bitsValue q < 257 then
        if (⟨bitsValue q, h⟩ : Symbol) ∈ seen then .raised (.dupSymbol (BitVec.ofNat 9 (bitsValue q))) bs
        else .tree (.leaf ⟨bitsValue q, h⟩) bs count (⟨bitsValue q, h⟩ :: seen)
      else .raised (.badSymbol (BitVec.ofNat 9 (bitsValue q))) bs := by
  have hlen : ¬ (q ++ bs).length < 9 := by rw [List.length_append]; omega
  rw [desLeaf, if_neg hlen, List.take_left' hq, List.drop_left' hq]

/-- A leaf that `desLeaf` accepts is written in the bits it took. -/
theorem desLeaf_eq_tree {bs rest : Bits} {t : Tree} {count count' : Nat} {seen seen' : List Symbol}
    (h : desLeaf bs count seen = .tree t rest count' seen') :
    false :: bs = serTree t ++ rest ∧ count' = count := by
  by_cases hlen : bs.length < 9
  · rw [desLeaf_of_short hlen] at h; cases h
  · have hq : (bs.take 9).length = 9 := by rw [List.length_take]; omega
    rw [← List.take_append_drop 9 bs, desLeaf_append hq] at h
    split at h
    · split at h
      · cases h
      · cases h
        refine ⟨?_, rfl⟩
        rw [serTree, bits9_bitsValue hq, List.append_assoc, List.take_append_drop]
        rfl
    · cases h

/-! ### The recursion as rules -/

/-- An outcome of the right subtree as an outcome of the node with left subtree `l` (R131). -/
def DesOutcome.withLeft (l : Tree) : DesOutcome → DesOutcome
  | .tree r rest count seen => .tree (.node l r) rest count seen
  | .raised e rest => .raised e rest

/-- `des()` of R131 on some bits followed by END, with `count` and `seen`, ends with the outcome. -/
inductive DesEnds : Bits → Nat → List Symbol → DesOutcome → Prop
  /-- END at the discriminator -/
  | truncated {count : Nat} {seen : List Symbol} : DesEnds [] count seen (.raised .truncDisc [])
  /-- one discriminator too many -/
  | capacity {d : Bool} {bs : Bits} {count : Nat} {seen : List Symbol} (hfull : Config.nodeCap < count + 1) :
      DesEnds (d :: bs) count seen (.raised .capacity bs)
  /-- a leaf -/
  | leaf {bs : Bits} {count : Nat} {seen : List Symbol} (hroom : count + 1 ≤ Config.nodeCap) :
      DesEnds (false :: bs) count seen (desLeaf bs (count + 1) seen)
  /-- the left subtree of a node raises -/
  | left {bs rest : Bits} {count : Nat} {seen : List Symbol} {e : Error} (hroom : count + 1 ≤ Config.nodeCap)
      (hl : DesEnds bs (count + 1) seen (.raised e rest)) : DesEnds (true :: bs) count seen (.raised e rest)
  /-- the left subtree of a node is read, and the right subtree decides -/
  | node {bs mid : Bits} {count count' : Nat} {seen seen' : List Symbol} {l : Tree} {o : DesOutcome}
      (hroom : count + 1 ≤ Config.nodeCap) (hl : DesEnds bs (count + 1) seen (.tree l mid count' seen'))
      (hr : DesEnds mid count' seen' o) : DesEnds (true :: bs) count seen (o.withLeft l)

/-- A tree that `des()` returns is the one written in the bits read, and `count` grew but not beyond NODE_CAP (R134). -/
theorem DesEnds.tree_spec {bs : Bits} {count : Nat} {seen : List Symbol} {o : DesOutcome} (h : DesEnds bs count seen o) :
    ∀ {t rest count' seen'}, o = .tree t rest count' seen' →
      bs = serTree t ++ rest ∧ count < count' ∧ count' ≤ Config.nodeCap := by
  induction h with
  | truncated => rintro _ _ _ _ ⟨⟩
  | capacity => rintro _ _ _ _ ⟨⟩
  | left => rintro _ _ _ _ ⟨⟩
  | leaf hroom =>
    intro t rest count' seen' ho
    obtain ⟨hbits, rfl⟩ := desLeaf_eq_tree ho
    exact ⟨hbits, Nat.lt_succ_self _, hroom⟩
  | @node _ _ _ _ _ _ l o hroom _ _ ihl ihr =>
    intro t rest count' seen' ho
    cases o with
    | raised e rest => cases ho
    | tree r rest count seen =>
      cases ho
      obtain ⟨hbits, hlt, -⟩ := ihl rfl
      obtain ⟨hbits', hlt', hle⟩ := ihr rfl
      refine ⟨?_, by omega, hle⟩
      rw [hbits, hbits', serTree, List.append_assoc, List.append_assoc]
      rfl

/-! ### The fuel of `desRec` -/

theorem desRec_capacity {count : Nat} (fuel : Nat) (d : Bool) (bs : Bits) (seen : List Symbol)
    (h : Config.nodeCap < count + 1) : desRec (fuel + 1) (d :: bs) count seen = some (.raised .capacity bs) := if_pos h

theorem desRec_leaf {count : Nat} (fuel : Nat) (bs : Bits) (seen : List Symbol) (h : count + 1 ≤ Config.nodeCap) :
    desRec (fuel + 1) (false :: bs) count seen = some (desLeaf bs (count + 1) seen) := if_neg (Nat.not_lt.mpr h)

/-- The left subtree raises, and so does the node. -/
theorem desRec_node_raised {fuel count : Nat} {bs rest : Bits} {seen : List Symbol} {e : Error}
    (h : count + 1 ≤ Config.nodeCap) (hl : desRec fuel bs (count + 1) seen = some (.raised e rest)) :
    desRec (fuel + 1) (true :: bs) count seen = some (.raised e rest) := by
  rw [desRec, if_neg (Nat.not_lt.mpr h), if_pos rfl, hl]

/-- The left subtree is read, and the outcome of the right subtree is the node's. -/
theorem desRec_node_tree {fuel count count' : Nat} {bs mid : Bits} {seen seen' : List Symbol} {l : Tree} {o : DesOutcome}
    (h : count + 1 ≤ Config.nodeCap) (hl : desRec fuel bs (count + 1) seen = some (.tree l mid count' seen'))
    (hr : desRec fuel mid count' seen' = some o) :
    desRec (fuel + 1) (true :: bs) count seen = some (o.withLeft l) := by
  rw [desRec, if_neg (Nat.not_lt.mpr h), if_pos rfl, hl]
  simp only [hr]
  cases o <;> rfl

/-- The recursion comes to an end: each level of nesting counts a node, so fuel for more than the nodes that NODE_CAP
leaves is enough (R131). -/
theorem exists_desRec_eq {fuel count : Nat} (bs : Bits) (seen : List Symbol) (hfuel : Config.nodeCap < fuel + count)
    (hcount : count ≤ Config.nodeCap) : ∃ o, desRec fuel bs count seen = some o ∧ DesEnds bs count seen o := by
  induction fuel generalizing bs count seen with
  | zero => omega
  | succ fuel ih =>
    cases bs with
    | nil => exact ⟨_, rfl, .truncated⟩
    | cons d bs =>
      rcases Nat.lt_or_ge Config.nodeCap (count + 1) with hfull | hroom
      · exact ⟨_, desRec_capacity fuel d bs seen hfull, .capacity hfull⟩
      cases d with
      | false => exact ⟨_, desRec_leaf fuel bs seen hroom, .leaf hroom⟩
      | true =>
        obtain ⟨o, hl, hol⟩ := ih bs seen (count := count + 1) (by omega) hroom
        cases o with
        | raised e rest => exact ⟨_, desRec_node_raised hroom hl, .left hroom hol⟩
        | tree l mid count' seen' =>
          obtain ⟨-, hlt, hle⟩ := hol.tree_spec rfl
          obtain ⟨o, hr, hor⟩ := ih mid seen' (count := count') (by omega) hle
          exact ⟨_, desRec_node_tree hroom hl hr, .node hroom hol hor⟩

/-! ### The traversal to its end -/

/-- What DESER's traversal comes to on some bits followed by END, and the bits left (R131). -/
def Des.runToEnd (d : Des) (bs : Bits) : Except Error Tree × Bits :=
  (Sum.elim (fun d' => .error d'.atEnd) id (feed Des.bit d bs).1, (feed Des.bit d bs).2.1)

theorem Des.runToEnd_nil (d : Des) : d.runToEnd [] = (.error d.atEnd, []) := rfl

theorem Des.runToEnd_cons (d : Des) (b : Bool) (bs : Bits) :
    d.runToEnd (b :: bs) = Sum.elim (Des.runToEnd · bs) (·, bs) (d.bit b) := by
  rw [Des.runToEnd]
  cases h : d.bit b with
  | inr r => rw [feed_cons_inr bs h]; rfl
  | inl d' => rw [feed_cons_inl bs h]; rfl

/-- Where the traversal with the pending nodes `k` gets to from an outcome of `des()` for the current subtree. -/
def DesOutcome.under (k : List Frame) : DesOutcome → Except Error Tree × Bits
  | .raised e rest => (.error e, rest)
  | .tree t rest count seen =>
    Sum.elim (fun whole => (.ok whole, rest)) (fun k' => Des.runToEnd ⟨k', count, seen, none⟩ rest) (climb k t)

/-- A complete payload does in the traversal what it does in the recursion. -/
theorem runToEnd_leaf {q : Bits} (hq : q.length = 9) (k : List Frame) (count : Nat) (seen : List Symbol)
    (p : Option Bits) (bs : Bits) :
    Sum.elim (Des.runToEnd · bs) (·, bs) (Des.leaf ⟨k, count, seen, p⟩ (bitsValue q)) =
      (desLeaf (q ++ bs) count seen).under k := by
  rw [desLeaf_append hq, Des.leaf]
  split
  · split
    · rfl
    · simp only [DesOutcome.under]
      cases climb k (.leaf ⟨bitsValue q, ‹_›⟩) <;> rfl
  · rfl

/-- Inside a leaf, with `p` of its payload read, the traversal does what `desLeaf` does. -/
theorem runToEnd_payload {p : Bits} (hp : p.length < 9) (k : List Frame) (count : Nat) (seen : List Symbol) (bs : Bits) :
    Des.runToEnd ⟨k, count, seen, some p⟩ bs = (desLeaf (p ++ bs) count seen).under k := by
  induction bs generalizing p with
  | nil => rw [Des.runToEnd_nil, List.append_nil, desLeaf_of_short hp]; rfl
  | cons b bs ih =>
    have hsplit : p ++ b :: bs = (p ++ [b]) ++ bs := by simp
    rw [Des.runToEnd_cons, hsplit]
    rcases Nat.lt_or_ge (p.length + 1) 9 with hlt | hge
    · rw [← ih (p := p ++ [b]) (by simpa using hlt)]
      simp [Des.bit, hlt]
    · have hlast : ¬ p.length + 1 < Config.symWidth := Nat.not_lt.mpr hge
      rw [← runToEnd_leaf (q := p ++ [b]) (by simp; omega) k count seen (some p)]
      simp only [Des.bit, if_neg hlast]

/-- Under any pending nodes, the traversal at a discriminator does what the recursion does (R131). -/
theorem DesEnds.runToEnd_eq {bs : Bits} {count : Nat} {seen : List Symbol} {o : DesOutcome} (h : DesEnds bs count seen o)
    (k : List Frame) : Des.runToEnd ⟨k, count, seen, none⟩ bs = o.under k := by
  induction h generalizing k with
  | truncated => exact Des.runToEnd_nil _
  | capacity hfull =>
    rw [Des.runToEnd_cons, Des.bit, if_pos hfull]
    rfl
  | leaf hroom =>
    rw [Des.runToEnd_cons, Des.bit, if_neg (Nat.not_lt.mpr hroom)]
    exact runToEnd_payload (p := []) (by decide) k _ _ _
  | left hroom _ ihl =>
    rw [Des.runToEnd_cons, Des.bit, if_neg (Nat.not_lt.mpr hroom)]
    exact ihl (.awaitLeft :: k)
  | @node _ _ _ _ _ _ l o hroom _ _ ihl ihr =>
    rw [Des.runToEnd_cons, Des.bit, if_neg (Nat.not_lt.mpr hroom)]
    have hleft := (ihl (.awaitLeft :: k)).trans (ihr (.awaitRight l :: k))
    refine hleft.trans ?_
    cases o <;> rfl

/-- From the start, the traversal comes to the outcome of the recursion (R131). -/
theorem exists_desRec_runToEnd (bs : Bits) : ∃ o, desRec 514 bs 0 [] = some o ∧ DesEnds bs 0 [] o ∧
    Des.begin.runToEnd bs = o.under [] := by
  obtain ⟨o, ho, hends⟩ := exists_desRec_eq (fuel := 514) (count := 0) bs [] (by decide) (by decide)
  exact ⟨o, ho, hends, hends.runToEnd_eq []⟩

end Sys2Proof.Machine
end

section
/-!
PROOFS. The command DESER (42_tree_deserialize.md R130 to R134).
-/

namespace Sys2Proof.Machine

/-- DESER when it runs (R130): the old tree and its tables are dropped, and the traversal begins. -/
theorem exec_deser_eq {s : State} (he : s.error.err = false) :
    exec .deser s = .next (runDes 0x5000 Des.begin (setTree none false (dropTables s))) := by
  rw [exec, execDeser, unlessError_of_ok _ he]
  rfl

/-- How DESER ends on the result of its traversal: with its tree, or with its error (R131, R133). -/
def desCommit (w : Word16) (s : State) : Except Error Tree → State
  | .ok t => complete (setTree (some t) true s)
  | .error e => raise w e s

/-- On a stream closed with END, DESER takes the bits the traversal takes and ends on its result. -/
theorem runDes_of_end {s : State} (w : Word16) (d : Des) (hend : s.ports.bitInEnd = true) :
    ∃ taken, s.ports.bitIn = taken ++ (d.runToEnd s.ports.bitIn).2 ∧
      runDes w d s = desCommit w (tookBits (d.runToEnd s.ports.bitIn).2 taken.length s) (d.runToEnd s.ports.bitIn).1 := by
  obtain ⟨taken, hin, hn⟩ := feed_split Des.bit d s.ports.bitIn
  refine ⟨taken, ?_⟩
  rw [Des.runToEnd, runDes]
  rcases hf : feed Des.bit d s.ports.bitIn with ⟨d' | e | t, rest, n⟩ <;> rw [hf] at hin hn <;> cases hn
  · exact ⟨hin, if_pos hend⟩
  · exact ⟨hin, rfl⟩
  · exact ⟨hin, rfl⟩

/-- Settles O32: the recursion ends, and the traversal from the start comes to its outcome. -/
theorem deserRefinesRecursion : Obligations.DeserRefinesRecursion := by
  intro s he hend
  obtain ⟨o, ho, -, hrun⟩ := exists_desRec_runToEnd s.ports.bitIn
  obtain ⟨taken, hin, hdes⟩ := runDes_of_end (s := setTree none false (dropTables s)) 0x5000 Des.begin hend
  rw [setTree_ports, dropTables_ports, hrun] at hin hdes
  rw [exec_deser_eq he, hdes, ho]
  refine ⟨⟨o, rfl⟩, ?_, ?_⟩
  · rintro t rest count seen ⟨⟩
    exact ⟨taken, hin, rfl⟩
  · rintro e rest ⟨⟩
    exact ⟨taken, hin, rfl⟩

/-- Settles O31: DESER ends with a tree only if the traversal returns it, and then the recursion does. -/
theorem deserConsumesOneTree : Obligations.DeserConsumesOneTree := by
  intro s s' t he hexec ht
  rw [exec_deser_eq he] at hexec
  cases hexec
  obtain ⟨taken, rest, hin, ⟨t', hfeed, hw⟩ | ⟨e, -, hw⟩ | ⟨d', -, -, -, hw⟩⟩ :=
    runDes_cases 0x5000 Des.begin (setTree none false (dropTables s)) <;> rw [hw] at ht ⊢ <;> cases ht
  have hok := feed_keeps (fun d b => Des.Ok.bit (d := d) b) Des.begin_ok s.ports.bitIn
  obtain ⟨o, -, hends, hrun⟩ := exists_desRec_runToEnd s.ports.bitIn
  rw [setTree_ports, dropTables_ports] at hfeed hin
  rw [hfeed] at hok
  rw [Des.runToEnd, hfeed] at hrun
  cases o with
  | raised e rest => cases hrun
  | tree _ _ count seen =>
    cases hrun
    obtain ⟨hbits, -, -⟩ := hends.tree_spec rfl
    have htaken : taken = serTree t := List.append_cancel_right (hin.symm.trans hbits)
    subst htaken
    exact ⟨hok t rfl, rfl, rfl, rfl, hin, rfl⟩

/-- Settles O33: a dropped DESER changes an error flag only; one that runs moves bits from BIT_IN and writes the tree, its
tables, the error registers and the held command. -/
theorem deserFrame : Obligations.DeserFrame := by
  intro s
  change Answers _ (exec .deser s)
  rw [exec, execDeser]
  refine answers_unlessError (fun _ => ⟨rfl, rfl, rfl, rfl, rfl, rfl, [], rfl⟩) fun _ => answers_next ?_
  obtain ⟨taken, rest, hin, ⟨t, -, hw⟩ | ⟨e, -, hw⟩ | ⟨d', rfl, -, -, hw⟩⟩ :=
    runDes_cases (encode .deser) Des.begin (setTree none false (dropTables s)) <;> rw [hw] <;>
    exact ⟨rfl, rfl, rfl, rfl, rfl, rfl, taken, hin⟩

end Sys2Proof.Machine
end

section
/-!
PROOFS. The serialization of a tree (43_tree_serialize.md R141 to R143): its length, and that the recursion `des()` and
DESER read the tree back from it.
-/

namespace Sys2Proof.Machine

/-- One discriminator for each node and nine payload bits for each leaf (R141). -/
theorem serTree_length (t : Tree) : (serTree t).length = treeNodes t + 9 * treeLeaves t := by
  induction t with
  | leaf s => rfl
  | node l r ihl ihr =>
    simp only [serTree, treeNodes, treeLeaves, List.length_append, List.length_singleton, ihl, ihr]
    omega

/-- Settles O35: the nodes are one fewer than twice the leaves. -/
theorem serializationLength : Obligations.SerializationLength := by
  intro t
  have hnodes := treeNodes_succ t
  have hlen := serTree_length t
  omega

/-- The payload of a symbol not yet seen is its leaf (R131). -/
theorem desLeaf_bits9 {sym : Symbol} {seen : List Symbol} (hnew : sym ∉ seen) (rest : Bits) (count : Nat) :
    desLeaf (bits9 sym ++ rest) count seen = .tree (.leaf sym) rest count (sym :: seen) := by
  simp only [desLeaf_append (bits9_length sym), bitsValue_bits9, Fin.eta, sym.isLt, dif_pos, if_neg hnew]

/-- On the serialization of a tree whose symbols are distinct and not yet seen, with room for its nodes, `des()` returns
the tree, whatever follows (R131, R143). -/
theorem desEnds_serTree (t : Tree) (rest : Bits) {count : Nat} {seen : List Symbol}
    (hnew : ((treeSymbols t).reverse ++ seen).Nodup) (hroom : count + treeNodes t ≤ Config.nodeCap) :
    DesEnds (serTree t ++ rest) count seen (.tree t rest (count + treeNodes t) ((treeSymbols t).reverse ++ seen)) := by
  induction t generalizing rest count seen with
  | leaf sym =>
    have hleaf := DesEnds.leaf (bs := bits9 sym ++ rest) (seen := seen) hroom
    have hsym : sym ∉ seen := (List.nodup_cons.mp hnew).1
    rwa [desLeaf_bits9 hsym] at hleaf
  | node l r ihl ihr =>
    rw [treeSymbols, List.reverse_append, List.append_assoc] at hnew ⊢
    rw [treeNodes] at hroom
    have hl := ihl (serTree r ++ rest) (count := count + 1) hnew.of_append_right (by omega)
    have hr := ihr rest (count := count + 1 + treeNodes l) hnew (by omega)
    have hcount : count + treeNodes (.node l r) = count + 1 + treeNodes l + treeNodes r := by rw [treeNodes]; omega
    rw [hcount, serTree, List.append_assoc, List.append_assoc]
    exact .node (by omega) hl hr

/-- DESER's traversal reads a tree of R28 back from its serialization, whatever follows (R143). -/
theorem runToEnd_serTree {t : Tree} (h : TreeOk t) (rest : Bits) :
    Des.begin.runToEnd (serTree t ++ rest) = (.ok t, rest) := by
  have hroom : 0 + treeNodes t ≤ 513 := by
    have hnodes := treeNodes_succ t
    have hleaves := treeLeaves_le h
    omega
  have hnew : ((treeSymbols t).reverse ++ []).Nodup := by
    rw [List.append_nil]
    exact List.nodup_reverse.mpr h
  exact (desEnds_serTree t rest hnew hroom).runToEnd_eq []

/-- A traversal that returns a tree and leaves `rest` took the bits before `rest`. -/
theorem feed_of_runToEnd_ok {d : Des} {taken rest : Bits} {t : Tree} (h : d.runToEnd (taken ++ rest) = (.ok t, rest)) :
    feed Des.bit d (taken ++ rest) = (.inr (.ok t), rest, taken.length) := by
  obtain ⟨taken', hin, hn⟩ := feed_split Des.bit d (taken ++ rest)
  rw [Des.runToEnd] at h
  rcases hf : feed Des.bit d (taken ++ rest) with ⟨d' | r, rest', n⟩ <;> rw [hf] at h hin hn <;> cases h
  cases hn
  rw [List.append_cancel_right hin]

/-- Settles O30: DESER's traversal returns the tree, and DESER commits it. -/
theorem deserInvertsSer : Obligations.DeserInvertsSer := by
  intro s t rest he hok hin
  have hfeed := feed_of_runToEnd_ok (runToEnd_serTree hok rest)
  rw [← hin] at hfeed
  rw [exec_deser_eq he, runDes, setTree_ports, dropTables_ports, hfeed]
  rfl

end Sys2Proof.Machine
end

section
/-!
PROOFS. The commands that write BIT_OUT (43_tree_serialize.md R140; 45_encoder.md R160, R161): SER with room for its
bits, and the frame of SER, ENC and EEOF.
-/

namespace Sys2Proof.Machine

/-- WriteBits of no more bits than the host accepts (R62, R64). -/
theorem writeBits_of_room {s : State} {bs : Bits} (w : Word16) (finish : Bool)
    (hroom : roomFor s.ports.bitRoom bs.length) :
    writeBits w bs finish s =
      { s.afterWriting bs with
        codes := { s.codes with encDone := s.codes.encDone || finish }
        inflight := none } := by
  rcases writeBits_cases w bs finish s with ⟨-, hw⟩ | ⟨n, hn, hlt, -⟩
  · exact hw
  · exact absurd (hroom n hn) (Nat.not_le.mpr hlt)

/-- Settles O34: SER writes its bits at once and sets no flag. -/
theorem serWritesTree : Obligations.SerWritesTree := by
  intro s t he ht hroom
  rw [exec_ser_eq he ht, writeBits_of_room _ _ hroom, Bool.or_false]
  rfl

/-- `t` has everything of `s` but BIT_OUT and its room, OUT_BITS, the error registers and the held command, and, if
`finish` allows it, ENC_DONE. -/
structure KeepsBesidesBitOut (finish : Bool) (s t : State) : Prop where
  freq : t.freq = s.freq
  tree : t.tree = s.tree
  dec : t.dec = s.dec
  params : t.params = s.params
  draws : t.draws = s.draws
  codes : t.codes = { s.codes with encDone := t.codes.encDone }
  codes_of_not_finish : finish = false → t.codes = s.codes
  inBits : t.counters.inBits = s.counters.inBits
  outBytes : t.counters.outBytes = s.counters.outBytes
  ports : t.ports = { s.ports with bitOut := t.ports.bitOut, bitRoom := t.ports.bitRoom }

theorem keepsBesidesBitOut_dropped (finish : Bool) (s : State) :
    KeepsBesidesBitOut finish s { s with error := { s.error with dropped := true } } :=
  ⟨rfl, rfl, rfl, rfl, rfl, rfl, fun _ => rfl, rfl, rfl, rfl⟩

theorem keepsBesidesBitOut_raise (finish : Bool) (w : Word16) (e : Error) (s : State) :
    KeepsBesidesBitOut finish s (raise w e s) :=
  ⟨rfl, rfl, rfl, rfl, rfl, rfl, fun _ => rfl, rfl, rfl, rfl⟩

/-- WriteBits sets ENC_DONE only at the end of EEOF, held or not (R62, R64, R161). -/
theorem keepsBesidesBitOut_writeBits (w : Word16) (bs : Bits) (finish : Bool) (s : State) :
    KeepsBesidesBitOut finish s (writeBits w bs finish s) := by
  rcases writeBits_cases w bs finish s with ⟨-, hw⟩ | ⟨n, -, -, hw⟩ <;> rw [hw]
  · exact ⟨rfl, rfl, rfl, rfl, rfl, rfl, fun h => by simp [h], rfl, rfl, rfl⟩
  · exact ⟨rfl, rfl, rfl, rfl, rfl, rfl, fun _ => rfl, rfl, rfl, rfl⟩

/-- What SER leaves unchanged, dropped, raised, done or held (R140). -/
theorem answers_exec_ser (s : State) : Answers (KeepsBesidesBitOut false s) (exec .ser s) := by
  rw [exec, execSer]
  refine answers_unlessError (fun _ => keepsBesidesBitOut_dropped _ s) fun _ => ?_
  cases s.tree.value with
  | none => exact answers_next (keepsBesidesBitOut_raise _ _ _ s)
  | some t => exact answers_next (keepsBesidesBitOut_writeBits _ _ _ s)

/-- What ENC and EEOF leave unchanged, dropped, raised, done or held (R160, R161). -/
theorem answers_unlessError_encodeSymbol (w : Word16) (sym : Symbol) (finish : Bool) (s : State) :
    Answers (KeepsBesidesBitOut finish s) (unlessError s fun s => encodeSymbol w sym finish s) := by
  refine answers_unlessError (fun _ => keepsBesidesBitOut_dropped _ s) fun _ =>
    answers_require (keepsBesidesBitOut_raise _ _ _ s) fun _ =>
      answers_require (keepsBesidesBitOut_raise _ _ _ s) fun _ => ?_
  cases codeOf s sym with
  | none => exact answers_next (keepsBesidesBitOut_raise _ _ _ s)
  | some c => exact answers_next (keepsBesidesBitOut_writeBits _ _ _ s)

/-- The three writing commands keep everything but BIT_OUT, and only EEOF may set ENC_DONE. -/
theorem answers_exec_writing {i : Instr} (hi : i = .ser ∨ (∃ b, i = .enc b) ∨ i = .eeof) (s : State) :
    Answers (KeepsBesidesBitOut (decide (i = .eeof)) s) (exec i s) := by
  rcases hi with rfl | ⟨b, rfl⟩ | rfl
  · exact answers_exec_ser s
  · exact answers_unlessError_encodeSymbol _ _ false s
  · exact answers_unlessError_encodeSymbol _ _ true s

/-- Settles O43: each command's frame, and what it appends is what it transfers. -/
theorem writingFrame : Obligations.WritingFrame := by
  intro i s t hi h
  obtain ⟨hfreq, htree, hdec, hparams, hdraws, hcodes, hnot, hin, hbytes, hports⟩ := answers_exec_writing hi s t h
  have hclear : i ≠ .clear := by rintro rfl; simp at hi
  obtain ⟨out, hout, -⟩ := (transfers_exec hclear s t h).bitOut
  exact ⟨hfreq, htree, hdec, hparams, hdraws, hcodes, fun hne => hnot (decide_eq_false hne), hin, hbytes, hports,
    out, hout⟩

end Sys2Proof.Machine
end

section
/-!
PROOFS. CGEN and the code table (44_code_table.md R150, R151, R153): the command's effect, the code of a symbol is the
path to its leaf, and the table is a prefix code.
-/

namespace Sys2Proof.Machine

/-- Settles O36: the arm of CGEN with a tree. -/
theorem cgenMakesTable : Obligations.CgenMakesTable := by
  intro s t he ht
  rw [exec, execCgen, unlessError_of_ok _ he, ht]

/-! ### Codes are paths -/

/-- `gen` writes the entries of leaf symbols only (R151). -/
theorem gen_of_notMem {t : Tree} {sym : Symbol} (h : sym ∉ treeSymbols t) (p : Bits)
    (code : Vector (Option Bits) 257) : (gen t p code)[sym.val] = code[sym.val] := by
  induction t generalizing p code with
  | leaf s =>
    have hne : s.val ≠ sym.val := fun hs => h (List.mem_singleton.mpr (Fin.ext hs.symm))
    exact Vector.getElem_set_ne _ _ hne
  | node l r ihl ihr =>
    rw [treeSymbols, List.mem_append, not_or] at h
    rw [gen, ihr h.2, ihl h.1]

/-- `gen` writes `p` and the path to the leaf of a symbol, which no other leaf overwrites (R28, R151). -/
theorem gen_of_subtreeAt {t : Tree} {q : Bits} {sym : Symbol} (hok : TreeOk t) (hq : subtreeAt t q = some (.leaf sym))
    (p : Bits) (code : Vector (Option Bits) 257) : (gen t p code)[sym.val] = some (p ++ q) := by
  induction t generalizing p q code with
  | leaf s =>
    cases q with
    | nil =>
      cases hq
      rw [List.append_nil]
      exact Vector.getElem_set_self _
    | cons b q => cases hq
  | node l r ihl ihr =>
    obtain ⟨hl, hr, hdisj⟩ := List.nodup_append'.mp hok
    match q with
    | [] => cases hq
    | false :: q =>
      rw [gen, gen_of_notMem (hdisj (subtreeAt_symbol hq)), ihl hl hq, List.append_assoc, List.singleton_append]
    | true :: q => rw [gen, ihr hr hq, List.append_assoc, List.singleton_append]

/-- Settles O37: a code is a path to a leaf of its symbol, and `gen` writes the path to the one such leaf. -/
theorem codesArePaths : Obligations.CodesArePaths :=
  fun _ hok _ _ => ⟨subtreeAt_of_codeTable, fun hc => gen_of_subtreeAt hok hc [] _⟩

/-! ### The prefix code -/

/-- The leaf symbols are the symbols with a path to a leaf. -/
theorem mem_treeSymbols {t : Tree} {sym : Symbol} :
    sym ∈ treeSymbols t ↔ ∃ p, subtreeAt t p = some (.leaf sym) :=
  ⟨exists_path t sym, fun ⟨_, hp⟩ => subtreeAt_symbol hp⟩

/-- A symbol has a code iff it is at a leaf (R153). -/
theorem codeTable_ne_none {t : Tree} (hok : TreeOk t) (sym : Symbol) :
    (codeTable t)[sym.val] ≠ none ↔ sym ∈ treeSymbols t := by
  rw [Option.ne_none_iff_exists', mem_treeSymbols]
  exact exists_congr (codesArePaths t hok sym)

/-- A leaf is not on the way to another leaf. -/
theorem eq_of_subtreeAt_prefix {t : Tree} {p q : Bits} {a b : Symbol} (ha : subtreeAt t p = some (.leaf a))
    (hb : subtreeAt t q = some (.leaf b)) (hpq : p <+: q) : a = b := by
  obtain ⟨rest, rfl⟩ := hpq
  rw [subtreeAt_append, ha, Option.bind_some] at hb
  cases rest with
  | nil => cases hb; rfl
  | cons x rest => cases hb

/-- Only a single leaf has its leaf at the root. -/
theorem treeLeaves_of_subtreeAt_nil {t : Tree} {sym : Symbol} (h : subtreeAt t [] = some (.leaf sym)) :
    treeLeaves t = 1 := by
  rw [subtreeAt] at h
  cases h
  rfl

/-- The code table of a single leaf (R153). -/
theorem codeTable_leaf (sym x : Symbol) : (codeTable (.leaf sym))[x.val] = if x = sym then some [] else none := by
  rw [codeTable, gen, Vector.getElem_set, Vector.getElem_replicate]
  exact if_congr (by rw [Fin.ext_iff, eq_comm]) rfl rfl

/-- Settles O39: codes are paths to leaves, and a leaf is neither on the way to another nor at the root of a larger
tree. -/
theorem prefixCode : Obligations.PrefixCode := by
  refine ⟨fun t hok => ⟨codeTable_ne_none hok, fun a b ca cb ha hb hne hpre => ?_, fun hleaves sym c hc => ?_⟩,
    codeTable_leaf⟩
  · exact hne (eq_of_subtreeAt_prefix (subtreeAt_of_codeTable ha) (subtreeAt_of_codeTable hb) hpre)
  · cases c with
    | nil =>
      have hone := treeLeaves_of_subtreeAt_nil (subtreeAt_of_codeTable hc)
      omega
    | cons b c => exact Nat.succ_pos _

end Sys2Proof.Machine
end

section
/-!
PROOFS. The symbol encoder (45_encoder.md R160 to R162): ENC and EEOF with and without a code, and the payload they make
together.
-/

namespace Sys2Proof.Machine

/-! ### One symbol -/

/-- ENC and EEOF with a code and room for it (R160, R161). -/
theorem encodeSymbol_of_room {s : State} {sym : Symbol} {c : Bits} (w : Word16) (finish : Bool)
    (hvalid : s.codes.valid = true) (hdone : s.codes.encDone = false) (hc : codeOf s sym = some c)
    (hroom : roomFor s.ports.bitRoom c.length) :
    encodeSymbol w sym finish s =
      .next { s.afterWriting c with codes := { s.codes with encDone := finish }, inflight := none } := by
  rw [encodeSymbol_eq w finish hvalid hdone hc, writeBits_of_room w finish hroom, hdone, Bool.false_or]

/-- ENC and EEOF without a code, in an idle block (R160, R161, R200). -/
theorem encodeSymbol_of_missing {s : State} {sym : Symbol} (w : Word16) (finish : Bool)
    (hvalid : s.codes.valid = true) (hdone : s.codes.encDone = false) (hc : codeOf s sym = none)
    (hi : s.inflight = none) : encodeSymbol w sym finish s = .next (s.withError w 3 0 (symbolInfo sym)) := by
  rw [encodeSymbol, require_of_true _ hvalid, require_of_true _ (by rw [hdone]; rfl), hc]
  exact congrArg _ (raise_eq_withError hi w _)

theorem exec_enc_eq {s : State} (b : Byte) (he : s.error.err = false) :
    exec (.enc b) s = encodeSymbol (encode (.enc b)) (literal b) false s := by
  rw [exec, execEnc, unlessError_of_ok _ he]

theorem exec_eeof_eq {s : State} (he : s.error.err = false) :
    exec .eeof s = encodeSymbol (encode .eeof) 256 true s := by
  rw [exec, execEeof, unlessError_of_ok _ he]

/-- ERR_INFO of a byte's symbol (R37, R91). -/
theorem symbolInfo_literal (b : Byte) : symbolInfo (literal b) = b.setWidth 9 := BitVec.ofNat_toNat 9 b

/-- Settles O40: ENC leaves ENC_DONE as it was, 0. -/
theorem encAppendsCode : Obligations.EncAppendsCode := by
  intro s b he hvalid hdone
  rw [exec_enc_eq b he]
  constructor
  · intro c hc hroom
    rw [encodeSymbol_of_room _ _ hvalid hdone hc hroom, ← hdone]
    rfl
  · intro hc hi
    rw [encodeSymbol_of_missing _ _ hvalid hdone hc hi, encode_enc, symbolInfo_literal]

/-- Settles O41: EEOF sets ENC_DONE with the last bit of the code of 256. -/
theorem eeofAppendsAndFinishes : Obligations.EeofAppendsAndFinishes := by
  intro s he hvalid hdone
  rw [exec_eeof_eq he]
  exact ⟨fun c hc hroom => encodeSymbol_of_room _ _ hvalid hdone hc hroom,
    fun hc hi => encodeSymbol_of_missing _ _ hvalid hdone hc hi⟩

/-! ### Bits written one string after the other -/

theorem afterWriting_nil (s : State) : s.afterWriting [] = s := by
  simp [State.afterWriting]

theorem afterWriting_afterWriting (s : State) (out more : Bits) :
    (s.afterWriting out).afterWriting more = s.afterWriting (out ++ more) := by
  simp [State.afterWriting, Function.comp_def, Nat.sub_sub, BitVec.ofNat_add, BitVec.add_assoc]

/-! ### The payload -/

/-- The codes of the bytes `bs` in order (R162). -/
def payloadOf (s : State) (bs : List Byte) : Bits := bs.flatMap fun b => (codeOf s (literal b)).getD []

theorem payloadOf_cons {s : State} {b : Byte} {c : Bits} (hc : codeOf s (literal b) = some c) (bs : List Byte) :
    payloadOf s (b :: bs) = c ++ payloadOf s bs := by
  rw [payloadOf, List.flatMap_cons, hc]
  rfl

/-- An idle block that is not in error and encodes into a BIT_OUT without limit: valid codes, and EEOF still to come. -/
structure Encoding (s : State) : Prop where
  idle : s.inflight = none
  ok : s.error.err = false
  valid : s.codes.valid = true
  not_done : s.codes.encDone = false
  no_limit : s.ports.bitRoom = none

theorem Encoding.roomFor {s : State} (h : Encoding s) (n : Nat) : roomFor s.ports.bitRoom n := by
  rw [h.no_limit]
  nofun

theorem Encoding.afterWriting {s : State} (h : Encoding s) (out : Bits) : Encoding (s.afterWriting out) :=
  ⟨h.idle, h.ok, h.valid, h.not_done, congrArg (Option.map _) h.no_limit⟩

theorem Encoding.exec_enc_of_code {s : State} (h : Encoding s) {b : Byte} {c : Bits}
    (hc : codeOf s (literal b) = some c) : exec (.enc b) s = .next (s.afterWriting c) :=
  ((encAppendsCode s b h.ok h.valid h.not_done).1 c hc (h.roomFor _)).trans
    (congrArg _ (complete_of_idle (s := s.afterWriting c) h.idle))

/-- ENC for each byte of a list while ERR = 1 is dropped (R203). -/
theorem execAll_encs_of_err (bs : List Byte) (is : List Instr) {s : State} (hi : s.inflight = none)
    (he : s.error.err = true) :
    ∃ u, u.inflight = none ∧ u.error.err = true ∧ execAll (encs bs ++ is) s = execAll is u := by
  induction bs generalizing s with
  | nil => exact ⟨s, hi, he, rfl⟩
  | cons b bs ih =>
    have hdrop : exec (.enc b) s = .next { s with error := { s.error with dropped := true } } :=
      unlessError_of_err _ he
    obtain ⟨u, hidle, herr, hrun⟩ := ih (s := { s with error := { s.error with dropped := true } }) hi he
    exact ⟨u, hidle, herr, (execAll_cons_of_next hdrop hi).trans hrun⟩

/-- ENC for each byte of a list: the codes are written in order, or some byte has none and the block ends in error
(R160, R162). -/
theorem Encoding.execAll_encs_cases {s : State} (h : Encoding s) (bs : List Byte) (is : List Instr) :
    execAll (encs bs ++ is) s = execAll is (s.afterWriting (payloadOf s bs)) ∨
    ((∃ b ∈ bs, codeOf s (literal b) = none) ∧
      ∃ u, u.inflight = none ∧ u.error.err = true ∧ execAll (encs bs ++ is) s = execAll is u) := by
  induction bs generalizing s with
  | nil => exact .inl (by rw [payloadOf, List.flatMap_nil, afterWriting_nil]; rfl)
  | cons b bs ih =>
    cases hc : codeOf s (literal b) with
    | none =>
      have hraise := (encAppendsCode s b h.ok h.valid h.not_done).2 hc h.idle
      obtain ⟨u, hidle, herr, hrun⟩ := execAll_encs_of_err bs is (s := s.withError _ _ _ _) h.idle rfl
      exact .inr ⟨⟨b, List.mem_cons_self, hc⟩, u, hidle, herr, (execAll_cons_of_next hraise h.idle).trans hrun⟩
    | some c =>
      have hfirst : execAll (encs (b :: bs) ++ is) s = execAll (encs bs ++ is) (s.afterWriting c) :=
        execAll_cons_of_next (h.exec_enc_of_code hc) h.idle
      rw [hfirst, payloadOf_cons hc, ← afterWriting_afterWriting]
      refine (ih (h.afterWriting c)).imp_right ?_
      rintro ⟨⟨b', hb', hnone⟩, hrun⟩
      exact ⟨⟨b', List.mem_cons_of_mem b hb', hnone⟩, hrun⟩

/-- The last command of a payload, with a code of 256 (R161). -/
theorem Encoding.execAll_eeof_of_code {s : State} (h : Encoding s) {c : Bits} (hc : codeOf s 256 = some c) :
    execAll [.eeof] s =
      .next { s.afterWriting c with codes := { s.codes with encDone := true }, inflight := none } :=
  execAll_cons_of_next ((eeofAppendsAndFinishes s h.ok h.valid h.not_done).1 c hc (h.roomFor _)) rfl

/-- The last command of a payload, without a code of 256 (R161). -/
theorem Encoding.execAll_eeof_of_missing {s : State} (h : Encoding s) (hc : codeOf s 256 = none) :
    execAll [.eeof] s = .next (s.withError 0x9000 3 0 256) :=
  execAll_cons_of_next ((eeofAppendsAndFinishes s h.ok h.valid h.not_done).2 hc h.idle) h.idle

/-- EEOF while ERR = 1 is dropped (R203). -/
theorem execAll_eeof_of_err {s : State} (hi : s.inflight = none) (he : s.error.err = true) :
    execAll [.eeof] s = .next { s with error := { s.error with dropped := true } } :=
  execAll_cons_of_next (unlessError_of_err _ he) hi

/-- A payload: the codes of the bytes, then the code of 256; or one of them is missing and the run ends in error
(R162). -/
theorem Encoding.execAll_payload_cases {s : State} (h : Encoding s) (bs : List Byte) :
    (∃ c, codeOf s 256 = some c ∧
      execAll (encs bs ++ [.eeof]) s =
        .next { s.afterWriting (payloadOf s bs ++ c) with
          codes := { s.codes with encDone := true }, inflight := none }) ∨
    (((∃ b ∈ bs, codeOf s (literal b) = none) ∨ codeOf s 256 = none) ∧
      ∃ t, execAll (encs bs ++ [.eeof]) s = .next t ∧ t.error.err = true) := by
  rcases h.execAll_encs_cases bs [.eeof] with hrun | ⟨hmissing, u, hidle, herr, hrun⟩
  · have hbytes := h.afterWriting (payloadOf s bs)
    cases hc : codeOf s 256 with
    | none => exact .inr ⟨.inr rfl, _, hrun.trans (hbytes.execAll_eeof_of_missing hc), rfl⟩
    | some c =>
      refine .inl ⟨c, rfl, ?_⟩
      rw [hrun, hbytes.execAll_eeof_of_code hc, afterWriting_afterWriting]
      rfl
  · exact .inr ⟨.inl hmissing, _, hrun.trans (execAll_eeof_of_err hidle herr), herr⟩

/-- Settles O42: the run appends the codes in order and that of 256, unless one of them is missing. -/
theorem payloadIsConcatenation : Obligations.PayloadIsConcatenation := by
  intro s bs hi he hvalid hdone hroom
  have h : Encoding s := ⟨hi, he, hvalid, hdone, hroom⟩
  rcases h.execAll_payload_cases bs with ⟨c, hc, hrun⟩ | ⟨hmissing, t, hrun, herr⟩
  · refine ⟨fun t ht _ => ?_, fun _ _ => ⟨_, hrun, rfl⟩⟩
    cases hrun.symm.trans ht
    rw [hc]
    exact ⟨(List.append_assoc _ _ _).symm, rfl⟩
  · refine ⟨fun t' ht hok => ?_, fun hall hcode => ?_⟩
    · cases hrun.symm.trans ht
      exact absurd (herr.symm.trans hok) nofun
    · rcases hmissing with ⟨b, hb, hnone⟩ | hnone
      · exact absurd hnone (hall b hb)
      · exact absurd hnone hcode

end Sys2Proof.Machine
end

section
/-!
PROOFS. One DEC (46_decoder.md R170 to R174): what it does with a code, what it does when the bits run out, how many bits
it reads, and its frame.
-/

namespace Sys2Proof.Machine

/-! ### Paths and walks -/

/-- Any bits begin with the path of a leaf, or are the path of an internal node (R171). -/
theorem leaf_or_node_on_path (t : Tree) (bits : Bits) :
    (∃ p rest sym, bits = p ++ rest ∧ subtreeAt t p = some (.leaf sym)) ∨
    ∃ l r, subtreeAt t bits = some (.node l r) := by
  induction bits generalizing t with
  | nil =>
    cases t with
    | leaf sym => exact .inl ⟨[], [], sym, rfl, rfl⟩
    | node l r => exact .inr ⟨l, r, rfl⟩
  | cons b bits ih =>
    cases t with
    | leaf sym => exact .inl ⟨[], b :: bits, sym, rfl, rfl⟩
    | node l r =>
      rcases ih (if b then r else l) with ⟨p, rest, sym, rfl, hp⟩ | hnode
      · exact .inl ⟨b :: p, rest, sym, rfl, hp⟩
      · exact .inr hnode

/-- The bits of the path to an internal node lead the walk there (R171). -/
theorem feed_walk_node {k : Walk} {p : Bits} {l r : Tree}
    (h : subtreeAt (.node k.left k.right) p = some (.node l r)) :
    feed Walk.bit k p = (.inl ⟨k.start && decide (p = []), l, r⟩, [], p.length) := by
  induction p generalizing k with
  | nil =>
    cases h
    rw [decide_eq_true rfl, Bool.and_true]
    rfl
  | cons b p ih =>
    rw [subtreeAt] at h
    cases hchild : (if b then k.right else k.left) with
    | leaf sym => rw [hchild] at h; cases p <;> cases h
    | node l' r' =>
      rw [hchild] at h
      rw [feed_cons_inl (a' := ⟨false, l', r'⟩) _ (by rw [Walk.bit, hchild]), ih h,
        decide_eq_false (List.cons_ne_nil b p), Bool.and_false]
      rfl

/-- A walk takes no more bits than the tree below it is deep (R171). -/
theorem feed_walk_count_le (k : Walk) (bits : Bits) :
    (feed Walk.bit k bits).2.2 ≤ treeDepth (.node k.left k.right) := by
  rcases leaf_or_node_on_path (.node k.left k.right) bits with ⟨p, rest, sym, rfl, hp⟩ | ⟨l, r, hp⟩
  · have hdepth := subtreeAt_depth hp
    cases p with
    | nil => cases hp
    | cons b p =>
      rw [feed_walk_path rest hp]
      exact Nat.le_of_add_right_le hdepth
  · rw [feed_walk_node hp]
    exact Nat.le_of_add_right_le (subtreeAt_depth hp)

/-! ### DEC on the bits of a path -/

theorem afterReading_nil {s : State} {rest : Bits} (h : s.ports.bitIn = rest) : s.afterReading [] rest = s := by
  simp [State.afterReading, ← h]

theorem foundSymbol_eof (w : Word16) (s : State) : foundSymbol w 256 s = complete (setDec true .eof s) := if_pos rfl

/-- A byte found while BYTE_OUT has room for it is written (R63, R170). -/
theorem foundSymbol_of_room {w : Word16} {sym : Symbol} {s : State} (hdone : s.dec.done = false) (hsym : sym ≠ 256)
    (hroom : roomFor s.ports.byteRoom 1) :
    foundSymbol w sym s = complete (setDec false (.byte (symbolByte sym)) (appendByte (symbolByte sym) s)) := by
  rw [← hdone]
  rcases foundSymbol_cases w sym s with ⟨h, -⟩ | ⟨-, -, h⟩ | ⟨-, hnone, -⟩
  · exact absurd h hsym
  · exact h
  · exact absurd (hroom 0 hnone) (by decide)

/-- DEC when it runs (R170). -/
theorem exec_dec_eq {s : State} {t : Tree} (he : s.error.err = false) (ht : s.tree.value = some t)
    (hdone : s.dec.done = false) : exec .dec s = .next (decodeOne 0xA000 t s) := by
  rw [exec, execDec, unlessError_of_ok _ he, ht]
  exact require_of_true _ (by rw [hdone]; rfl)

/-- Everything DEC can do: it is dropped, it raises SEQUENCE 3 or 6, or it runs (R170, R203, R216). -/
theorem exec_dec_cases {s t : State} (h : exec .dec s = .next t) :
    (s.error.err = true ∧ t = { s with error := { s.error with dropped := true } }) ∨
    (s.error.err = false ∧ s.tree.value = none ∧ t = raise 0xA000 .noTree s) ∨
    (s.error.err = false ∧ s.dec.done = true ∧ t = raise 0xA000 .decFinished s) ∨
    (∃ tree, s.error.err = false ∧ s.tree.value = some tree ∧ s.dec.done = false ∧ t = decodeOne 0xA000 tree s) := by
  cases he : s.error.err with
  | true =>
    rw [exec, execDec, unlessError_of_err _ he] at h
    cases h
    exact .inl ⟨rfl, rfl⟩
  | false =>
    cases htree : s.tree.value with
    | none =>
      rw [exec, execDec, unlessError_of_ok _ he, htree] at h
      cases h
      exact .inr (.inl ⟨rfl, rfl, rfl⟩)
    | some tree =>
      cases hdone : s.dec.done with
      | true =>
        rw [exec, execDec, unlessError_of_ok _ he, htree, hdone] at h
        cases h
        exact .inr (.inr (.inl ⟨rfl, rfl, rfl⟩))
      | false =>
        cases h.symm.trans (exec_dec_eq he htree hdone)
        exact .inr (.inr (.inr ⟨tree, rfl, rfl, rfl, rfl⟩))

/-- DEC on a root leaf (R173). -/
theorem exec_dec_leaf_eq {s : State} {sym : Symbol} (he : s.error.err = false) (ht : s.tree.value = some (.leaf sym))
    (hdone : s.dec.done = false) :
    exec .dec s =
      .next (if sym = 256 then setDec true .eof s else raise 0xA000 (.degenerate (symbolInfo sym)) s) :=
  exec_dec_eq he ht hdone

/-- DEC on bits that begin with the path of a leaf that is not the root (R171). -/
theorem exec_dec_of_leaf_path {s : State} {t : Tree} {p rest : Bits} {sym : Symbol} (he : s.error.err = false)
    (ht : s.tree.value = some t) (hdone : s.dec.done = false) (hp : p ≠ []) (hpath : subtreeAt t p = some (.leaf sym))
    (hin : s.ports.bitIn = p ++ rest) : exec .dec s = .next (foundSymbol 0xA000 sym (s.afterReading p rest)) := by
  obtain ⟨b, p, rfl⟩ := List.exists_cons_of_ne_nil hp
  cases t with
  | leaf x => cases hpath
  | node l r =>
    have hfeed := feed_walk_path (k := ⟨true, l, r⟩) rest hpath
    rw [← hin] at hfeed
    rw [exec_dec_node_eq he ht hdone, runWalk_of_found hfeed]
    rfl

/-- DEC on bits that all lead to an internal node (R171, R172, R64). -/
theorem exec_dec_of_node_path {s : State} {t l r : Tree} (he : s.error.err = false) (ht : s.tree.value = some t)
    (hdone : s.dec.done = false) (hpath : subtreeAt t s.ports.bitIn = some (.node l r)) :
    exec .dec s = .next
      (if s.ports.bitInEnd then
        if s.ports.bitIn = [] then complete (setDec true .exhausted (s.afterReading s.ports.bitIn []))
        else raise 0xA000 .truncatedStream (s.afterReading s.ports.bitIn [])
      else hold 0xA000 (.walk ⟨decide (s.ports.bitIn = []), l, r⟩) (s.afterReading s.ports.bitIn [])) := by
  cases t with
  | leaf x => cases hbits : s.ports.bitIn <;> rw [hbits] at hpath <;> cases hpath
  | node l' r' =>
    rw [exec_dec_node_eq he ht hdone, runWalk, feed_walk_node hpath]
    simp only [Bool.true_and, decide_eq_true_eq]
    rfl

/-- Settles O44: the path found, then the end of DEC at its leaf; a root leaf has the empty path. -/
theorem decDecodesOneCode : Obligations.DecDecodesOneCode := by
  intro s t p rest sym he hi ht hdone hpath hin
  by_cases hp : p = []
  · subst hp
    cases hpath
    rw [List.nil_append] at hin
    rw [exec_dec_leaf_eq he ht hdone, afterReading_nil hin]
    refine ⟨fun hsym => ?_, fun hsym _ => ?_, fun _ hne => absurd rfl hne⟩
    · rw [if_pos hsym]
      rfl
    · rw [if_neg hsym, raise_eq_withError hi]
      rfl
  · rw [exec_dec_of_leaf_path he ht hdone hp hpath hin]
    refine ⟨fun hsym => ?_, fun _ hnil => absurd hnil hp, fun hsym _ hroom => ?_⟩
    · rw [hsym, foundSymbol_eof]
      exact congrArg _ (complete_of_idle (s := setDec true .eof (s.afterReading p rest)) hi)
    · rw [foundSymbol_of_room (s := s.afterReading p rest) hdone hsym hroom]
      exact congrArg _ (complete_of_idle (s := setDec false _ (appendByte _ (s.afterReading p rest))) hi)

/-- Settles O45: the walk to the node, then END or its absence. -/
theorem decAtEndOfBits : Obligations.DecAtEndOfBits := by
  rintro s t l r p he hi ht hdone hpath rfl
  rw [exec_dec_of_node_path he ht hdone hpath]
  refine ⟨fun hend hnil => ?_, fun hend hne => ?_, fun hend => ?_⟩
  · rw [if_pos hend, if_pos hnil, hnil, afterReading_nil hnil]
    exact congrArg _ (complete_of_idle (s := setDec true .exhausted s) hi)
  · rw [if_pos hend, if_neg hne]
    exact congrArg _ (raise_eq_withError (s := s.afterReading s.ports.bitIn []) hi _ _)
  · rw [if_neg (by simp [hend])]
    rfl

/-! ### How many bits, and the frame -/

theorem foundSymbol_bitIn (w : Word16) (sym : Symbol) (s : State) :
    (foundSymbol w sym s).ports.bitIn = s.ports.bitIn := by
  rcases foundSymbol_cases w sym s with ⟨-, h⟩ | ⟨-, -, h⟩ | ⟨-, -, h⟩ <;> rw [h] <;> rfl

/-- A walk, however it ends, leaves on BIT_IN the bits it has not taken (R61). -/
theorem runWalk_bitIn (w : Word16) (k : Walk) (s : State) :
    (runWalk w k s).ports.bitIn = (feed Walk.bit k s.ports.bitIn).2.1 := by
  obtain ⟨taken, rest, -, ⟨sym, hfeed, hw⟩ | ⟨k', -, hfeed, -, -, -, -, hw⟩ | ⟨k', -, hfeed, -, -, -, hw⟩ |
    ⟨k', -, hfeed, -, hw⟩⟩ := runWalk_cases w k s <;> rw [hw, hfeed]
  · exact foundSymbol_bitIn w sym _
  all_goals rfl

/-- DEC takes at most as many bits as its tree is deep (R171). -/
theorem decodeOne_taken_le (w : Word16) (t : Tree) (s : State) :
    ∃ taken, s.ports.bitIn = taken ++ (decodeOne w t s).ports.bitIn ∧ taken.length ≤ treeDepth t := by
  cases t with
  | leaf sym =>
    refine ⟨[], ?_, Nat.le_refl _⟩
    rw [decodeOne]
    split <;> rfl
  | node l r =>
    obtain ⟨taken, hin, hcount⟩ := feed_split Walk.bit ⟨true, l, r⟩ s.ports.bitIn
    have hle := feed_walk_count_le ⟨true, l, r⟩ s.ports.bitIn
    rw [hcount] at hle
    rw [decodeOne, runWalk_bitIn]
    exact ⟨taken, hin, hle⟩

/-- Settles O46: the case split on paths; and a DEC that is dropped or raises at once takes no bit. -/
theorem decReadsAtMostDepth : Obligations.DecReadsAtMostDepth := by
  refine ⟨leaf_or_node_on_path, fun s s' t ht h => ?_⟩
  rcases exec_dec_cases h with ⟨-, rfl⟩ | ⟨-, -, rfl⟩ | ⟨-, -, rfl⟩ | ⟨tree, -, htree, -, rfl⟩
  · exact ⟨[], rfl, Nat.zero_le _⟩
  · exact ⟨[], rfl, Nat.zero_le _⟩
  · exact ⟨[], rfl, Nat.zero_le _⟩
  · cases ht.symm.trans htree
    exact decodeOne_taken_le _ t s

/-- `t` has everything of `s` but BIT_IN, BYTE_OUT and its room, IN_BITS, OUT_BYTES, the decoder's registers, the error
registers and the held command. -/
structure KeepsBesidesDec (s t : State) : Prop where
  freq : t.freq = s.freq
  tree : t.tree = s.tree
  codes : t.codes = s.codes
  params : t.params = s.params
  draws : t.draws = s.draws
  outBits : t.counters.outBits = s.counters.outBits
  ports : t.ports = { s.ports with bitIn := t.ports.bitIn, byteOut := t.ports.byteOut, byteRoom := t.ports.byteRoom }

/-- A walk ends at a leaf, at END, or held (R171, R64). -/
theorem keepsBesidesDec_runWalk (w : Word16) (k : Walk) (s : State) : KeepsBesidesDec s (runWalk w k s) := by
  obtain ⟨taken, rest, -, ⟨sym, -, hw⟩ | ⟨k', -, -, -, -, -, -, hw⟩ | ⟨k', -, -, -, -, -, hw⟩ | ⟨k', -, -, -, hw⟩⟩ :=
    runWalk_cases w k s <;> rw [hw]
  · rcases foundSymbol_cases w sym (tookBits rest taken.length s) with ⟨-, hf⟩ | ⟨-, -, hf⟩ | ⟨-, -, hf⟩ <;> rw [hf] <;>
      exact ⟨rfl, rfl, rfl, rfl, rfl, rfl, rfl⟩
  all_goals exact ⟨rfl, rfl, rfl, rfl, rfl, rfl, rfl⟩

theorem keepsBesidesDec_decodeOne (w : Word16) (t : Tree) (s : State) : KeepsBesidesDec s (decodeOne w t s) := by
  cases t with
  | leaf sym =>
    rw [decodeOne]
    split <;> exact ⟨rfl, rfl, rfl, rfl, rfl, rfl, rfl⟩
  | node l r => exact keepsBesidesDec_runWalk w _ s

/-- What DEC leaves unchanged, dropped, raised, done or held (R170, R171). -/
theorem exec_dec_keeps {s t : State} (h : exec .dec s = .next t) : KeepsBesidesDec s t := by
  rcases exec_dec_cases h with ⟨-, rfl⟩ | ⟨-, -, rfl⟩ | ⟨-, -, rfl⟩ | ⟨tree, -, -, -, rfl⟩
  · exact ⟨rfl, rfl, rfl, rfl, rfl, rfl, rfl⟩
  · exact ⟨rfl, rfl, rfl, rfl, rfl, rfl, rfl⟩
  · exact ⟨rfl, rfl, rfl, rfl, rfl, rfl, rfl⟩
  · exact keepsBesidesDec_decodeOne _ tree s

/-- Settles O48: DEC's frame, and what it takes and appends is what it transfers. -/
theorem decFrame : Obligations.DecFrame := by
  intro s t h
  obtain ⟨hfreq, htree, hcodes, hparams, hdraws, houtBits, hports⟩ := exec_dec_keeps h
  obtain ⟨⟨taken, hin, -⟩, -, ⟨out, hout, -⟩, -, -⟩ := transfers_exec (i := .dec) nofun s t h
  exact ⟨hfreq, htree, hcodes, hparams, hdraws, houtBits, hports, ⟨taken, hin⟩, out, hout⟩

end Sys2Proof.Machine
end

section
/-!
PROOFS. The host's DEC loop (46_decoder.md R175; 30_encoding.md R96): it decodes the codes of any bytes of the tree and the
pseudo-EOF code.
-/

namespace Sys2Proof.Machine

/-- The codes of the bytes `bs` in the code table of `t`, in order (R162, R175). -/
def codesOf (t : Tree) (bs : List Byte) : Bits := bs.flatMap fun b => ((codeTable t)[(literal b).val]).getD []

theorem codesOf_cons {t : Tree} {b : Byte} {c : Bits} (hc : (codeTable t)[(literal b).val] = some c) (bs : List Byte) :
    codesOf t (b :: bs) = c ++ codesOf t bs := by
  rw [codesOf, List.flatMap_cons, hc]
  rfl

/-- In a tree with a leaf for 256 no byte has the empty code: that leaf would be the root (R153). -/
theorem code_ne_nil {t : Tree} {b : Byte} {c : Bits} (heof : (256 : Symbol) ∈ treeSymbols t)
    (hc : (codeTable t)[(literal b).val] = some c) : c ≠ [] := by
  rintro rfl
  obtain ⟨p, hp⟩ := exists_path t 256 heof
  exact literal_ne_eofSym b (eq_of_subtreeAt_prefix (subtreeAt_of_codeTable hc) hp List.nil_prefix)

/-- The byte of a byte's symbol (R91, R170). -/
theorem symbolByte_literal (b : Byte) : symbolByte (literal b) = b := by
  rw [symbolByte, literal, BitVec.ofNat_toNat, BitVec.setWidth_eq]

/-- One turn of the loop, with a DEC that completes (R244). -/
theorem decodeLoop_succ_of_next {s u : State} (he : s.error.err = false) (hdone : s.dec.done = false)
    (h : exec .dec s = .next u) (hi : u.inflight = none) (n : Nat) : decodeLoop (n + 1) s = decodeLoop n u := by
  rw [decodeLoop, if_pos (by simp [decodeGoesOn, he, hdone]), h]
  simp [State.busy, hi]

/-- An idle block that is not in error and decodes with the tree `t` into a BYTE_OUT without limit. -/
structure Decoding (t : Tree) (s : State) : Prop where
  idle : s.inflight = none
  ok : s.error.err = false
  not_done : s.dec.done = false
  no_limit : s.ports.byteRoom = none
  tree : s.tree.value = some t

/-- DEC on the code of a byte writes the byte and lets decoding go on (R170). -/
theorem Decoding.exec_dec_byte {t : Tree} {s : State} (h : Decoding t s) {b : Byte} {c rest : Bits}
    (heof : (256 : Symbol) ∈ treeSymbols t) (hc : (codeTable t)[(literal b).val] = some c)
    (hin : s.ports.bitIn = c ++ rest) :
    ∃ u, exec .dec s = .next u ∧ Decoding t u ∧ u.ports.bitIn = rest ∧ u.ports.byteOut = s.ports.byteOut ++ [b] ∧
      u.error = s.error := by
  have hroom : roomFor s.ports.byteRoom 1 := by rw [h.no_limit]; nofun
  obtain ⟨-, -, hbyte⟩ :=
    decDecodesOneCode s t c rest (literal b) h.ok h.idle h.tree h.not_done (subtreeAt_of_codeTable hc) hin
  refine ⟨_, hbyte (literal_ne_eofSym b) (code_ne_nil heof hc) hroom,
    ⟨h.idle, h.ok, rfl, congrArg (Option.map _) h.no_limit, h.tree⟩, rfl, ?_, rfl⟩
  exact congrArg (fun x => s.ports.byteOut ++ [x]) (symbolByte_literal b)

/-- DEC on the pseudo-EOF code ends decoding (R170). -/
theorem Decoding.exec_dec_eof {t : Tree} {s : State} (h : Decoding t s) {c rest : Bits}
    (hc : (codeTable t)[256] = some c) (hin : s.ports.bitIn = c ++ rest) :
    exec .dec s = .next { s.afterReading c rest with dec := ⟨true, .eof⟩ } :=
  (decDecodesOneCode s t c rest 256 h.ok h.idle h.tree h.not_done (subtreeAt_of_codeTable hc) hin).1 rfl

/-- As many turns as bytes decode the codes of the bytes, and the loop goes on after them (R175). -/
theorem Decoding.decodeLoop_bytes {t : Tree} {s : State} (h : Decoding t s) {bs : List Byte} {rest : Bits}
    (hok : TreeOk t) (heof : (256 : Symbol) ∈ treeSymbols t) (hbs : ∀ b ∈ bs, literal b ∈ treeSymbols t)
    (hin : s.ports.bitIn = codesOf t bs ++ rest) :
    ∃ u, Decoding t u ∧ u.ports.bitIn = rest ∧ u.ports.byteOut = s.ports.byteOut ++ bs ∧ u.error = s.error ∧
      ∀ n, decodeLoop (n + bs.length) s = decodeLoop n u := by
  induction bs generalizing s with
  | nil => exact ⟨s, h, hin, (List.append_nil _).symm, rfl, fun _ => rfl⟩
  | cons b bs ih =>
    obtain ⟨hb, hbs⟩ := List.forall_mem_cons.mp hbs
    obtain ⟨c, hc⟩ := Option.ne_none_iff_exists'.mp ((codeTable_ne_none hok _).mpr hb)
    rw [codesOf_cons hc, List.append_assoc] at hin
    obtain ⟨v, hexec, hv, hvin, hvout, hverr⟩ := h.exec_dec_byte heof hc hin
    obtain ⟨u, hu, huin, huout, huerr, hloop⟩ := ih hv hbs hvin
    refine ⟨u, hu, huin, ?_, huerr.trans hverr, fun n => ?_⟩
    · rw [huout, hvout, List.append_assoc, List.singleton_append]
    · exact (decodeLoop_succ_of_next h.ok h.not_done hexec hv.idle _).trans (hloop n)

/-- Settles O47: a turn for each byte, and one more for the pseudo-EOF code. -/
theorem decodesPayload : Obligations.DecodesPayload := by
  intro s t bs pad hi he hdone hroom ht hok hbs heof hin
  obtain ⟨c, hc⟩ : ∃ c, (codeTable t)[256] = some c :=
    Option.ne_none_iff_exists'.mp ((codeTable_ne_none hok 256).mpr heof)
  rw [hc, List.append_assoc] at hin
  have h : Decoding t s := ⟨hi, he, hdone, hroom, ht⟩
  obtain ⟨u, hu, huin, huout, huerr, hloop⟩ := h.decodeLoop_bytes hok heof hbs hin
  refine ⟨⟨u, ?_, hu.not_done⟩, { u.afterReading c pad with dec := ⟨true, .eof⟩ }, ?_, huout, rfl, huerr, rfl⟩
  · rw [← Nat.zero_add bs.length, hloop, decodeLoop]
  · rw [Nat.add_comm, hloop, decodeLoop_succ_of_next hu.ok hu.not_done (hu.exec_dec_eof hc huin) hu.idle, decodeLoop]

end Sys2Proof.Machine
end

section
/-!
PROOFS. The two flows of the host (70_reset_and_hazards.md R243, R244; 30_encoding.md R96): what the encode flow writes to
BIT_OUT, and that the decode flow gives back the input.
-/

namespace Sys2Proof.Machine

/-- A run that ends idle is followed by the next one (R250). -/
theorem execAll_append {is : List Instr} {s t : State} (h : execAll is s = .next t) (hi : t.inflight = none)
    (js : List Instr) : execAll (is ++ js) s = execAll js t := by
  induction is generalizing s with
  | nil => cases h; rfl
  | cons i is ih =>
    rw [List.cons_append, execAll]
    rw [execAll] at h
    cases hexec : exec i s with
    | next s' =>
      rw [hexec] at h
      cases hbusy : s'.busy with
      | true =>
        simp only [hbusy, if_true] at h
        cases h
        simp [State.busy, hi] at hbusy
      | false =>
        simp only [hbusy] at h ⊢
        exact ih h
    | fault f => rw [hexec] at h; cases h
    | refused r => rw [hexec] at h; cases h

/-! ### The encode flow -/

/-- CLEAR and the counting of the input: a final table in which every byte of the input and 256 are present (R112). -/
theorem execAll_counting {s : State} (bs : List Byte) (hp : ParamsOk s) :
    ∃ f : FreqFile, f.final = true ∧ f.count[256] ≠ 0 ∧ (∀ b ∈ bs, f.count[(literal b).val] ≠ 0) ∧
      execAll (.clear :: (faccs bs ++ [.ffin])) s = .next { cleared s with freq := f } := by
  obtain ⟨t, hrun, hcount, heof, hfinal, -, hframe⟩ := accumulationResult s bs hp
  refine ⟨t.freq, hfinal, by rw [heof]; decide, fun b hb hzero => ?_,
    (execAll_cons_of_next (t := cleared s) rfl rfl).trans (hrun.trans (congrArg _ hframe))⟩
  have hpos : 0 < bs.count b := List.count_pos_iff.mpr hb
  have hmax : 2 ^ 8 ≤ 2 ^ s.params.countWidth := Nat.pow_le_pow_right (by decide) hp.1
  have hmin : 0 = min (bs.count b) (2 ^ s.params.countWidth - 1) := by
    rw [← hcount b, hzero]
    rfl
  omega

/-- The block after BUILD has committed the tree `t` and CGEN has made its codes (R124, R150). -/
def withTreeAndCodes (t : Tree) (s : State) : State :=
  { commitBuilt t s with codes := ⟨codeTable t, true, false⟩ }

/-- BUILD, CGEN and SER on a final table write the tree BUILD makes, and leave a block that encodes with its codes
(R243). -/
theorem exists_execAll_build_cgen_ser {s : State} {t : Tree} (he : s.error.err = false) (hi : s.inflight = none)
    (hroom : s.ports.bitRoom = none) (hf : s.freq.final = true) (ht : buildTree s.freq.count = some t) :
    ∃ u, execAll [.build, .cgen, .ser] s = .next u ∧ Encoding u ∧ u.codes.code = codeTable t ∧
      u.ports.bitOut = s.ports.bitOut ++ serTree t := by
  have hbuild : exec .build s = .next (commitBuilt t s) := exec_build_of_tree he hf ht
  have hcgen : exec .cgen (commitBuilt t s) = .next (withTreeAndCodes t s) := cgenMakesTable _ t he rfl
  have henc : Encoding (withTreeAndCodes t s) := ⟨hi, he, rfl, rfl, hroom⟩
  have hser := serWritesTree (withTreeAndCodes t s) t he rfl (henc.roomFor _)
  exact ⟨_, (execAll_cons_of_next hbuild hi).trans
    ((execAll_cons_of_next hcgen hi).trans (execAll_cons_of_next hser rfl)),
    ⟨rfl, he, rfl, rfl, congrArg (Option.map _) hroom⟩, rfl, rfl⟩

/-- ENC for each byte and EEOF, with the codes of a tree that has leaves for them all, write those codes (R162). -/
theorem Encoding.exists_execAll_payload {s : State} {t : Tree} {bs : List Byte} (h : Encoding s)
    (hcode : s.codes.code = codeTable t) (hok : TreeOk t) (heof : (256 : Symbol) ∈ treeSymbols t)
    (hbs : ∀ b ∈ bs, literal b ∈ treeSymbols t) :
    ∃ u, execAll (encs bs ++ [.eeof]) s = .next u ∧ u.error = s.error ∧
      u.ports.bitOut = s.ports.bitOut ++ (codesOf t bs ++ ((codeTable t)[256]).getD []) := by
  have hcodes (sym : Symbol) : codeOf s sym = (codeTable t)[sym.val] := by rw [codeOf, hcode]
  have hpresent {sym : Symbol} (hsym : sym ∈ treeSymbols t) : codeOf s sym ≠ none := by
    rw [hcodes]
    exact (codeTable_ne_none hok sym).mpr hsym
  obtain ⟨hwrites, hends⟩ := payloadIsConcatenation s bs h.idle h.ok h.valid h.not_done h.no_limit
  obtain ⟨u, hrun, herr⟩ := hends (fun b hb => hpresent (hbs b hb)) (hpresent heof)
  refine ⟨u, hrun, herr, ?_⟩
  rw [(hwrites u hrun (by rw [herr]; exact h.ok)).1, List.append_assoc]
  simp only [hcodes]
  rfl

/-- The encode flow ends without an error, and writes the serialization of a tree of R28 with a leaf for 256 and for each
byte of the input, and the codes of the input and of 256 in that tree (R243). -/
theorem exists_execAll_encodeMacro {s : State} (bs : List Byte) (hp : ParamsOk s) (hroom : s.ports.bitRoom = none) :
    ∃ tree t, TreeOk tree ∧ (256 : Symbol) ∈ treeSymbols tree ∧ (∀ b ∈ bs, literal b ∈ treeSymbols tree) ∧
      execAll (encodeMacro bs) s = .next t ∧ t.error.err = false ∧
      t.ports.bitOut = s.ports.bitOut ++ (serTree tree ++ (codesOf tree bs ++ ((codeTable tree)[256]).getD [])) := by
  obtain ⟨f, hfinal, heof, hbytes, hcounting⟩ := execAll_counting bs hp
  obtain ⟨tree, hbuild, -⟩ := buildCommitsTree { cleared s with freq := f } rfl hfinal ⟨256, heof⟩
  have hok := treeOk_buildTree hbuild
  have hmem := mem_treeSymbols_buildTree hbuild
  have hbs (b : Byte) (hb : b ∈ bs) : literal b ∈ treeSymbols tree := (hmem _).mpr (hbytes b hb)
  obtain ⟨u, htree, henc, hcode, huout⟩ :=
    exists_execAll_build_cgen_ser (s := { cleared s with freq := f }) rfl rfl hroom hfinal hbuild
  obtain ⟨t, hpayload, herr, hout⟩ := henc.exists_execAll_payload hcode hok ((hmem 256).mpr heof) hbs
  have hparts : encodeMacro bs =
      (.clear :: (faccs bs ++ [.ffin])) ++ ([.build, .cgen, .ser] ++ (encs bs ++ [.eeof])) := by
    simp [encodeMacro]
  refine ⟨tree, t, hok, (hmem 256).mpr heof, hbs, ?_, by rw [herr]; exact henc.ok, ?_⟩
  · rw [hparts, execAll_append hcounting rfl, execAll_append htree henc.idle, hpayload]
  · rw [hout, huout, List.append_assoc]
    rfl

/-! ### The decode flow -/

/-- CLEAR and DESER on the serialization of a tree of R28 leave a block that decodes what follows (R244). -/
theorem exists_execAll_decodeMacro {u : State} {tree : Tree} {rest : Bits} (hok : TreeOk tree)
    (hroom : u.ports.byteRoom = none) (hin : u.ports.bitIn = serTree tree ++ rest) :
    ∃ v, execAll decodeMacro u = .next v ∧ Decoding tree v ∧ v.ports.bitIn = rest ∧
      v.ports.byteOut = u.ports.byteOut := by
  have hdeser := deserInvertsSer (cleared u) tree rest rfl hok hin
  exact ⟨_, (execAll_cons_of_next (t := cleared u) rfl rfl).trans (execAll_cons_of_next hdeser rfl),
    ⟨rfl, rfl, rfl, hroom, rfl⟩, rfl, rfl⟩

/-- Settles O60: the encode flow writes a tree and a payload, and the decode flow reads both. -/
theorem flowsRoundTrip : Obligations.FlowsRoundTrip := by
  intro s u bs hp _ hroom _ hbyteRoom
  obtain ⟨tree, t, hok, heof, hbs, hrun, herr, hout⟩ := exists_execAll_encodeMacro bs hp hroom
  refine ⟨t, _, hrun, herr, hout, fun pad hin => ?_⟩
  rw [List.append_assoc] at hin
  obtain ⟨v, hv, hdec, hvin, hvout⟩ := exists_execAll_decodeMacro hok hbyteRoom hin
  obtain ⟨-, x, hloop, hxout, hxdec, hxerr, hxin⟩ :=
    decodesPayload v tree bs pad hdec.idle hdec.ok hdec.not_done hdec.no_limit hdec.tree hok hbs heof hvin
  exact ⟨v, x, hv, hloop, by rw [hxerr]; exact hdec.ok, hxdec, by rw [hxout, hvout], hxin⟩

end Sys2Proof.Machine
end

section
/-!
PROOFS. The control commands NOP and CLEAR (47_control.md R180, R181), and which command a step runs (60_exceptions.md
R201; 70_reset_and_hazards.md R250).
-/

namespace Sys2Proof.Machine

/-! ### The step on the next word of CMD -/

/-- A word that decodes to a command is accepted, and the command runs (R201, R250). -/
theorem step_of_legal {s : State} {w : Word16} {rest : List Word16} {i : Instr} (hi : s.inflight = none)
    (hcmd : s.ports.cmd = w :: rest) (hd : decode w = .legal i) : step s = exec i (acceptCommand rest s) := by
  rw [step, hi, hcmd]
  simp only [hd]

/-- A word that decodes to none is accepted, and is ILLEGAL_COMMAND (R93, R201). -/
theorem step_of_decode_illegal {s : State} {w : Word16} {rest : List Word16} {c : Illegal} (hi : s.inflight = none)
    (hcmd : s.ports.cmd = w :: rest) (hd : decode w = .illegal c) :
    step s = illegalCommand w c (acceptCommand rest s) := by
  rw [step, hi, hcmd]
  simp only [hd]

theorem step_of_idle {s : State} (hi : s.inflight = none) (hcmd : s.ports.cmd = []) : step s = .next s := by
  rw [step, hi, hcmd]

/-- Settles O5: the three cases of a step. -/
theorem stepRunsDecodedCommand : Obligations.StepRunsDecodedCommand :=
  ⟨fun _ _ _ _ hi hcmd hd => step_of_legal hi hcmd hd, fun _ _ hf => step_of_held hf,
    fun _ hi hcmd => step_of_idle hi hcmd⟩

/-! ### NOP and CLEAR -/

theorem decode_eq_nop_iff (w : Word16) : decode w = .legal .nop ↔ w = 0x0000 := by
  refine ⟨word_of_decode, ?_⟩
  rintro rfl
  exact decode_encode .nop

/-- The only command with OP 0 is NOP (R92). -/
theorem eq_nop_of_decode {w : Word16} {i : Instr} (hop : w.extractLsb' 12 4 = 0) (hd : decode w = .legal i) :
    i = .nop := by
  obtain ⟨-, hi⟩ := decode_eq_legal hd
  rw [show (fieldsOf w).op = 0 from hop] at hi
  exact (Option.some.inj hi).symm

/-- Settles O17: a command of OP 0 is NOP, and its word is 0x0000. -/
theorem nopChangesNothing : Obligations.NopChangesNothing := by
  refine ⟨rfl, decode_eq_nop_iff, fun w hop hw => ?_, fun _ => rfl⟩
  cases hd : decode w with
  | illegal c => exact ⟨c, rfl⟩
  | legal i =>
    obtain rfl := eq_nop_of_decode hop hd
    exact absurd ((decode_eq_nop_iff w).mp hd) hw

theorem exec_clear_eq (s : State) : exec .clear s = .next (cleared s) := rfl

/-- Every flag of STATUS has the reset value 0 (R34, R44). -/
theorem cleared_status (s : State) : (cleared s).status = 0 := (rfl : _ = State.reset.status).trans rfl

theorem cleared_errorWord (s : State) : (cleared s).errorWord = 0 := (rfl : _ = State.reset.errorWord).trans rfl

/-- Settles O18: CLEAR and hardware reset are both `cleared`. -/
theorem clearIsReset : Obligations.ClearIsReset := fun s =>
  ⟨exec_clear_eq s, cleared_ports s, cleared_errorWord s, cleared_status s⟩

end Sys2Proof.Machine
end

section
/-!
PROOFS. The errors (60_exceptions.md R200 to R207, R216): what a command does to the error registers, and what else a
command that raises an error changes.
-/

namespace Sys2Proof.Machine

/-- Settles O10: `raise` writes the error registers and ends the command; the values are a table. -/
theorem raiseLatchesError : Obligations.RaiseLatchesError :=
  ⟨fun _ _ _ => rfl, fun _ => by simp [Error.code, Error.sub, Error.info, illegalSub]⟩

/-! ### While ERR = 1 -/

/-- While ERR = 1 every command but NOP and CLEAR is dropped (R203). -/
theorem exec_of_err {i : Instr} {s : State} (he : s.error.err = true) (hnop : i ≠ .nop) (hclear : i ≠ .clear) :
    exec i s = .next { s with error := { s.error with dropped := true } } := by
  cases i with
  | nop => exact absurd rfl hnop
  | clear => exact absurd rfl hclear
  | facc | ffin | build | deser | ser | cgen | enc | eeof | dec =>
    simp only [exec, execFacc, execFfin, execBuild, execDeser, execSer, execCgen, execEnc, execEeof, execDec,
      unlessError_of_err _ he]

/-- While ERR = 1 a command but CLEAR writes at most CMD_DROPPED of the error registers (R203, R206). -/
theorem error_of_exec_of_err {i : Instr} {s t : State} (he : s.error.err = true) (hclear : i ≠ .clear)
    (h : exec i s = .next t) : t.error = s.error ∨ t.error = { s.error with dropped := true } := by
  by_cases hnop : i = .nop
  · subst hnop
    cases h
    exact .inl rfl
  · cases h.symm.trans (exec_of_err he hnop hclear)
    exact .inr rfl

/-- Settles O11: a legal word is dropped unless it is NOP or CLEAR, an illegal one always. -/
theorem errorStateDropsCommands : Obligations.ErrorStateDropsCommands := by
  intro s w rest hi he hcmd hnop hclear
  cases hd : decode w with
  | legal i =>
    obtain rfl := word_of_decode hd
    rw [step_of_legal hi hcmd hd]
    exact exec_of_err (s := acceptCommand rest s) he (by rintro rfl; exact hnop rfl) (by rintro rfl; exact hclear rfl)
  | illegal c =>
    rw [step_of_decode_illegal hi hcmd hd]
    exact unlessError_of_err (s := acceptCommand rest s) _ he

/-- No command is held while ERR = 1 (R201, R207). -/
theorem State.Inv.idle_of_err {s : State} (h : s.Inv) (he : s.error.err = true) : s.inflight = none := by
  cases hf : s.inflight with
  | none => rfl
  | some f =>
    obtain ⟨hok, -⟩ := h.held f hf
    rw [he] at hok
    cases hok

/-- Settles O12: the block is idle while ERR = 1, so a step drops a word, runs NOP or CLEAR, or does nothing. -/
theorem onlyClearLeavesErrorState : Obligations.OnlyClearLeavesErrorState := by
  intro s t hinv he h
  rcases step_cases h with ⟨f, hf, -⟩ | ⟨-, hcmd, ho⟩ | ⟨w, ws, i, -, hcmd, hd, ho⟩ | ⟨w, ws, c, -, hcmd, hd, ho⟩
  · cases (hinv.idle_of_err he).symm.trans hf
  · cases ho
    rw [hcmd]
    exact ⟨nofun, fun _ => rfl⟩
  · obtain rfl := word_of_decode hd
    rw [hcmd, List.head?_cons, Option.some.injEq]
    by_cases hclear : i = .clear
    · subst hclear
      cases ho
      exact ⟨fun _ => rfl, fun hne => absurd rfl hne⟩
    · refine ⟨fun hw => ?_, fun _ => ?_⟩
      · rw [hw] at hd
        cases hd.symm.trans (decode_encode .clear)
        exact absurd rfl hclear
      · rcases error_of_exec_of_err (s := acceptCommand ws s) he hclear ho.symm with herr | herr <;> rw [herr] <;> rfl
  · rw [illegalCommand, unlessError_of_err (s := acceptCommand ws s) _ he] at ho
    cases ho
    rw [hcmd, List.head?_cons, Option.some.injEq]
    refine ⟨?_, fun _ => rfl⟩
    rintro rfl
    cases hd.symm.trans (decode_encode .clear)

/-! ### The commands that run -/

/-- `t` is where the command `i`, run from `s`, ends in an error (R205): it raises before any effect; or DESER raises
MALFORMED_TREE after its bits, with the old tree and its tables dropped; or DEC raises TRUNCATED_STREAM after its bits. -/
inductive Faults (i : Instr) (s : State) : State → Prop where
  | atOnce (e : Error) (hi : i ≠ .deser) (hcode : e.code ≠ 2) : Faults i s (raise (encode i) e s)
  | malformed (e : Error) (taken left : Bits) (hi : i = .deser) (hcode : e.code = 1)
      (hin : s.ports.bitIn = taken ++ left) :
      Faults i s (raise (encode i) e (tookBits left taken.length (setTree none false (dropTables s))))
  | truncated (taken left : Bits) (hi : i = .dec) (hin : s.ports.bitIn = taken ++ left) (htaken : taken ≠ []) :
      Faults i s (raise (encode i) .truncatedStream (tookBits left taken.length s))

/-- The raise latches an error that names its command, and leaves CMD_DROPPED (R202). -/
theorem Faults.error {i : Instr} {s t : State} (h : Faults i s t) :
    t.error.err = true ∧ t.error.code ≠ 0 ∧ t.error.cmd = encode i ∧ t.error.dropped = s.error.dropped := by
  cases h with
  | atOnce e => exact ⟨rfl, e.code_ne_zero, rfl, rfl⟩
  | malformed e => exact ⟨rfl, e.code_ne_zero, rfl, rfl⟩
  | truncated => exact ⟨rfl, Error.truncatedStream.code_ne_zero, rfl, rfl⟩

/-- The command `i`, run from `s`, leaves the error registers as they are, or ends in an error. -/
def KeepsErrorOrFaults (i : Instr) (s t : State) : Prop := t.error = s.error ∨ Faults i s t

theorem writeBits_error (w : Word16) (bs : Bits) (finish : Bool) (s : State) :
    (writeBits w bs finish s).error = s.error := by
  rcases writeBits_cases w bs finish s with ⟨-, h⟩ | ⟨n, -, -, h⟩ <;> rw [h] <;> rfl

theorem foundSymbol_error (w : Word16) (sym : Symbol) (s : State) : (foundSymbol w sym s).error = s.error := by
  rcases foundSymbol_cases w sym s with ⟨-, h⟩ | ⟨-, -, h⟩ | ⟨-, -, h⟩ <;> rw [h] <;> rfl

/-- DESER ends with a tree, with MALFORMED_TREE, or held (R131, R132). -/
theorem keepsErrorOrFaults_deser (s : State) :
    KeepsErrorOrFaults .deser s (runDes 0x5000 Des.begin (setTree none false (dropTables s))) := by
  obtain ⟨taken, left, hin, ⟨t, -, h⟩ | ⟨e, hcode, h⟩ | ⟨d, -, -, -, h⟩⟩ :=
    runDes_cases 0x5000 Des.begin (setTree none false (dropTables s)) <;> rw [h]
  · exact .inl rfl
  · exact .inr (.malformed e taken left rfl hcode hin)
  · exact .inl rfl

/-- DEC on a tree raises at a root leaf that is not 256, or at END after at least one bit (R171, R173). -/
theorem keepsErrorOrFaults_decodeOne (t : Tree) (s : State) : KeepsErrorOrFaults .dec s (decodeOne 0xA000 t s) := by
  cases t with
  | leaf sym =>
    rw [decodeOne]
    split
    · exact .inl rfl
    · exact .inr (.atOnce _ nofun (by decide : (1 : BitVec 4) ≠ 2))
  | node l r =>
    obtain ⟨taken, left, hin, ⟨sym, -, h⟩ | ⟨k, -, -, -, -, -, -, h⟩ | ⟨k, rfl, -, -, -, htaken, h⟩ | ⟨k, -, -, -, h⟩⟩ :=
      runWalk_cases 0xA000 ⟨true, l, r⟩ s <;> rw [decodeOne, h]
    · exact .inl (foundSymbol_error _ sym _)
    · exact .inl rfl
    · exact .inr (.truncated taken [] rfl hin (htaken rfl))
    · exact .inl rfl

/-- A raise before any effect, of an error that is not TRUNCATED_STREAM. -/
theorem keepsErrorOrFaults_raise {i : Instr} (s : State) {e : Error} (hi : i ≠ .deser) (hcode : e.code ≠ 2) :
    KeepsErrorOrFaults i s (raise (encode i) e s) := .inr (.atOnce e hi hcode)

/-- ENC and EEOF raise before any bit is written (R160, R161). -/
theorem answers_encodeSymbol_error {i : Instr} (hi : i ≠ .deser) (sym : Symbol) (finish : Bool) (s : State) :
    Answers (KeepsErrorOrFaults i s) (encodeSymbol (encode i) sym finish s) := by
  refine answers_require (keepsErrorOrFaults_raise s hi (by decide)) fun _ =>
    answers_require (keepsErrorOrFaults_raise s hi (by decide)) fun _ => ?_
  cases codeOf s sym with
  | none => exact answers_next (keepsErrorOrFaults_raise s hi (by decide : (3 : BitVec 4) ≠ 2))
  | some c => exact answers_next (.inl (writeBits_error _ c finish s))

/-- While ERR = 0 a command but CLEAR leaves the error registers as they are, or ends in an error (R202, R205). -/
theorem answers_exec_error {i : Instr} {s : State} (he : s.error.err = false) (hi : i ≠ .clear) :
    Answers (KeepsErrorOrFaults i s) (exec i s) := by
  cases i with
  | nop => exact answers_next (.inl rfl)
  | clear => exact absurd rfl hi
  | facc b =>
    rw [exec, execFacc, unlessError_of_ok _ he]
    refine answers_require (keepsErrorOrFaults_raise s nofun (by decide)) fun _ => answers_next (.inl ?_)
    rw [countSymbol_eq]
  | ffin =>
    rw [exec_ffin_eq he, finalizeFreq_eq]
    exact answers_next (.inl rfl)
  | build =>
    rw [exec, execBuild, unlessError_of_ok _ he]
    refine answers_require (keepsErrorOrFaults_raise s nofun (by decide)) fun _ => ?_
    cases buildTree s.freq.count with
    | some t => exact answers_next (.inl rfl)
    | none => rintro t ⟨⟩
  | deser =>
    rw [exec_deser_eq he]
    exact answers_next (keepsErrorOrFaults_deser s)
  | ser =>
    rw [exec, execSer, unlessError_of_ok _ he]
    cases s.tree.value with
    | none => exact answers_next (keepsErrorOrFaults_raise s nofun (by decide))
    | some t => exact answers_next (.inl (writeBits_error _ _ _ s))
  | cgen =>
    rw [exec, execCgen, unlessError_of_ok _ he]
    cases s.tree.value with
    | none => exact answers_next (keepsErrorOrFaults_raise s nofun (by decide))
    | some t => exact answers_next (.inl rfl)
  | enc b =>
    rw [exec_enc_eq b he]
    exact answers_encodeSymbol_error (i := .enc b) nofun _ _ s
  | eeof =>
    rw [exec_eeof_eq he]
    exact answers_encodeSymbol_error (i := .eeof) nofun _ _ s
  | dec =>
    intro t h
    rcases exec_dec_cases h with ⟨herr, -⟩ | ⟨-, -, rfl⟩ | ⟨-, -, rfl⟩ | ⟨tree, -, -, -, rfl⟩
    · cases he.symm.trans herr
    · exact keepsErrorOrFaults_raise (i := .dec) s nofun (by decide)
    · exact keepsErrorOrFaults_raise (i := .dec) s nofun (by decide)
    · exact keepsErrorOrFaults_decodeOne tree s

/-- Settles O15: from ERR = 1 the command is dropped or is NOP, from ERR = 0 it raises or it does not. -/
theorem errorRegistersFrame : Obligations.ErrorRegistersFrame := by
  intro i s t hi h
  cases he : s.error.err with
  | true => exact (error_of_exec_of_err he hi h).imp_right fun herr => .inl ⟨rfl, herr⟩
  | false => exact (answers_exec_error he hi t h).imp_right fun hfaults => .inr ⟨rfl, hfaults.error⟩

/-! ### What a faulting command leaves (R205) -/

/-- Settles O14: an illegal word raises at once, and a command in one of the three ways of `Faults`. -/
theorem effectsOfFaultingCommand : Obligations.EffectsOfFaultingCommand := by
  intro s t w rest hidle he hcmd h herr
  have hidle' : (acceptCommand rest s).inflight = none := hidle
  have hne {i : Instr} (hw : decode w ≠ .legal i) : w ≠ encode i := by
    rintro rfl
    exact hw (decode_encode i)
  cases hd : decode w with
  | illegal c =>
    rw [step_of_decode_illegal hidle hcmd hd, illegalCommand, unlessError_of_ok (s := acceptCommand rest s) _ he,
      raise_eq_withError hidle'] at h
    cases h
    exact ⟨rfl, rfl, .inl ⟨hne (i := .deser) (by simp [hd]), (by decide : (4 : BitVec 4) ≠ 2), rfl⟩⟩
  | legal i =>
    rw [step_of_legal hidle hcmd hd] at h
    have hclear : i ≠ .clear := by
      rintro rfl
      cases h
      cases herr
    rcases answers_exec_error (s := acceptCommand rest s) he hclear t h with hsame | hfaults
    · cases he.symm.trans ((congrArg ErrReg.err hsame).symm.trans herr)
    · obtain ⟨-, -, hname, hdropped⟩ := hfaults.error
      refine ⟨hname.trans (word_of_decode hd).symm, hdropped, ?_⟩
      cases hfaults with
      | atOnce e hi hcode =>
        refine .inl ⟨hne (i := .deser) (by simpa [hd] using hi), hcode, ?_⟩
        exact raise_eq_withError hidle' _ e
      | malformed e taken left hi hcode hin =>
        subst hi
        refine .inr (.inl ⟨word_of_decode hd, hcode, taken, left, hin, ?_⟩)
        exact raise_eq_withError (s := tookBits _ _ (setTree _ _ (dropTables (acceptCommand rest s)))) hidle _ e
      | truncated taken left hi hin htaken =>
        subst hi
        refine .inr (.inr ⟨word_of_decode hd, rfl, taken, left, hin, htaken, ?_⟩)
        exact raise_eq_withError (s := tookBits _ _ (acceptCommand rest s)) hidle _ _

/-! ### The `require` lines (R216) -/

/-- The word of FACC with its operand (R90, R92). -/
theorem encode_facc (b : Byte) : encode (.facc b) = 0x2000 ||| b.setWidth 16 := assembleWord_operand 2 b

/-- BUILD before FFIN (R120). -/
theorem exec_build_of_open {s : State} (he : s.error.err = false) (hf : s.freq.final = false) :
    exec .build s = .next (raise (encode .build) .freqNotFinal s) := by
  rw [exec, execBuild, unlessError_of_ok _ he, require_of_false _ hf]

/-- SER without a tree (R140). -/
theorem exec_ser_of_noTree {s : State} (he : s.error.err = false) (ht : s.tree.value = none) :
    exec .ser s = .next (raise (encode .ser) .noTree s) := by
  rw [exec, execSer, unlessError_of_ok _ he, ht]

/-- CGEN without a tree (R150). -/
theorem exec_cgen_of_noTree {s : State} (he : s.error.err = false) (ht : s.tree.value = none) :
    exec .cgen s = .next (raise (encode .cgen) .noTree s) := by
  rw [exec, execCgen, unlessError_of_ok _ he, ht]

/-- DEC without a tree (R170). -/
theorem exec_dec_of_noTree {s : State} (he : s.error.err = false) (ht : s.tree.value = none) :
    exec .dec s = .next (raise (encode .dec) .noTree s) := by
  rw [exec, execDec, unlessError_of_ok _ he, ht]

/-- DEC with a tree after DEC_DONE (R170). -/
theorem exec_dec_of_done {s : State} (he : s.error.err = false) (ht : s.tree.value ≠ none) (hdone : s.dec.done = true) :
    exec .dec s = .next (raise (encode .dec) .decFinished s) := by
  obtain ⟨t, ht⟩ := Option.ne_none_iff_exists'.mp ht
  rw [exec, execDec, unlessError_of_ok _ he, ht]
  exact require_of_false _ (by rw [hdone]; rfl)

/-- ENC and EEOF without codes (R160, R161). -/
theorem encodeSymbol_of_noCodes {s : State} (w : Word16) (sym : Symbol) (finish : Bool) (hvalid : s.codes.valid = false) :
    encodeSymbol w sym finish s = .next (raise w .noCodes s) := by
  rw [encodeSymbol, require_of_false _ hvalid]

/-- ENC and EEOF after EEOF (R160, R161). -/
theorem encodeSymbol_of_finished {s : State} (w : Word16) (sym : Symbol) (finish : Bool) (hvalid : s.codes.valid = true)
    (hdone : s.codes.encDone = true) : encodeSymbol w sym finish s = .next (raise w .encFinished s) := by
  rw [encodeSymbol, require_of_true _ hvalid, require_of_false _ (by rw [hdone]; rfl)]

/-- FFIN never raises (R111). -/
theorem exec_ffin_error_code {s t : State} (h : exec .ffin s = .next t) : t.error.code = s.error.code := by
  rcases exec_ffin_cases h with ⟨-, rfl⟩ | ⟨-, rfl⟩
  · rfl
  · rw [finalizeFreq_eq]

/-- DESER raises MALFORMED_TREE only (R132). -/
theorem exec_deser_code_ne {s t : State} (h : exec .deser s = .next t) (hcode : s.error.code ≠ 5) :
    t.error.code ≠ 5 := by
  cases he : s.error.err with
  | true => rcases error_of_exec_of_err (i := .deser) he nofun h with herr | herr <;> rw [herr] <;> exact hcode
  | false =>
    rcases answers_exec_error (i := .deser) he nofun t h with herr | hfaults
    · rw [herr]
      exact hcode
    · cases hfaults with
      | atOnce e hi => exact absurd rfl hi
      | malformed e taken left _ he1 => simp [he1]
      | truncated _ _ hi => cases hi

/-- Settles O13: the raise of each `require` line in an idle block, and the four commands without one. -/
theorem sequenceChecks : Obligations.SequenceChecks := by
  refine ⟨fun s he hidle => ?_, ?_⟩
  · have hraise (w : Word16) (e : Error) :
        (Host.Outcome.next (raise w e s) : Res) = .next (s.withError w e.code e.sub e.info) :=
      congrArg _ (raise_eq_withError hidle w e)
    refine ⟨fun b hf => ?_, fun hf => ?_, fun ht => ?_, fun ht => ?_, fun ht => ?_, fun b hv => ?_, fun hv => ?_,
      fun b hv hd => ?_, fun hv hd => ?_, fun ht hd => ?_⟩
    · rw [← encode_facc]
      exact (exec_facc_of_final b he hf).trans (hraise _ _)
    · exact (exec_build_of_open he hf).trans (hraise _ _)
    · exact (exec_ser_of_noTree he ht).trans (hraise _ _)
    · exact (exec_cgen_of_noTree he ht).trans (hraise _ _)
    · exact (exec_dec_of_noTree he ht).trans (hraise _ _)
    · rw [← encode_enc, exec_enc_eq b he, encodeSymbol_of_noCodes _ _ _ hv]
      exact hraise _ _
    · rw [exec_eeof_eq he, encodeSymbol_of_noCodes _ _ _ hv]
      exact hraise _ _
    · rw [← encode_enc, exec_enc_eq b he, encodeSymbol_of_finished _ _ _ hv hd]
      exact hraise _ _
    · rw [exec_eeof_eq he, encodeSymbol_of_finished _ _ _ hv hd]
      exact hraise _ _
    · exact (exec_dec_of_done he ht hd).trans (hraise _ _)
  · rintro i s t (rfl | rfl | rfl | rfl) hcode h
    · cases h
      exact hcode
    · cases h
      exact (by decide : (0 : BitVec 4) ≠ 5)
    · rw [exec_ffin_error_code h]
      exact hcode
    · exact exec_deser_code_ne h hcode

end Sys2Proof.Machine
end
